-- ==== Sys2Proof/Word.lean ====
section
/-! DEFINITION. The word types of CORE and the tag: 00_scope.md R7 (W, CW), R8 (RW), R11; 10_state.md R24;
30_encoding.md R82. -/

namespace Sys2Proof

/-- A register value, operand or result: W = 32 bits (R7, D1). -/
abbrev Word := BitVec 32

/-- A cycle number, CW = 32 bits: CYCLE and every timestamp (R7, R32, R33, D23). -/
abbrev CycleNo := BitVec 32

/-- CW, the width of the cycle counter (R7, D23). -/
abbrev cycleWidth : Nat := 32

/-- An instruction word (R82). -/
abbrev InstrWord := BitVec 32

/-- A register index field of the instruction word, RW = 8 bits, read unsigned (R8, R82, R84). -/
abbrev RegIx := BitVec 8

/-- A tag: `none` is "no producer", `some r` names station r (R24). Only ever compared for equality. -/
abbrev Tag := Option Nat

/-- The least n with k ≤ 2^n, that is ceil(log2 k) for k ≥ 1 (R8). -/
def ceilLog2 (k : Nat) : Nat := if k ≤ 1 then 0 else Nat.log2 (k - 1) + 1

/-- The width of an index below n, at least 1 (R8). -/
def indexWidth (n : Nat) : Nat := max 1 (ceilLog2 n)

end Sys2Proof
end

