-- ==== Sys2Proof/Config.lean ====
section
/-! DEFINITION. What is fixed for a run: the configuration CFG with N and MAX_CYCLES (00_scope.md R7, R8; 10_state.md
R37), the reference configuration (R10), and the free values of the model: constants without a body, about which
nothing can be proved (logs 6 and 10). -/

namespace Sys2Proof

/-- The configuration (R7, R37). The latencies have the defaults of R7; `n` is N, the program length, and
`maxCycles` is MAX_CYCLES, both given on `cfg_*` pins (R185). -/
structure Cfg where
  /-- NA, stations of the ADD partition -/
  na : Nat
  /-- NM, stations of the MULT partition -/
  nm : Nat
  /-- ND, stations of the DIV partition -/
  nd : Nat
  /-- LA, execute latency of ADD and SUB -/
  la : Nat := 4
  /-- LM, execute latency of MULT -/
  lm : Nat := 12
  /-- LD, execute latency of DIV -/
  ld : Nat := 38
  /-- R, the number of registers -/
  r : Nat
  /-- N, the length of PROG -/
  n : Nat
  /-- MAX_CYCLES, the host's cycle cap, or none (R183) -/
  maxCycles : Option CycleNo := none
  deriving DecidableEq, Repr

/-- `NRS = NA + NM + ND`, the number of stations (R8). -/
def Cfg.nrs (c : Cfg) : Nat := c.na + c.nm + c.nd

/-- `TW`, the width of a station index (R8). -/
def Cfg.tagWidth (c : Cfg) : Nat := indexWidth c.nrs

/-- `LW`, the width of a latency counter (R8). -/
def Cfg.latWidth (c : Cfg) : Nat := ceilLog2 (max c.la (max c.lm c.ld) + 1)

/-- `IW`, the width of an instruction index (R8). -/
def Cfg.instWidth (c : Cfg) : Nat := indexWidth c.n

/-- CFG_A of R10 with a program of n instructions: the test configuration of 95_test_vectors.md. -/
def Cfg.refA (n : Nat) : Cfg := { na := 4, nm := 1, nd := 1, r := 8, n := n }

/-- The word-wide fields of a free station whose value the spec leaves unspecified (R29, R165). -/
inductive FreeField where
  | vj
  | vk
  | result
  deriving DecidableEq, Repr

/-- FREE VALUE (log 6): what an unspecified word-wide field of a station holds, one value per draw, station and
field. -/
opaque Config.freeWord : Nat → Nat → FreeField → Word

/-- FREE VALUE (log 6): the code held by the unspecified `op` field of a free station. -/
opaque Config.freeOpCode : Nat → Nat → BitVec 2

/-- FREE VALUE (log 6): what the unspecified `inst` field of a free station holds (cut to IW bits where used). -/
opaque Config.freeInst : Nat → Nat → Nat

/-- FREE VALUE (log 10): the word a PROG cell holds that the host never wrote (R186). -/
opaque Config.unwrittenWord : Nat → InstrWord

end Sys2Proof
end

