-- ==== Sys2Proof/Syntax.lean ====
section
/-! DEFINITION. The decoded instruction, its operation and its class: 00_scope.md R2; 10_state.md R30;
30_encoding.md R80, R81. -/

namespace Sys2Proof

/-- The four operations (R2, R80). -/
inductive Op where
  | add
  | sub
  | mult
  | div
  deriving DecidableEq, Repr

/-- The operation classes: ADD and SUB share one (R81). -/
inductive OpClass where
  | add
  | mult
  | div
  deriving DecidableEq, Repr

/-- The decoded instruction `(op, rd, rs, rt)` of R30 and R80, one constructor per row of the opcode table.
`rd` is the destination, `rs` supplies operand j and `rt` operand k (R80, R84). -/
inductive Instr where
  | add (rd rs rt : RegIx)
  | sub (rd rs rt : RegIx)
  | mult (rd rs rt : RegIx)
  | div (rd rs rt : RegIx)
  deriving DecidableEq, Repr

/-- The operation kind of an instruction (R80). -/
def Instr.op : Instr → Op
  | .add _ _ _ => .add
  | .sub _ _ _ => .sub
  | .mult _ _ _ => .mult
  | .div _ _ _ => .div

/-- The destination register index (R80). -/
def Instr.rd : Instr → RegIx
  | .add d _ _ => d
  | .sub d _ _ => d
  | .mult d _ _ => d
  | .div d _ _ => d

/-- The first source register index, operand j (R80). -/
def Instr.rs : Instr → RegIx
  | .add _ s _ => s
  | .sub _ s _ => s
  | .mult _ s _ => s
  | .div _ s _ => s

/-- The second source register index, operand k (R80). -/
def Instr.rt : Instr → RegIx
  | .add _ _ t => t
  | .sub _ _ t => t
  | .mult _ _ t => t
  | .div _ _ t => t

/-- The record `(op, rd, rs, rt)` as an instruction (R80). -/
def Instr.ofRecord (op : Op) (rd rs rt : RegIx) : Instr :=
  match op with
  | .add => .add rd rs rt
  | .sub => .sub rd rs rt
  | .mult => .mult rd rs rt
  | .div => .div rd rs rt

/-- `class(op)` (R81). -/
def Op.cls : Op → OpClass
  | .add => .add
  | .sub => .add
  | .mult => .mult
  | .div => .div

end Sys2Proof
end

