-- ==== Sys2Proof/Decode.lean ====
section
/-! DEFINITION. The instruction word, its decoder and its encoder: 30_encoding.md R82 to R86. The instruction store
takes whole words (20_memory.md R62), so the decoder reads a word and byte order does not arise (log 16). -/

namespace Sys2Proof

/-- Why a word is illegal (R85): its operation code (a), its reserved bits (b), a register out of range (c). -/
inductive Illegal where
  | operation
  | reservedBits
  | registerRange
  deriving DecidableEq, Repr

/-- What a word decodes to: exactly one of an instruction and an illegal word with its reason (R85). -/
inductive Decoded where
  | instr (i : Instr)
  | illegal (why : Illegal)
  deriving DecidableEq, Repr

/-- `op[31:28]` (R82). -/
def wordOp (w : InstrWord) : BitVec 4 := w.extractLsb' 28 4

/-- `z[27:24]`, reserved (R82). -/
def wordZ (w : InstrWord) : BitVec 4 := w.extractLsb' 24 4

/-- `rd[23:16]` (R82, R84). -/
def wordRd (w : InstrWord) : RegIx := w.extractLsb' 16 8

/-- `rs[15:8]` (R82, R84). -/
def wordRs (w : InstrWord) : RegIx := w.extractLsb' 8 8

/-- `rt[7:0]` (R82, R84). -/
def wordRt (w : InstrWord) : RegIx := w.extractLsb' 0 8

/-- The operation codes (R83): 0000 to 0011; every other code is illegal (R85 a). -/
def opOfField (f : BitVec 4) : Option Op :=
  if f = 0#4 then some .add
  else if f = 1#4 then some .sub
  else if f = 2#4 then some .mult
  else if f = 3#4 then some .div
  else none

/-- The 2-bit code a station's `op` field holds (R26, R83). -/
def Op.code : Op → BitVec 2
  | .add => 0
  | .sub => 1
  | .mult => 2
  | .div => 3

/-- The operation of a 2-bit station code (R83). -/
def Op.ofCode (c : BitVec 2) : Op :=
  if c = 0#2 then .add else if c = 1#2 then .sub else if c = 2#2 then .mult else .div

/-- Decoding by R83 and R85 (a), (b): what the program port stores (R185). Where both reasons hold the first is
given (log 11). -/
def decodeWord (w : InstrWord) : Decoded :=
  match opOfField (wordOp w) with
  | none => .illegal .operation
  | some op =>
    if wordZ w = 0#4 then .instr (.ofRecord op (wordRd w) (wordRs w) (wordRt w))
    else .illegal .reservedBits

/-- Whether all three register indices are below R (R85 c, R9 WF1). -/
def Instr.inRange (r : Nat) (i : Instr) : Bool :=
  decide (i.rd.toNat < r) && decide (i.rs.toNat < r) && decide (i.rt.toNat < r)

/-- The whole of R85 for a machine of R registers. -/
def decode (r : Nat) (w : InstrWord) : Decoded :=
  match decodeWord w with
  | .instr i => if i.inRange r then .instr i else .illegal .registerRange
  | .illegal why => .illegal why

/-- The operation code field of an operation (R83). -/
def Op.field : Op → BitVec 4
  | .add => 0
  | .sub => 1
  | .mult => 2
  | .div => 3

/-- The word of an instruction, format T: op, 0000, rd, rs, rt from bit 31 down (R82, R83). -/
def encode (i : Instr) : InstrWord := i.op.field ++ (0#4 ++ (i.rd ++ (i.rs ++ i.rt)))

/-- The tag as TW+1 bits: the valid bit on top, then the station index; `none` is all zeros (R24, D7). -/
def tagBits (tw : Nat) : Tag → BitVec (tw + 1)
  | none => 0
  | some r => BitVec.ofNat (tw + 1) (2 ^ tw + r % 2 ^ tw)

/-- The instruction the decoder reads from the opcode table's bits: bit 0 of `w` is bit 0 of the word, and every bit
above `nbits` is 0 (log 16). -/
def decodeTableWord (nbits w : Nat) : Option Instr :=
  if nbits ≤ 32 ∧ w < 2 ^ nbits then
    match decodeWord (BitVec.ofNat 32 w) with
    | .instr i => some i
    | .illegal _ => none
  else none

end Sys2Proof
end

