-- ==== Sys2Proof/WellFormed.lean ====
section
/-! DEFINITION. Well-formedness of instructions and words: 00_scope.md R9 WF1, 30_encoding.md R85. The checks WF1 to WF6
of a configuration and program, as the machine evaluates them, stand in Machine/Admission.lean. -/

namespace Sys2Proof

/-- WF1 for one instruction: every register index is less than R (R9). -/
def Instr.wf (r : Nat) (i : Instr) : Bool := i.inRange r

/-- A word is legal for R registers when it decodes to an instruction (R85). -/
def wordLegal (r : Nat) (w : InstrWord) : Bool :=
  match decode r w with
  | .instr _ => true
  | .illegal _ => false

end Sys2Proof
end

