-- ==== Sys2Proof/Machine/State.lean ====
section
/-! DEFINITION. The state of CORE as plain data (10_state.md R20 to R37), the input pins (43_cycle_and_interface.md
R185), the reasons a step can stop, and the state right after reset (70_reset_and_hazards.md R240). -/

namespace Sys2Proof.Machine

/-- One reservation station, every field of R26. -/
structure Station where
  /-- the station holds an instruction -/
  busy : Bool
  /-- operation of the occupying instruction -/
  op : Op
  /-- first operand value, meaningful only while `qj = none` (R27) -/
  vj : Word
  /-- second operand value, meaningful only while `qk = none` (R27) -/
  vk : Word
  /-- producer tag of the first operand -/
  qj : Tag
  /-- producer tag of the second operand -/
  qk : Tag
  /-- elapsed-latency counter -/
  lat : Nat
  /-- the computed result -/
  result : Word
  /-- result-ready flag -/
  ready : Bool
  /-- index in PROG of the occupying instruction -/
  inst : Nat
  deriving DecidableEq, Repr

/-- The timestamps of one instruction (R32); `none` is "not yet occurred". -/
structure TimeRec where
  issue : Option CycleNo := none
  ebegin : Option CycleNo := none
  eend : Option CycleNo := none
  wb : Option CycleNo := none
  deriving DecidableEq, Repr

/-- The run-time fault records of R211. -/
inductive FaultRecord where
  /-- code 1, raised by a DIV in Execute (R147) -/
  | divideByZero (inst station : Nat) (cycle : CycleNo)
  /-- code 2, raised by the driver (R183) -/
  | cycleCapExceeded (cycle : CycleNo)
  /-- code 3, kept for an implementation's run-time assertion; no rule raises it (R215) -/
  | invariantViolation
  deriving DecidableEq, Repr

/-- CFG_ERR other than 0: the lowest-numbered failing check of R9, with the codes 1 to 6 of R210 in this order. -/
inductive ConfigErr where
  | registerIndex
  | operation
  | latency
  | noStation
  | registerCount
  | cycleBound
  deriving DecidableEq, Repr

/-- The levels on the `cfg_*` pins (R185). The lines of a fixed width are bit vectors of that width; `cfg_la`, `cfg_lm`,
`cfg_ld` (LW bits) and `cfg_n` (IW+1 bits) get their width from the values themselves (R8), which always fit it, and are
numbers (log 18; their lines are `laLine` to `nLine` of Machine/Interface.lean). -/
structure CfgPins where
  /-- `cfg_na` -/
  na : BitVec 8
  /-- `cfg_nm` -/
  nm : BitVec 8
  /-- `cfg_nd` -/
  nd : BitVec 8
  /-- `cfg_la` -/
  la : Nat := 4
  /-- `cfg_lm` -/
  lm : Nat := 12
  /-- `cfg_ld` -/
  ld : Nat := 38
  /-- `cfg_r` -/
  r : BitVec 9
  /-- `cfg_n` -/
  n : Nat
  /-- `cfg_cap_en` -/
  capEn : Bool := false
  /-- `cfg_max_cycles` -/
  maxCycles : CycleNo := 0
  deriving DecidableEq, Repr

/-- The input levels at a rising edge of `clk` (R185). A write port is `some (address, data)` when its write enable
is 1. -/
structure Pins where
  /-- synchronous reset, active high -/
  rst : Bool
  /-- cycle enable -/
  en : Bool
  /-- the `cfg_*` pins -/
  cfg : CfgPins
  /-- the `prog_*` port, whose address has IW bits, for the N on `cfg_n` (R8, R185; log 27) -/
  progWrite : Option (BitVec (indexWidth cfg.n) × InstrWord)
  /-- the `reg_*` port -/
  regWrite : Option (RegIx × Word)
  deriving DecidableEq, Repr

/-- The state of CORE (R20), with the levels on its input pins. -/
structure State where
  /-- REG: the register store, 256 cells, of which the first R are R0 to R(R−1) (R21, R22; log 9) -/
  reg : List Word
  /-- RSTAT: one tag per register (R23) -/
  rstat : List Tag
  /-- RS: the station pool (R25, R26) -/
  stations : List Station
  /-- PROG: what each written cell decodes to; `none` is a cell the host never wrote (R30, R185; log 10) -/
  prog : List (Option Decoded)
  /-- NEXT, the issue pointer (R31) -/
  next : Nat
  /-- TS: one record per instruction (R32) -/
  ts : List TimeRec
  /-- CYCLE (R33) -/
  cycle : CycleNo
  /-- FAULT (R34) -/
  fault : Option FaultRecord
  /-- CFG, as sampled on the last edge with rst = 1 (R37, R240) -/
  cfg : Cfg
  /-- CFG_ERR (R37, R210) -/
  cfgErr : Option ConfigErr
  /-- the edge before had rst = 1, so that rst falls at the next edge with rst = 0 (R210, R240; log 12) -/
  inReset : Bool
  /-- the input levels at the coming edge (R185; log 2) -/
  pins : Pins
  /-- the model's own counter of free values drawn (log 6) -/
  draws : Nat
  deriving DecidableEq, Repr

/-- Why the model stops with a fault. No rule of CORE does: DivideByZero and CycleCapExceeded are recorded in the FAULT
register of a next state (R211, R214). -/
inductive Fault where
  /-- Raised by `exec` alone, for an instruction that names a register ≥ R, an index that does not exist (R63). Safe:
  WF1 refuses such a program before its first cycle (R9), so no step of an admitted configuration raises it (log 14). -/
  | registerIndexOutOfRange
  deriving DecidableEq, Repr

/-- Why the model refuses. -/
inductive Refusal where
  /-- Raised by `exec` for an instruction that has no meaning yet. Safe: the model stops. -/
  | notModelled (mnemonic : String)
  /-- Raised by `step` when PROG[NEXT] is an illegal word. Safe: WF2 refuses such a program before its first cycle (R9,
  R85), so no step of an admitted configuration raises it (log 14). -/
  | illegalWord (why : Illegal)
  deriving DecidableEq, Repr

/-- A free station with its unspecified fields at the values log 5 names (R26, R29). -/
def Station.atReset : Station :=
  { busy := false, op := .add, vj := 0, vk := 0, qj := none, qk := none, lat := 0, result := 0, ready := false,
    inst := 0 }

/-- The configuration State.reset stands at: the station counts of CFG_A, the default latencies, all 256 registers and
no program (log 3). -/
def resetCfg : Cfg := { na := 4, nm := 1, nd := 1, r := 256, n := 0 }

/-- The levels on the `cfg_*` pins in State.reset: those that give `resetCfg` (log 3). -/
def resetPins : CfgPins := { na := 4, nm := 1, nd := 1, r := 256, n := 0 }

/-- The machine right after reset (R240): rst has just fallen, en is up, and WF1 to WF6 are evaluated at the next edge.
The values R240 leaves to the host or unspecified are named in logs 3, 4 and 5. -/
def State.reset : State :=
  { reg := List.replicate 256 0
    rstat := List.replicate 256 none
    stations := List.replicate 6 Station.atReset
    prog := []
    next := 0
    ts := []
    cycle := 0
    fault := none
    cfg := resetCfg
    cfgErr := none
    inReset := true
    pins := { rst := false, en := true, cfg := resetPins, progWrite := none, regWrite := none }
    draws := 0 }

end Sys2Proof.Machine
end

