-- ==== Sys2Proof/Machine/Arith.lean ====
section
/-! DEFINITION. The integer laws and the four functions f_op (41_execute.md R140 to R147), and the latency table
(R133). -/

namespace Sys2Proof.Machine

/-- `trunc_W(n)`: the word whose unsigned value is n mod 2^W (R11). -/
def truncW (n : Int) : Word := BitVec.ofInt 32 n

/-- `tdiv(x, y) = sign(x·y) × floor(|x| / |y|)`, the quotient truncated toward zero (R143). -/
def tdiv (x y : Int) : Int := (x * y).sign * ((x.natAbs / y.natAbs : Nat) : Int)

/-- `f_ADD` (R140). -/
def fAdd (a b : Word) : Word := truncW (a.toInt + b.toInt)

/-- `f_SUB`: operand j minus operand k (R141). -/
def fSub (a b : Word) : Word := truncW (a.toInt - b.toInt)

/-- `f_MULT`: the low W bits of the exact product (R142). -/
def fMult (a b : Word) : Word := truncW (a.toInt * b.toInt)

/-- `f_DIV`: operand j divided by operand k; no result for the divisor 0 (R143, R146, R147). -/
def fDiv (a b : Word) : Option Word :=
  if b.toNat = 0 then none else some (truncW (tdiv a.toInt b.toInt))

/-- Exactly the one function the operation selects (R137); `none` is "no result", which only DIV has (R147). -/
def fOp (op : Op) (a b : Word) : Option Word :=
  match op with
  | .add => some (fAdd a b)
  | .sub => some (fSub a b)
  | .mult => some (fMult a b)
  | .div => fDiv a b

/-- `L(op)`, the latency of the operation's class (R133). -/
def latency (c : Cfg) (op : Op) : Nat :=
  match op.cls with
  | .add => c.la
  | .mult => c.lm
  | .div => c.ld

end Sys2Proof.Machine
end

