-- ==== Sys2Proof/Machine/Flags.lean ====
section
/-! DEFINITION. The status signals of CORE. There are no arithmetic flags: no operation writes or reads one (10_state.md
R38). DONE and HALTED (R35, R36), the code of CFG_ERR (60_exceptions.md R210) and of FAULT (R211). -/

namespace Sys2Proof.Machine

/-- DONE: every instruction has retired (R35). -/
def done (s : State) : Bool := s.ts.all fun t => t.wb.isSome

/-- HALTED = DONE or FAULT ≠ none (R36). -/
def halted (s : State) : Bool := done s || s.fault.isSome

/-- How many instructions have retired (R221). -/
def retiredCount (s : State) : Nat := s.ts.countP fun t => t.wb.isSome

/-- The code of CFG_ERR, 0 for none (R210). -/
def cfgErrCode : Option ConfigErr → BitVec 3
  | none => 0
  | some .registerIndex => 1
  | some .operation => 2
  | some .latency => 3
  | some .noStation => 4
  | some .registerCount => 5
  | some .cycleBound => 6

/-- The code of FAULT, 0 for none (R211). -/
def faultCode : Option FaultRecord → BitVec 2
  | none => 0
  | some (.divideByZero _ _ _) => 1
  | some (.cycleCapExceeded _) => 2
  | some .invariantViolation => 3

/-- The cycle cap is reached: CYCLE = MAX_CYCLES (R183). -/
def capReached (s : State) : Bool :=
  match s.cfg.maxCycles with
  | none => false
  | some m => s.cycle == m

end Sys2Proof.Machine
end

