-- ==== Sys2Proof/Machine/Operands.lean ====
section
/-! DEFINITION. Every form an operand has: a value or a producer's tag. The read ports of REG and RSTAT (20_memory.md
R65), resolution at issue (40_issue.md R104, R105) and forwarding at writeback (42_writeback.md R164). -/

namespace Sys2Proof.Machine

/-- An operand: a value, or the station that will produce it (R27). -/
inductive Operand where
  | val (v : Word)
  | wait (r : Nat)
  deriving DecidableEq, Repr

/-- A REG read port (R65): the whole word, with no side effect (R64). -/
def readReg (s : State) (i : RegIx) : Word := s.reg[i.toNat]?.getD 0

/-- An RSTAT read port (R65). -/
def readStat (s : State) (i : RegIx) : Tag := s.rstat[i.toNat]?.getD none

/-- Operand resolution at issue: the register's value if it has no pending producer, else the producer's tag (R104). -/
def resolve (s : State) (i : RegIx) : Operand :=
  match readStat s i with
  | none => .val (readReg s i)
  | some p => .wait p

/-- Placing operand j: a value clears the tag; a tag leaves the value slot unwritten (R104; log 7). -/
def Station.placeJ (o : Operand) (st : Station) : Station :=
  match o with
  | .val v => { st with vj := v, qj := none }
  | .wait p => { st with qj := some p }

/-- Placing operand k (R104). -/
def Station.placeK (o : Operand) (st : Station) : Station :=
  match o with
  | .val v => { st with vk := v, qk := none }
  | .wait p => { st with qk := some p }

/-- Operand j of a station, as the sum type of R27. -/
def Station.operandJ (st : Station) : Operand :=
  match st.qj with
  | none => .val st.vj
  | some p => .wait p

/-- Operand k of a station, as the sum type of R27. -/
def Station.operandK (st : Station) : Operand :=
  match st.qk with
  | none => .val st.vk
  | some p => .wait p

/-- The value a tag's bus carries, for buses given station by station (R161). -/
def busAt (cdb : List (Option Word)) : Tag → Option Word
  | none => none
  | some r => cdb[r]?.getD none

/-- Forwarding to operand j: a broadcast tag is replaced by its value (R164). -/
def Station.forwardJ (cdb : List (Option Word)) (st : Station) : Station :=
  match busAt cdb st.qj with
  | some v => { st with vj := v, qj := none }
  | none => st

/-- Forwarding to operand k (R164). -/
def Station.forwardK (cdb : List (Option Word)) (st : Station) : Station :=
  match busAt cdb st.qk with
  | some v => { st with vk := v, qk := none }
  | none => st

end Sys2Proof.Machine
end

