-- ==== Sys2Proof/Machine/Ops.lean ====
section
/-! DEFINITION. The shared operations: the station partitions and the arbiter (00_scope.md R8; 40_issue.md R101, R102),
the instruction store (20_memory.md R61), recording a fault (60_exceptions.md R214, R218) and reset, the only way out of
a fault (70_reset_and_hazards.md R240; 60_exceptions.md R219). -/

namespace Sys2Proof.Machine

/-- The station indices of a partition: ADD first, then MULT, then DIV (R8). -/
def partition (c : Cfg) : OpClass → List Nat
  | .add => List.range' 0 c.na
  | .mult => List.range' c.na c.nm
  | .div => List.range' (c.na + c.nm) c.nd

/-- The number of stations of a class (R7). -/
def stationCount (c : Cfg) : OpClass → Nat
  | .add => c.na
  | .mult => c.nm
  | .div => c.nd

/-- `class(r)`: the partition station r belongs to; none for an index ≥ NRS (R8, R25). -/
def classOf (c : Cfg) (r : Nat) : Option OpClass :=
  if r < c.na then some .add
  else if r < c.na + c.nm then some .mult
  else if r < c.nrs then some .div
  else none

/-- Station r exists and has `busy = 0` (R101). -/
def isFree (s : State) (r : Nat) : Bool :=
  match s.stations[r]? with
  | some st => !st.busy
  | none => false

/-- The arbiter: the lowest-indexed free station of the class, or none when the partition is full (R101 to R103). -/
def arbiter (s : State) (c : OpClass) : Option Nat := (partition s.cfg c).find? (isFree s)

/-- PROG[k] as decoded; a cell the host never wrote holds a free value (R30, R186; log 10). -/
def progAt (s : State) (k : Nat) : Decoded :=
  match s.prog[k]?.getD none with
  | some d => d
  | none => decodeWord (Config.unwrittenWord k)

/-- PROG[0] to PROG[N−1] (R30). -/
def program (s : State) : List Decoded := (List.range s.cfg.n).map (progAt s)

/-- The head instruction PROG[NEXT], which exists exactly while NEXT < N (R31, R61, R100). -/
def headSlot (s : State) : Option Decoded := if s.next < s.cfg.n then some (progAt s s.next) else none

/-- Writing one cell of the instruction store. -/
def setCell : List (Option Decoded) → Nat → Decoded → List (Option Decoded)
  | [], 0, d => [some d]
  | [], k + 1, d => none :: setCell [] k d
  | _ :: cells, 0, d => some d :: cells
  | cell :: cells, k + 1, d => cell :: setCell cells k d

/-- TAKING A FAULT: FAULT is written unless it already holds a record; nothing is saved and nothing else changes (R34,
R214, R218). -/
def raiseFault (f : FaultRecord) (s : State) : State :=
  match s.fault with
  | none => { s with fault := some f }
  | some _ => s

/-- A free station whose unspecified fields hold the free values of one draw (R26, R29; log 6). -/
def Station.unspecified (c : Cfg) (draw r : Nat) : Station :=
  { busy := false
    op := Op.ofCode (Config.freeOpCode draw r)
    vj := Config.freeWord draw r .vj
    vk := Config.freeWord draw r .vk
    qj := none
    qk := none
    lat := 0
    result := Config.freeWord draw r .result
    ready := false
    inst := Config.freeInst draw r % 2 ^ c.instWidth }

/-- The configuration the `cfg_*` pins give (R37, R185): MAX_CYCLES is none when `cfg_cap_en = 0`. -/
def CfgPins.toCfg (p : CfgPins) : Cfg :=
  { na := p.na.toNat
    nm := p.nm.toNat
    nd := p.nd.toNat
    la := p.la
    lm := p.lm
    ld := p.ld
    r := p.r.toNat
    n := p.n
    maxCycles := if p.capEn then some p.maxCycles else none }

/-- The program port, honoured only while rst = 1: the cell takes the word's decoding (R185, R240). -/
def loadProg (p : Pins) (prog : List (Option Decoded)) : List (Option Decoded) :=
  match p.progWrite with
  | none => prog
  | some (k, w) => setCell prog k.toNat (decodeWord w)

/-- The register port, honoured only while rst = 1 (R185, R240). -/
def loadReg (p : Pins) (reg : List Word) : List Word :=
  match p.regWrite with
  | none => reg
  | some (i, v) => reg.set i.toNat v

/-- An edge with rst = 1: every element takes its reset value, CFG is sampled from the pins, and REG and PROG change
only by their ports (R240). It is the only return from a fault (R219). -/
def resetEdge (s : State) : State :=
  { s with
    cfg := s.pins.cfg.toCfg
    rstat := List.replicate s.pins.cfg.toCfg.r none
    stations := (List.range s.pins.cfg.toCfg.nrs).map (Station.unspecified s.pins.cfg.toCfg s.draws)
    next := 0
    ts := List.replicate s.pins.cfg.toCfg.n {}
    cycle := 0
    fault := none
    cfgErr := none
    prog := loadProg s.pins s.prog
    reg := loadReg s.pins s.reg
    inReset := true
    draws := s.draws + 1 }

/-- The clock is advanced at the start of a cycle (R33, R180). -/
def advanceCycle (s : State) : State := { s with cycle := s.cycle + 1 }

end Sys2Proof.Machine
end

