-- ==== Sys2Proof/Machine/Execute.lean ====
section
/-! DEFINITION. The Execute stage: 41_execute.md R130 to R139, R147; 60_exceptions.md R213, R214. Everything is computed
from the state the stage receives (43_cycle_and_interface.md R181). -/

namespace Sys2Proof.Machine

/-- Eligibility (R130). -/
def Station.eligible (st : Station) : Bool :=
  st.busy && st.qj.isNone && st.qk.isNone && !st.ready

/-- What one cycle of Execute does with a station. -/
inductive ExecEvent where
  /-- not eligible: nothing is written (R135) -/
  | idle
  /-- the counter advances and has not expired (R132) -/
  | advance
  /-- the counter expires with a result (R134) -/
  | complete (v : Word)
  /-- the counter of a DIV expires with divisor 0 (R147) -/
  | divideByZero
  deriving DecidableEq, Repr

/-- The event of a station (R139). -/
def execEvent (c : Cfg) (st : Station) : ExecEvent :=
  if st.eligible then
    if st.lat + 1 < latency c st.op then .advance
    else
      match fOp st.op st.vj st.vk with
      | some v => .complete v
      | none => .divideByZero
  else .idle

/-- The station after Execute (R132, R134, R135, R147). -/
def execStation (c : Cfg) (st : Station) : Station :=
  match execEvent c st with
  | .idle => st
  | .advance => { st with lat := st.lat + 1 }
  | .complete v => { st with result := v, ready := true, lat := 0 }
  | .divideByZero => st

/-- The station completes in this cycle (R134). -/
def completes (c : Cfg) (st : Station) : Bool :=
  match execEvent c st with
  | .complete _ => true
  | _ => false

/-- The timestamps of instruction k after Execute in cycle `cyc`: execute-begin in the first eligible cycle (R131),
execute-end on completion (R134). -/
def execTime (c : Cfg) (sts : List Station) (cyc : CycleNo) (k : Nat) (t : TimeRec) : TimeRec :=
  { t with
    ebegin :=
      if t.ebegin.isNone && sts.any (fun st => st.eligible && st.inst == k) then some cyc else t.ebegin
    eend := if sts.any (fun st => completes c st && st.inst == k) then some cyc else t.eend }

/-- The DivideByZero record of the cycle, if a DIV expires with divisor 0: the lowest such station (R147, R214). -/
def divFault (c : Cfg) (sts : List Station) (cyc : CycleNo) : Option FaultRecord :=
  match sts.findIdx? (fun st => execEvent c st == .divideByZero) with
  | none => none
  | some r => some (.divideByZero ((sts[r]?.map (·.inst)).getD 0) r cyc)

/-- Execute, from S1 to S2 (R139). -/
def execute (s : State) : State :=
  let s2 :=
    { s with
      stations := s.stations.map (execStation s.cfg)
      ts := s.ts.mapIdx (execTime s.cfg s.stations s.cycle) }
  match divFault s.cfg s.stations s.cycle with
  | none => s2
  | some f => raiseFault f s2

end Sys2Proof.Machine
end

