-- ==== Sys2Proof/Machine/Issue.lean ====
section
/-! DEFINITION. The Issue stage: 40_issue.md R100 to R114. -/

namespace Sys2Proof.Machine

/-- What admission writes into the station: its operands, `busy`, `op` and `inst`; `lat`, `ready` and `result` are not
written (R104, R106). -/
def Station.fill (op : Op) (oj ok : Operand) (inst : Nat) (st : Station) : Station :=
  { (st.placeJ oj).placeK ok with busy := true, op := op, inst := inst }

/-- Admission of an instruction to station r: both operands are resolved from the state before the rename (R104, R105),
the station is filled (R106), the destination is renamed (R107), the issue cycle is recorded (R108) and NEXT advances
(R109). -/
def admitTo (i : Instr) (r : Nat) (s : State) : State :=
  { s with
    stations := s.stations.modify r (Station.fill i.op (resolve s i.rs) (resolve s i.rt) s.next)
    rstat := s.rstat.set i.rd.toNat (some r)
    ts := s.ts.modify s.next fun t => { t with issue := some s.cycle }
    next := s.next + 1 }

/-- Issue, from S0 to S1, with the head instruction given (R113): nothing past the end of the program (R100), nothing on
a structural stall (R103), else admission to the arbiter's station (R102). -/
def issue (i : Instr) (s : State) : State :=
  if s.cfg.n ≤ s.next then s
  else
    match arbiter s i.op.cls with
    | none => s
    | some r => admitTo i r s

end Sys2Proof.Machine
end

