-- ==== Sys2Proof/Machine/Writeback.lean ====
section
/-! DEFINITION. The Writeback stage: 42_writeback.md R160 to R170. Every broadcast reads S2 and all writes are committed
together (R166). -/

namespace Sys2Proof.Machine

/-- The broadcast set B: the stations ready before Execute ran (R160). -/
def broadcasts (s1 : State) (r : Nat) : Bool :=
  match s1.stations[r]? with
  | some st => st.ready
  | none => false

/-- The result buses, one per station: the result of a station in B, and no valid value elsewhere (R161). -/
def cdb (s1 s2 : State) : List (Option Word) :=
  s2.stations.mapIdx fun r st => if broadcasts s1 r then some st.result else none

/-- A released station: `busy`, `ready` and the tags are cleared; the fields R29 calls unspecified take free values
(R165; log 6). -/
def Station.release (c : Cfg) (draw r : Nat) (st : Station) : Station :=
  { Station.unspecified c draw r with lat := st.lat }

/-- The station after Writeback: released if it broadcasts (R165), else its operands are forwarded to (R164). -/
def wbStation (s1 s2 : State) (r : Nat) (st : Station) : Station :=
  if broadcasts s1 r then st.release s2.cfg s2.draws r
  else (st.forwardJ (cdb s1 s2)).forwardK (cdb s1 s2)

/-- The register file after Writeback: a register whose status entry (after Issue) is broadcast takes the value (R163).
Walks RSTAT and REG together. -/
def writeRegs (bus : List (Option Word)) : List Tag → List Word → List Word
  | t :: tags, w :: words => (busAt bus t).getD w :: writeRegs bus tags words
  | _, words => words

/-- A status entry after Writeback: cleared when its tag is broadcast (R163). -/
def clearTag (bus : List (Option Word)) (t : Tag) : Tag :=
  if (busAt bus t).isSome then none else t

/-- Some station in B holds instruction k (R162). -/
def retires (s1 s2 : State) (k : Nat) : Bool :=
  (s2.stations.mapIdx fun r st => broadcasts s1 r && st.inst == k).any id

/-- The timestamps of instruction k after Writeback (R162). -/
def wbTime (s1 s2 : State) (k : Nat) (t : TimeRec) : TimeRec :=
  { t with wb := if t.wb.isNone && retires s1 s2 k then some s2.cycle else t.wb }

/-- Writeback, from S2 to S3; S1 is needed only for B (R169). -/
def writeback (s1 s2 : State) : State :=
  { s2 with
    stations := s2.stations.mapIdx (wbStation s1 s2)
    reg := writeRegs (cdb s1 s2) s2.rstat s2.reg
    rstat := s2.rstat.map (clearTag (cdb s1 s2))
    ts := s2.ts.mapIdx (wbTime s1 s2)
    draws := s2.draws + 1 }

end Sys2Proof.Machine
end

