-- ==== Sys2Proof/Machine/Cycle.lean ====
section
/-! DEFINITION. One cycle: 43_cycle_and_interface.md R180, R181. The clock is advanced, then Issue, Execute and Writeback
run once each, in this order. -/

namespace Sys2Proof.Machine

/-- The part of a cycle after Issue: Execute, then Writeback, with B taken from S1 (R180). -/
def finishCycle (s1 : State) : State := writeback s1 (execute s1)

/-- A cycle whose head instruction is `i`, from the state at the edge to S3 (R180). -/
def issueCycle (i : Instr) (s : State) : State := finishCycle (issue i (advanceCycle s))

/-- A cycle with no head instruction: Issue writes nothing (R100, R180). -/
def drainCycle (s : State) : State := finishCycle (advanceCycle s)

/-- What every operation shares as the head of a cycle: its registers exist (R63, R9 WF1; log 14), and the cycle runs. -/
def runHead (i : Instr) (s : State) : Host.Outcome State Fault Refusal :=
  if i.wf s.cfg.r then .next (issueCycle i s) else .fault .registerIndexOutOfRange

end Sys2Proof.Machine
end

