-- ==== Sys2Proof/Machine/AddSub.lean ====
section
/-! DEFINITION. The meanings of ADD and SUB (41_execute.md R140, R141) as the head instruction of a cycle (log 1): issue
to the ADD partition with its operands resolved (40_issue.md R100 to R109), and the rest of the cycle. The function is
computed by Execute when the station's counter expires (R134), from the station's `op` (R137). -/

namespace Sys2Proof.Machine

/-- ADD Rd, Rs, Rt (R140). -/
def execAdd (rd rs rt : RegIx) (s : State) : Host.Outcome State Fault Refusal := runHead (.add rd rs rt) s

/-- SUB Rd, Rs, Rt (R141). -/
def execSub (rd rs rt : RegIx) (s : State) : Host.Outcome State Fault Refusal := runHead (.sub rd rs rt) s

end Sys2Proof.Machine
end

