-- ==== Sys2Proof/Machine/Div.lean ====
section
/-! DEFINITION. The meaning of DIV (41_execute.md R143, R147) as the head instruction of a cycle (log 1). A divisor of 0
is found when the counter expires, in Execute, and recorded in FAULT (60_exceptions.md R211, R214). -/

namespace Sys2Proof.Machine

/-- DIV Rd, Rs, Rt (R143, R147). -/
def execDiv (rd rs rt : RegIx) (s : State) : Host.Outcome State Fault Refusal := runHead (.div rd rs rt) s

end Sys2Proof.Machine
end

