-- ==== Sys2Proof/Machine/Mult.lean ====
section
/-! DEFINITION. The meaning of MULT (41_execute.md R142) as the head instruction of a cycle (log 1). -/

namespace Sys2Proof.Machine

/-- MULT Rd, Rs, Rt (R142). -/
def execMult (rd rs rt : RegIx) (s : State) : Host.Outcome State Fault Refusal := runHead (.mult rd rs rt) s

end Sys2Proof.Machine
end

