-- ==== Sys2Proof/Machine/Dispatch.lean ====
section
/-! DEFINITION. The meaning of each instruction of spec/opcode_table.json as the head instruction of a cycle. -/

namespace Sys2Proof.Machine

def exec (i : Instr) (s : State) : Host.Outcome State Fault Refusal :=
  match i with
  | .add rd rs rt => Sys2Proof.Machine.execAdd rd rs rt s
  | .sub rd rs rt => Sys2Proof.Machine.execSub rd rs rt s
  | .mult rd rs rt => Sys2Proof.Machine.execMult rd rs rt s
  | .div rd rs rt => Sys2Proof.Machine.execDiv rd rs rt s

end Sys2Proof.Machine
end

