-- ==== Sys2Proof/Machine/Admission.lean ====
section
/-! DEFINITION. The checks WF1 to WF6 of a configuration and program (00_scope.md R9) and CFG_ERR (60_exceptions.md
R210), evaluated when rst falls. -/

namespace Sys2Proof.Machine

/-- WF1: every register index of every instruction is less than R. -/
def wf1 (r : Nat) (p : List Decoded) : Bool :=
  p.all fun d =>
    match d with
    | .instr i => i.wf r
    | .illegal _ => true

/-- WF2: every word decodes to one of the four operations with its reserved bits 0 (log 11). -/
def wf2 (p : List Decoded) : Bool :=
  p.all fun d =>
    match d with
    | .instr _ => true
    | .illegal _ => false

/-- WF3: every latency is at least 1 (R9, R37). -/
def wf3 (c : Cfg) : Bool := decide (1 ≤ c.la ∧ 1 ≤ c.lm ∧ 1 ≤ c.ld)

/-- WF4: every class the program uses has at least one station. -/
def wf4 (c : Cfg) (p : List Decoded) : Bool :=
  p.all fun d =>
    match d with
    | .instr i => decide (1 ≤ stationCount c i.op.cls)
    | .illegal _ => true

/-- WF5: the register count is from 1 to 256 (R9, R37). -/
def wf5 (c : Cfg) : Bool := decide (1 ≤ c.r ∧ c.r ≤ 256)

/-- The sum of L(op) + 1 over the program (R9 WF6, R189). -/
def cycleBound (c : Cfg) (p : List Decoded) : Nat :=
  (p.map fun d =>
    match d with
    | .instr i => latency c i.op + 1
    | .illegal _ => 0).sum

/-- WF6 for a counter of cw bits: the cycle bound does not exceed the counter. -/
def wf6 (cw : Nat) (c : Cfg) (p : List Decoded) : Bool := decide (cycleBound c p ≤ 2 ^ cw - 1)

/-- CFG_ERR of a configuration and program, for a counter of cw bits: the lowest-numbered failing check (R210). -/
def checkConfig (cw : Nat) (c : Cfg) (p : List Decoded) : Option ConfigErr :=
  if !wf1 c.r p then some .registerIndex
  else if !wf2 p then some .operation
  else if !wf3 c then some .latency
  else if !wf4 c p then some .noStation
  else if !wf5 c then some .registerCount
  else if !wf6 cw c p then some .cycleBound
  else none

/-- The check result of the state's own configuration and program (R210). -/
def admission (s : State) : Option ConfigErr := checkConfig cycleWidth s.cfg (program s)

end Sys2Proof.Machine
end

