-- ==== Sys2Proof/Machine/Driver.lean ====
section
/-! DEFINITION. What a rising edge of `clk` does: 43_cycle_and_interface.md R182, R183; the priority of 60_exceptions.md
R217; the fall of rst (70_reset_and_hazards.md R240). -/

namespace Sys2Proof.Machine

/-- The first edge with rst = 0 evaluates WF1 to WF6 into CFG_ERR; later edges leave it (R210, R240). -/
def releaseReset (s : State) : State :=
  if s.inReset then { s with cfgErr := admission s, inReset := false } else s

/-- What an edge does. -/
inductive EdgeAction where
  /-- rst = 1 -/
  | reset
  /-- no cycle runs and the state given is kept -/
  | hold (s : State)
  /-- the cycle cap is reached in the state given, and no cycle runs -/
  | cap (s : State)
  /-- a cycle runs from the state given -/
  | cycle (s : State)
  deriving DecidableEq, Repr

/-- The priority at an edge, highest first: rst, CFG_ERR, HALTED, en = 0, the cap, a cycle (R182, R183, R217). -/
def edgeAction (s : State) : EdgeAction :=
  if s.pins.rst then .reset
  else
    let s1 := releaseReset s
    if s1.cfgErr.isSome then .hold s1
    else if halted s1 then .hold s1
    else if !s1.pins.en then .hold s1
    else if capReached s1 then .cap s1
    else .cycle s1

end Sys2Proof.Machine
end

