-- ==== Sys2Proof/Machine/Step.lean ====
section
/-! DEFINITION. One step is one rising edge of `clk` with the levels of `pins` (43_cycle_and_interface.md R180, R182;
log 1, log 2). -/

namespace Sys2Proof.Machine

/-- A cycle: the head instruction, if there is one, is run by `exec`; with none the cycle drains (R100, R180). -/
def runCycle (s : State) : Host.Outcome State Fault Refusal :=
  match headSlot s with
  | none => .next (drainCycle s)
  | some (.instr i) => exec i s
  | some (.illegal why) => .refused (.illegalWord why)

/-- One rising edge of `clk` (R182, R217). -/
def step (s : State) : Host.Outcome State Fault Refusal :=
  match edgeAction s with
  | .reset => .next (resetEdge s)
  | .hold s1 => .next s1
  | .cap s1 => .next (raiseFault (.cycleCapExceeded s1.cycle) s1)
  | .cycle s1 => runCycle s1

/-- The word stored where step takes its next instruction: PROG[NEXT] decodes it, N and TS reach past it, and rst and en
let a cycle run (log 8). It stands for the host's load through the `prog_*` port (R241). -/
def State.withFetchWord (s : State) (nbits w : Nat) : State :=
  { s with
    prog := setCell s.prog s.next (decodeWord (BitVec.ofNat 32 (w % 2 ^ nbits)))
    cfg := { s.cfg with n := max s.cfg.n (s.next + 1) }
    ts := s.ts ++ List.replicate (s.next + 1 - s.ts.length) {}
    pins := { s.pins with rst := false, en := true } }

end Sys2Proof.Machine
end

