-- ==== Sys2Proof/Machine/Assembler.lean ====
section
/-! DEFINITION. The assembler syntax of 30_encoding.md R87: a mnemonic and an algebraic form of each instruction, both
denoting the same record. A line is a list of characters; log 22 says where spaces stand. -/

namespace Sys2Proof.Machine

/-- A decimal digit as a character. -/
def digitChar (d : Nat) : Char := Char.ofNat (48 + d)

/-- A register index in decimal, no leading zeros (R87). -/
def indexChars (n : Nat) : List Char :=
  if n < 10 then [digitChar n]
  else if n < 100 then [digitChar (n / 10), digitChar (n % 10)]
  else [digitChar (n / 100), digitChar (n / 10 % 10), digitChar (n % 10)]

/-- A register name: `R` and its index (R87). -/
def regChars (i : RegIx) : List Char := 'R' :: indexChars i.toNat

/-- The mnemonic, upper case (R87). -/
def Op.mnemonic : Op → List Char
  | .add => ['A', 'D', 'D']
  | .sub => ['S', 'U', 'B']
  | .mult => ['M', 'U', 'L', 'T']
  | .div => ['D', 'I', 'V']

/-- The operator of the algebraic form (R87). -/
def Op.symbol : Op → Char
  | .add => '+'
  | .sub => '-'
  | .mult => '*'
  | .div => '/'

/-- `OP Rd, Rs, Rt` (R87). -/
def mnemonicLine (i : Instr) : List Char :=
  Op.mnemonic i.op ++ ' ' :: regChars i.rd ++ ',' :: ' ' :: regChars i.rs ++ ',' :: ' ' :: regChars i.rt

/-- `Rd=Rs+Rt` with the operator of the operation (R87). -/
def algebraicLine (i : Instr) : List Char :=
  regChars i.rd ++ '=' :: regChars i.rs ++ Op.symbol i.op :: regChars i.rt

/-- The value of a digit character. -/
def digitValue (c : Char) : Option Nat :=
  if 48 ≤ c.toNat ∧ c.toNat ≤ 57 then some (c.toNat - 48) else none

/-- The leading digits of a line and the rest. -/
def takeDigits : List Char → List Nat × List Char
  | [] => ([], [])
  | c :: cs =>
    match digitValue c with
    | some d => (d :: (takeDigits cs).1, (takeDigits cs).2)
    | none => ([], c :: cs)

/-- The register index of a digit list: decimal, no leading zeros, at most 255 (R82, R87). -/
def readIndex : List Nat → Option RegIx
  | [] => none
  | [d] => some (BitVec.ofNat 8 d)
  | 0 :: _ => none
  | ds =>
    let v := ds.foldl (fun n d => 10 * n + d) 0
    if v < 256 then some (BitVec.ofNat 8 v) else none

/-- A register name at the head of a line. -/
def readReg? : List Char → Option (RegIx × List Char)
  | 'R' :: cs => (readIndex (takeDigits cs).1).map fun i => (i, (takeDigits cs).2)
  | _ => none

/-- The line after a literal prefix. -/
def dropPrefix : List Char → List Char → Option (List Char)
  | [], cs => some cs
  | p :: ps, c :: cs => if p = c then dropPrefix ps cs else none
  | _ :: _, [] => none

/-- The operation whose mnemonic and a space start the line. -/
def readMnemonic (line : List Char) : Option (Op × List Char) :=
  [Op.add, Op.sub, Op.mult, Op.div].findSome? fun op =>
    (dropPrefix (Op.mnemonic op ++ [' ']) line).map fun rest => (op, rest)

/-- The operation of an operator character. -/
def readSymbol (c : Char) : Option Op :=
  [Op.add, Op.sub, Op.mult, Op.div].find? fun op => Op.symbol op == c

/-- The mnemonic form. -/
def readMnemonicLine (line : List Char) : Option Instr :=
  match readMnemonic line with
  | none => none
  | some (op, l0) =>
    match readReg? l0 with
    | none => none
    | some (rd, l1) =>
      match (dropPrefix [',', ' '] l1).bind readReg? with
      | none => none
      | some (rs, l2) =>
        match (dropPrefix [',', ' '] l2).bind readReg? with
        | some (rt, []) => some (.ofRecord op rd rs rt)
        | _ => none

/-- The algebraic form. -/
def readAlgebraicLine (line : List Char) : Option Instr :=
  match readReg? line with
  | none => none
  | some (rd, l0) =>
    match (dropPrefix ['='] l0).bind readReg? with
    | some (rs, c :: l1) =>
      match readSymbol c, readReg? l1 with
      | some op, some (rt, []) => some (.ofRecord op rd rs rt)
      | _, _ => none
    | _ => none

/-- One line of a program for a machine of R registers, in either form (R87). -/
def assembleLine (r : Nat) (line : List Char) : Option Instr :=
  match (readMnemonicLine line).or (readAlgebraicLine line) with
  | some i => if i.wf r then some i else none
  | none => none

/-- A program: a list of lines in issue order, the first at index 0 (R87). -/
def assemble (r : Nat) (lines : List (List Char)) : Option (List Instr) := lines.mapM (assembleLine r)

end Sys2Proof.Machine
end

