-- ==== Sys2Proof/Machine/Interface.lean ====
section
/-! DEFINITION. What the outside sees: the output pins and the snapshot read ports (43_cycle_and_interface.md R184, R185;
10_state.md R39), and the host driving the input pins (R186). Reading has no side effect: every port is a function of
State. -/

namespace Sys2Proof.Machine

/-- The host drives the input pins before the next edge (R186). -/
def drive (p : Pins) (s : State) : State := { s with pins := p }

/-- `cfg_la`, LW bits (R185). -/
def CfgPins.laLine (p : CfgPins) : BitVec p.toCfg.latWidth := BitVec.ofNat _ p.la

/-- `cfg_lm`, LW bits (R185). -/
def CfgPins.lmLine (p : CfgPins) : BitVec p.toCfg.latWidth := BitVec.ofNat _ p.lm

/-- `cfg_ld`, LW bits (R185). -/
def CfgPins.ldLine (p : CfgPins) : BitVec p.toCfg.latWidth := BitVec.ofNat _ p.ld

/-- `cfg_n`, IW+1 bits (R185). -/
def CfgPins.nLine (p : CfgPins) : BitVec (p.toCfg.instWidth + 1) := BitVec.ofNat _ p.n

/-- The output pins (R185), for station indices of TW bits and instruction indices of IW bits (R8). A part of FAULT that
the record does not have is `none` (log 23). -/
structure Outputs (tw iw : Nat) where
  done : Bool
  halted : Bool
  cfgErr : BitVec 3
  faultValid : Bool
  faultCode : BitVec 2
  faultInst : Option (BitVec iw)
  faultStation : Option (BitVec tw)
  faultCycle : Option CycleNo
  cycle : CycleNo
  next : BitVec (iw + 1)
  deriving DecidableEq, Repr

/-- `fault_inst` (R185, R211). -/
def faultInst : Option FaultRecord → Option Nat
  | some (.divideByZero k _ _) => some k
  | _ => none

/-- `fault_station` (R185, R211). -/
def faultStation : Option FaultRecord → Option Nat
  | some (.divideByZero _ r _) => some r
  | _ => none

/-- `fault_cycle` (R185, R211). -/
def faultCycle : Option FaultRecord → Option CycleNo
  | some (.divideByZero _ _ c) => some c
  | some (.cycleCapExceeded c) => some c
  | _ => none

/-- The output pins of a state (R185): `halted` is HALTED or CFG_ERR ≠ none. -/
def outputs (s : State) : Outputs s.cfg.tagWidth s.cfg.instWidth :=
  { done := done s
    halted := halted s || s.cfgErr.isSome
    cfgErr := cfgErrCode s.cfgErr
    faultValid := s.fault.isSome
    faultCode := faultCode s.fault
    faultInst := (faultInst s.fault).map (BitVec.ofNat _)
    faultStation := (faultStation s.fault).map (BitVec.ofNat _)
    faultCycle := faultCycle s.fault
    cycle := s.cycle
    next := BitVec.ofNat _ s.next }

/-- `snap_reg_addr` to `snap_reg_data`: the registers are R0 to R(R−1) (R22, R185). -/
def snapReg (s : State) (i : RegIx) : Option Word :=
  if i.toNat < s.cfg.r then s.reg[i.toNat]? else none

/-- `snap_reg_addr` to `snap_rstat`, TW+1 bits (R24, R185). -/
def snapRstat (s : State) (i : RegIx) : Option (BitVec (s.cfg.tagWidth + 1)) :=
  (s.rstat[i.toNat]?).map (tagBits s.cfg.tagWidth)

/-- The fields a station read port shows, in their hardware widths: `op` and the tags encoded, `lat` of LW and `inst` of IW
bits (R8, R24, R26, R83, R185). -/
structure StationView (tw lw iw : Nat) where
  busy : Bool
  op : BitVec 2
  vj : Word
  vk : Word
  qj : BitVec (tw + 1)
  qk : BitVec (tw + 1)
  lat : BitVec lw
  result : Word
  ready : Bool
  inst : BitVec iw
  deriving DecidableEq, Repr

/-- `snap_rs_addr` (TW bits) to `snap_rs_*` (R185). -/
def snapStation (s : State) (r : BitVec s.cfg.tagWidth) :
    Option (StationView s.cfg.tagWidth s.cfg.latWidth s.cfg.instWidth) :=
  (s.stations[r.toNat]?).map fun st =>
    { busy := st.busy
      op := st.op.code
      vj := st.vj
      vk := st.vk
      qj := tagBits s.cfg.tagWidth st.qj
      qk := tagBits s.cfg.tagWidth st.qk
      lat := BitVec.ofNat _ st.lat
      result := st.result
      ready := st.ready
      inst := BitVec.ofNat _ st.inst }

/-- `snap_ts_addr` (IW bits) to `snap_ts_*`: four fields, each with its valid bit (R185). -/
def snapTime (s : State) (k : BitVec s.cfg.instWidth) : Option TimeRec := s.ts[k.toNat]?

end Sys2Proof.Machine
end

