-- ==== Sys2Proof/Safety.lean ====
section
/-! DEFINITION. The terms claims use: how a run ends (43_cycle_and_interface.md R188), the sequential reading of a
program (70_reset_and_hazards.md R248), the invariants of 10_state.md R40, the timing of 70_reset_and_hazards.md R249, and
the parts of a state that rules read (R187). -/

namespace Sys2Proof.Machine

/-- How a run stands at a cycle boundary (R188). -/
inductive RunStatus where
  | running
  | completed
  | faulted
  | refused
  deriving DecidableEq, Repr

/-- Refused if CFG_ERR ≠ none, faulted if FAULT ≠ none, completed if DONE holds and FAULT = none (R188). The boundary at
the end of reset, where CFG_ERR is not evaluated yet, is classed by the same lines: with N = 0 it reads as completed
there, also when a check fails at the release and the run is then refused (DESIGN CHOICE, log 26). -/
def runStatus (s : State) : RunStatus :=
  if s.cfgErr.isSome then .refused
  else if s.fault.isSome then .faulted
  else if done s then .completed
  else .running

/-- `n` edges with the pins as they stand, up to the first stop. -/
def run : Nat → State → Host.Outcome State Fault Refusal
  | 0, s => .next s
  | n + 1, s =>
    match step s with
    | .next t => run n t
    | .fault f => .fault f
    | .refused r => .refused r

/-- One instruction of the sequential reading: `REG[rd] <- f_op(REG[rs], REG[rt])` (R248). A division by zero, which no
completed run has, leaves the registers. -/
def seqInstr (reg : List Word) (i : Instr) : List Word :=
  match fOp i.op (reg[i.rs.toNat]?.getD 0) (reg[i.rt.toNat]?.getD 0) with
  | some v => reg.set i.rd.toNat v
  | none => reg

/-- The in-order sequential reading of a program on a register file (R248). -/
def seqRun (reg : List Word) (p : List Decoded) : List Word :=
  p.foldl (fun rg d =>
    match d with
    | .instr i => seqInstr rg i
    | .illegal _ => rg) reg

/-- The state at the end of the boot sequence (R240, R241): reset holds at the last edge, every element has its reset
value, the configuration and program are admitted, and the host lets CORE run without a cap. REG, PROG and CFG are
whatever the host loaded. -/
structure Booted (s : State) : Prop where
  inReset : s.inReset = true
  cfgErr : s.cfgErr = none
  admitted : admission s = none
  reg : s.reg.length = 256
  rstat : s.rstat = List.replicate s.cfg.r none
  pool : s.stations.length = s.cfg.nrs
  free : ∀ st ∈ s.stations, st.busy = false ∧ st.ready = false ∧ st.lat = 0 ∧ st.qj = none ∧ st.qk = none
  next : s.next = 0
  ts : s.ts = List.replicate s.cfg.n {}
  cycle : s.cycle = 0
  fault : s.fault = none
  noCap : s.cfg.maxCycles = none
  running : s.pins.rst = false ∧ s.pins.en = true

/-- Station r exists and its fields are `st`. -/
abbrev stationIs (s : State) (r : Nat) (st : Station) : Prop := s.stations[r]? = some st

/-- Station r holds an instruction, and its fields are `st`. -/
abbrev occupied (s : State) (r : Nat) (st : Station) : Prop := stationIs s r st ∧ st.busy = true

/-- Instruction k exists and its timestamps are `t`. -/
abbrev timeIs (s : State) (k : Nat) (t : TimeRec) : Prop := s.ts[k]? = some t

/-- Register i is mapped to station r. -/
abbrev mapped (s : State) (i r : Nat) : Prop := s.rstat[i]? = some (some r)

/-- The FAULT register holds a DivideByZero record. -/
def dividedByZero (s : State) : Prop := ∃ k r c, s.fault = some (.divideByZero k r c)

/-- The sizes of REG's store, RSTAT, RS and TS, NEXT ≤ N (R21, R23, R25, R31, R32), and a CFG_ERR that is none in reset
and the result of the checks from its release on (R37). -/
structure Sized (s : State) : Prop where
  reg : s.reg.length = 256
  rstat : s.rstat.length = s.cfg.r
  pool : s.stations.length = s.cfg.nrs
  ts : s.ts.length = s.cfg.n
  next : s.next ≤ s.cfg.n
  checked : s.inReset = false → s.cfgErr = admission s
  unchecked : s.inReset = true → s.cfgErr = none

/-- The invariants of R40 with the sizes they rest on. INV13 is R36 itself. INV12 excepts every DIV whose counter expired
with divisor 0, not only the one FAULT names (R214; log 15). -/
structure Inv (s : State) : Prop where
  sized : Sized s
  /-- INV1: a tag in RSTAT, Qj or Qk names a busy station -/
  inv1Rstat : ∀ i r, mapped s i r → ∃ st, occupied s r st
  inv1Qj : ∀ a sa r, stationIs s a sa → sa.qj = some r → ∃ st, occupied s r st
  inv1Qk : ∀ a sa r, stationIs s a sa → sa.qk = some r → ∃ st, occupied s r st
  /-- INV2: the instruction of the station a register is mapped to writes that register -/
  inv2 : ∀ i r st, mapped s i r → stationIs s r st → ∃ ins, progAt s st.inst = .instr ins ∧ ins.rd.toNat = i
  /-- INV3: at most one register is mapped to a station -/
  inv3 : ∀ i j r, mapped s i r → mapped s j r → i = j
  /-- INV4: busy stations hold distinct instructions -/
  inv4 : ∀ a b sa sb, occupied s a sa → occupied s b sb → sa.inst = sb.inst → a = b
  /-- INV5: the instruction of a busy station has issued, has not retired, and is of the station's class and `op` -/
  inv5Next : ∀ r st, occupied s r st → st.inst < s.next
  inv5Time : ∀ r st, occupied s r st → ∃ t, timeIs s st.inst t ∧ t.issue ≠ none ∧ t.wb = none
  inv5Op : ∀ r st, occupied s r st →
    ∃ ins, progAt s st.inst = .instr ins ∧ st.op = ins.op ∧ classOf s.cfg r = some ins.op.cls
  /-- INV6: a producer is an older instruction than its consumer -/
  inv6Qj : ∀ a sa p sp, occupied s a sa → sa.qj = some p → stationIs s p sp → sp.inst < sa.inst
  inv6Qk : ∀ a sa p sp, occupied s a sa → sa.qk = some p → stationIs s p sp → sp.inst < sa.inst
  /-- INV7: a ready station is busy, has its operands, a counter of 0, and an execute-end timestamp -/
  inv7 : ∀ r st, stationIs s r st → st.ready = true →
    st.busy = true ∧ st.qj = none ∧ st.qk = none ∧ st.lat = 0
  inv7Time : ∀ r st, stationIs s r st → st.ready = true → ∃ t, timeIs s st.inst t ∧ t.eend ≠ none
  /-- INV8: a waiting station has not begun -/
  inv8 : ∀ r st, occupied s r st → st.qj ≠ none ∨ st.qk ≠ none →
    st.lat = 0 ∧ ∃ t, timeIs s st.inst t ∧ t.ebegin = none
  /-- INV9: the latency counter stays below the latency -/
  inv9 : ∀ r st, occupied s r st → st.lat < latency s.cfg st.op
  /-- INV10: no timestamp from NEXT on, an issue timestamp before it -/
  inv10After : ∀ k t, s.next ≤ k → timeIs s k t → t = {}
  inv10Before : ∀ k t, k < s.next → timeIs s k t → t.issue ≠ none
  /-- INV11: the values of a free station (R29) -/
  inv11 : ∀ r st, stationIs s r st → st.busy = false →
    st.ready = false ∧ st.lat = 0 ∧ st.qj = none ∧ st.qk = none
  /-- INV12: with its operands there and no result, the counter is 0 exactly before execute-begin -/
  inv12 : ∀ r st t, occupied s r st → st.qj = none → st.qk = none → st.ready = false → timeIs s st.inst t →
    (st.lat = 0 ↔ t.ebegin = none) ∨ (s.cfg.ld = 1 ∧ dividedByZero s ∧ st.op = .div ∧ st.vk.toNat = 0)
  /-- every issued instruction that has not retired is in a station (R28, R35) -/
  inFlight : ∀ k t, k < s.next → timeIs s k t → t.wb = none → ∃ r st, occupied s r st ∧ st.inst = k

/-- `i` is the head instruction of an admitted program, and no fault has been recorded: the states from which Issue tries
`i` (R9, R100, R182). -/
structure AtHead (i : Instr) (s : State) : Prop where
  inv : Inv s
  admitted : admission s = none
  inProgram : s.next < s.cfg.n
  head : progAt s s.next = .instr i
  noFault : s.fault = none

/-- Every instruction of an admitted program has issued and no fault has been recorded: the states from which a cycle has
no head instruction (R100, R182). -/
structure Draining (s : State) : Prop where
  inv : Inv s
  admitted : admission s = none
  allIssued : s.next = s.cfg.n
  noFault : s.fault = none

/-- What a DivideByZero record says is so: its station is busy with the DIV it names, which has its operands, divisor 0
and no result; the instruction has begun and neither ended nor retired; the record's cycle is the current one, since no
cycle runs after it; DONE is false (R147, R213). -/
def FaultRecordTrue (s : State) : Prop :=
  ∀ k r c, s.fault = some (.divideByZero k r c) →
    (∃ st, occupied s r st ∧ st.inst = k ∧ st.op = .div ∧ st.ready = false ∧ st.qj = none ∧ st.qk = none ∧
      st.vk.toNat = 0) ∧
    (∃ tm, timeIs s k tm ∧ tm.ebegin ≠ none ∧ tm.eend = none ∧ tm.wb = none) ∧ c = s.cycle ∧ done s = false

/-- The registers after the first k instructions of the sequential reading from `reg0` (R248). -/
def seqUpTo (reg0 : List Word) (s : State) (k : Nat) : List Word := seqRun reg0 ((program s).take k)

/-- How the machine stands to the sequential reading of its program from `reg0` (R244, R245, R246, R248): a register that
no station is to write holds its value of the reading up to NEXT; a mapped register's is the one its station's
instruction leaves; a station's operand is the value before its instruction, or waits for the instruction that leaves it;
a ready result is the value its instruction leaves. -/
structure Simulates (reg0 : List Word) (s : State) : Prop where
  size : reg0.length = 256
  settled : ∀ i, (∀ r, ¬ mapped s i r) → s.reg[i]? = (seqUpTo reg0 s s.next)[i]?
  pending : ∀ i r st, mapped s i r → stationIs s r st →
    (seqUpTo reg0 s (st.inst + 1))[i]? = (seqUpTo reg0 s s.next)[i]?
  valueJ : ∀ a st i, occupied s a st → progAt s st.inst = .instr i → st.qj = none →
    (seqUpTo reg0 s st.inst)[i.rs.toNat]? = some st.vj
  valueK : ∀ a st i, occupied s a st → progAt s st.inst = .instr i → st.qk = none →
    (seqUpTo reg0 s st.inst)[i.rt.toNat]? = some st.vk
  waitJ : ∀ a st i p sp, occupied s a st → progAt s st.inst = .instr i → st.qj = some p → stationIs s p sp →
    (∃ j, progAt s sp.inst = .instr j ∧ j.rd = i.rs) ∧
      (seqUpTo reg0 s (sp.inst + 1))[i.rs.toNat]? = (seqUpTo reg0 s st.inst)[i.rs.toNat]?
  waitK : ∀ a st i p sp, occupied s a st → progAt s st.inst = .instr i → st.qk = some p → stationIs s p sp →
    (∃ j, progAt s sp.inst = .instr j ∧ j.rd = i.rt) ∧
      (seqUpTo reg0 s (sp.inst + 1))[i.rt.toNat]? = (seqUpTo reg0 s st.inst)[i.rt.toNat]?
  result : ∀ r st i, stationIs s r st → st.ready = true → progAt s st.inst = .instr i →
    (seqUpTo reg0 s (st.inst + 1))[i.rd.toNat]? = some st.result

/-- INV12 with the one exception R40 gives it, word for word: the station a DivideByZero fault names, when LD = 1. -/
def Inv12AsWritten (s : State) : Prop :=
  ∀ r st t, occupied s r st → st.qj = none → st.qk = none → st.ready = false → timeIs s st.inst t →
    (st.lat = 0 ↔ t.ebegin = none) ∨ (s.cfg.ld = 1 ∧ ∃ k c, s.fault = some (.divideByZero k r c))

/-- The timing of R249 at a cycle boundary, with cycle numbers modulo 2^CW (log 19): E = B + L − 1 and T = E + 1 for the
instructions that have them; a running counter has counted every cycle from B; a ready result was completed in the
cycle just ended (R160). -/
structure Timing (s : State) : Prop where
  span : ∀ k t ins e, timeIs s k t → progAt s k = .instr ins → t.eend = some e →
    ∃ b, t.ebegin = some b ∧ e + 1 = b + BitVec.ofNat 32 (latency s.cfg ins.op)
  retired : ∀ k t w, timeIs s k t → t.wb = some w → ∃ e, t.eend = some e ∧ w = e + 1
  counting : ∀ r st t b, occupied s r st → st.ready = false → timeIs s st.inst t → t.ebegin = some b →
    s.fault = none → b + BitVec.ofNat 32 st.lat = s.cycle + 1
  noEnd : ∀ r st t, occupied s r st → st.ready = false → timeIs s st.inst t → t.eend = none
  fresh : ∀ r st t, occupied s r st → st.ready = true → timeIs s st.inst t → t.eend = some s.cycle

/-- The order of the timestamps, as unsigned numbers: none lies after CYCLE; issue ≤ execute-begin ≤ execute-end <
writeback for each instruction (R249); issue cycles rise strictly with the program index (R110). -/
structure Ordered (s : State) : Prop where
  past : ∀ k t c, timeIs s k t → t.issue = some c ∨ t.ebegin = some c ∨ t.eend = some c ∨ t.wb = some c →
    c.toNat ≤ s.cycle.toNat
  begins : ∀ k t b, timeIs s k t → t.ebegin = some b → ∃ i, t.issue = some i ∧ i.toNat ≤ b.toNat
  ends : ∀ k t e, timeIs s k t → t.eend = some e → ∃ b, t.ebegin = some b ∧ b.toNat ≤ e.toNat
  retires : ∀ k t w, timeIs s k t → t.wb = some w → ∃ e, t.eend = some e ∧ e.toNat < w.toNat
  inOrder : ∀ j k tj tk cj ck, j < k → timeIs s j tj → timeIs s k tk → tj.issue = some cj →
    tk.issue = some ck → cj.toNat < ck.toNat

/-- The state before the last instruction of a program, with everything before it retired: CORE runs without a cap, every
station is free (R29) and the head instruction is `ins`, all of whose registers exist. -/
structure LastAlone (ins : Instr) (s : State) : Prop where
  running : s.pins.rst = false ∧ s.pins.en = true ∧ s.inReset = false ∧ s.cfgErr = none
  noFault : s.fault = none ∧ s.cfg.maxCycles = none
  reg : s.reg.length = 256
  rstat : s.rstat = List.replicate s.cfg.r none
  pool : s.stations.length = s.cfg.nrs
  free : ∀ st ∈ s.stations, st.busy = false ∧ st.ready = false ∧ st.lat = 0 ∧ st.qj = none ∧ st.qk = none
  last : s.next + 1 = s.cfg.n
  ts : s.ts.length = s.cfg.n
  retired : ∀ k t, k < s.next → timeIs s k t → t.wb ≠ none
  head : progAt s s.next = .instr ins ∧ s.ts[s.next]? = some {}
  wf : ins.wf s.cfg.r = true
  latency : 1 ≤ latency s.cfg ins.op
  station : 1 ≤ stationCount s.cfg ins.op.cls

/-- Two stations agree on every field the rules may read: all but the unspecified ones of R27 and R29. -/
structure SameStation (a b : Station) : Prop where
  busy : a.busy = b.busy
  ready : a.ready = b.ready
  lat : a.lat = b.lat
  qj : a.qj = b.qj
  qk : a.qk = b.qk
  op : a.busy = true → a.op = b.op
  inst : a.busy = true → a.inst = b.inst
  vj : a.busy = true → a.qj = none → a.vj = b.vj
  vk : a.busy = true → a.qk = none → a.vk = b.vk
  result : a.ready = true → a.result = b.result

/-- Two states agree on everything but the unspecified station fields and the count of free values (R187). -/
structure SameButUnspecified (s t : State) : Prop where
  reg : s.reg = t.reg
  rstat : s.rstat = t.rstat
  pool : s.stations.length = t.stations.length
  station : ∀ r a b, stationIs s r a → stationIs t r b → SameStation a b
  prog : s.prog = t.prog
  next : s.next = t.next
  ts : s.ts = t.ts
  cycle : s.cycle = t.cycle
  fault : s.fault = t.fault
  cfg : s.cfg = t.cfg
  cfgErr : s.cfgErr = t.cfgErr
  inReset : s.inReset = t.inReset
  pins : s.pins = t.pins

end Sys2Proof.Machine
end

