-- ==== Sys2Proof/Certificates/Slice0/Obligations.lean ====
section
/-! DEFINITION. The statements for the provers. Each docstring names the rules of spec/ the statement comes from; a
clause that rests on a choice of the model names its log entry. -/

open Sys2Proof Sys2Proof.Machine

/-! ### Encoding -/

/-- The decoder reads back every operand of an encoded instruction at every value (R82, R83, R84), and for R registers
exactly when its registers exist (R85). -/
def Obligations.EncodedInstructionDecodesBack : Prop :=
  ∀ i : Instr, decodeWord (encode i) = .instr i ∧
    ∀ r, decode r (encode i) = if i.wf r then .instr i else .illegal .registerRange

/-- A legal word is the encoding of the instruction it decodes to, whose registers exist (R82, R83, R85). -/
def Obligations.LegalWordIsTheEncodingOfItsInstruction : Prop :=
  ∀ (r : Nat) (w : InstrWord) (i : Instr), decode r w = .instr i → encode i = w ∧ i.wf r = true

/-- A word is illegal exactly when one of (a), (b), (c) of R85 holds, with the fields of R82 cut out of its unsigned
value; a program that holds one is refused with code 1 or 2 (R85, R210). -/
def Obligations.IllegalWordsAreRefused : Prop :=
  (∀ (r : Nat) (w : InstrWord),
    (∃ why, decode r w = .illegal why) ↔
      4 ≤ w.toNat / 2 ^ 28 ∨ w.toNat / 2 ^ 24 % 2 ^ 4 ≠ 0 ∨
        r ≤ w.toNat / 2 ^ 16 % 2 ^ 8 ∨ r ≤ w.toNat / 2 ^ 8 % 2 ^ 8 ∨ r ≤ w.toNat % 2 ^ 8) ∧
  ∀ (cw : Nat) (c : Cfg) (ws : List InstrWord) (w : InstrWord) (why : Illegal), w ∈ ws →
    decode c.r w = .illegal why →
      checkConfig cw c (ws.map decodeWord) = some .registerIndex ∨
        checkConfig cw c (ws.map decodeWord) = some .operation

/-- Words written out from R82 and R83, with 8 registers. -/
def Obligations.SampleWordsDecode : Prop :=
  decode 8 0b00000000000001000000000100000101#32 = .instr (.add 4 1 5) ∧
  decode 8 0b00010000000001010000010000000011#32 = .instr (.sub 5 4 3) ∧
  decode 8 0b00100000000001100000001000000010#32 = .instr (.mult 6 2 2) ∧
  decode 8 0b00110000000001000000000100000010#32 = .instr (.div 4 1 2) ∧
  decode 8 0b01000000000000010000001000000011#32 = .illegal .operation ∧
  decode 8 0b00110001000001110000000000000000#32 = .illegal .reservedBits ∧
  decode 8 0b00000000000010000000000100000010#32 = .illegal .registerRange

/-- A station's 2-bit `op` code is `op[29:28]` of its instruction's word, and tells the operations apart (R83). -/
def Obligations.StationCodeIsTheWordsOpBits : Prop :=
  (∀ (w : InstrWord) (i : Instr), decodeWord w = .instr i → i.op.code = w.extractLsb' 28 2) ∧
    ∀ op : Op, Op.ofCode op.code = op

/-- In hardware a tag is TW+1 bits, valid bit on top, then the station index; `none` is all zeros; no station's tag is
taken for `none` or for another station's (R24, R8). -/
def Obligations.TagBitsNameOneStation : Prop :=
  ∀ (c : Cfg) (r q : Nat), r < c.nrs → q < c.nrs →
    tagBits c.tagWidth none = 0 ∧
    (tagBits c.tagWidth (some r)).toNat = 2 ^ c.tagWidth + r ∧
    tagBits c.tagWidth (some r) ≠ tagBits c.tagWidth none ∧
    (tagBits c.tagWidth (some r) = tagBits c.tagWidth (some q) ↔ r = q)

/-- Both assembler forms of an instruction denote its record, for every index of every register (R87; the spaces are
log 22's). -/
def Obligations.BothAssemblerFormsDenoteTheRecord : Prop :=
  ∀ (r : Nat) (i : Instr), i.wf r = true →
    assembleLine r (mnemonicLine i) = some i ∧ assembleLine r (algebraicLine i) = some i

/-! ### The four functions -/

/-- Sum, difference and product are those of the unsigned readings modulo 2^W too: nothing saturates (R140, R141, R142,
R145). -/
def Obligations.SumDifferenceAndProductWrap : Prop :=
  ∀ a b : Word,
    fOp .add a b = some (BitVec.ofNat 32 (a.toNat + b.toNat)) ∧
    fOp .sub a b = some (BitVec.ofNat 32 (a.toNat + (2 ^ 32 - b.toNat))) ∧
    fOp .mult a b = some (BitVec.ofNat 32 (a.toNat * b.toNat))

/-- The quotient is truncated toward zero: what remains is smaller than the divisor and has the dividend's sign, except
that −2^31 / −1 wraps to 0x80000000 (R143, R146). -/
def Obligations.QuotientIsTruncatedTowardZero : Prop :=
  ∀ a b : Word, b ≠ 0#32 → ∃ q, fOp .div a b = some q ∧
    if a = 0x80000000#32 ∧ b = 0xFFFFFFFF#32 then q = 0x80000000#32
    else ∃ m : Int, a.toInt = q.toInt * b.toInt + m ∧ m.natAbs < b.toInt.natAbs ∧
      (m = 0 ∨ m.sign = a.toInt.sign)

/-- The only operation and operands without a result are DIV with divisor 0 (R147, R211). -/
def Obligations.OnlyDivisionByZeroHasNoResult : Prop :=
  ∀ (op : Op) (a b : Word), fOp op a b = none ↔ op = .div ∧ b.toNat = 0

/-! ### Issue -/

/-- The arbiter gives the lowest-indexed free station of the class, and none exactly when no station of it is free
(R101, R102). -/
def Obligations.ArbiterTakesTheLowestFreeStation : Prop :=
  ∀ (s : State) (k : OpClass),
    (∀ r, arbiter s k = some r ↔
      classOf s.cfg r = some k ∧ isFree s r = true ∧ ∀ a, a < r → classOf s.cfg a = some k → isFree s a = false) ∧
    (arbiter s k = none ↔ ∀ r, classOf s.cfg r = some k → isFree s r = false)

/-- On admission each operand is the source register's value if it has no pending producer, else the producer's tag;
both are read before the rename, and never give the station's own tag (R104, R105). That the value slot of a waiting
operand keeps what it held is the model's reading of "not written" (log 7; R27 calls the value not meaningful). -/
def Obligations.OperandsAreResolvedBeforeTheRename : Prop :=
  ∀ (i : Instr) (s : State) (r : Nat) (st : Station), Inv s → s.next < s.cfg.n → arbiter s i.op.cls = some r →
    stationIs s r st → ∃ u, stationIs (issue i s) r u ∧
      (match readStat s i.rs with
        | none => u.vj = readReg s i.rs ∧ u.qj = none
        | some p => u.vj = st.vj ∧ u.qj = some p ∧ p ≠ r) ∧
      (match readStat s i.rt with
        | none => u.vk = readReg s i.rt ∧ u.qk = none
        | some p => u.vk = st.vk ∧ u.qk = some p ∧ p ≠ r)

/-- What else admission writes: the station's `busy`, `op` and `inst`; the destination's status entry; the issue
timestamp; NEXT. It writes nothing else: not REG, not `lat`, `ready` and `result`, no other station, no other entry
(R106, R107, R108, R109). -/
def Obligations.AdmissionRenamesTheDestination : Prop :=
  ∀ (i : Instr) (s : State) (r : Nat) (st : Station), s.next < s.cfg.n → arbiter s i.op.cls = some r →
    stationIs s r st →
      (∃ u, stationIs (issue i s) r u ∧ u.busy = true ∧ u.op = i.op ∧ u.inst = s.next ∧ u.lat = st.lat ∧
        u.ready = st.ready ∧ u.result = st.result) ∧
      (∀ a, a ≠ r → (issue i s).stations[a]? = s.stations[a]?) ∧
      (issue i s).rstat = s.rstat.set i.rd.toNat (some r) ∧
      (∀ k t, timeIs s k t → timeIs (issue i s) k (if k = s.next then { t with issue := some s.cycle } else t)) ∧
      (issue i s).next = s.next + 1 ∧ (issue i s).reg = s.reg ∧ (issue i s).fault = s.fault

/-- With no free station of its class the head instruction writes nothing: the cycle is the one without a head, and NEXT
stays, so the same instruction is tried again (R103). -/
def Obligations.StalledHeadChangesNothing : Prop :=
  ∀ (i : Instr) (s : State), i.wf s.cfg.r = true → arbiter s i.op.cls = none →
    issue i s = s ∧ exec i s = .next (drainCycle s) ∧ (drainCycle s).next = s.next

/-- ADD, SUB, MULT and DIV, at the head of an admitted program with a free station of their class, give a next state:
the instruction sits in that station with its operation and index, the destination is mapped to the station, its issue
cycle is the new CYCLE, its execute-begin is the same cycle exactly when both operands resolve at issue, and NEXT has
advanced (R102, R106 to R109, R130, R180, R249). -/
def Obligations.HeadInstructionIsAdmitted : Prop :=
  ∀ (i : Instr) (s : State) (r : Nat), AtHead i s → arbiter s i.op.cls = some r →
    ∃ t st tm, exec i s = .next t ∧ occupied t r st ∧ st.op = i.op ∧ st.inst = s.next ∧ mapped t i.rd.toNat r ∧
      timeIs t s.next tm ∧ tm.issue = some (s.cycle + 1) ∧ tm.wb = none ∧
      tm.ebegin = (if readStat s i.rs = none ∧ readStat s i.rt = none then some (s.cycle + 1) else none) ∧
      t.next = s.next + 1 ∧ t.cycle = s.cycle + 1

/-- An instruction that names a register ≥ R is given no cycle (R63; the fault is log 14's). -/
def Obligations.MissingRegisterIsAFault : Prop :=
  ∀ (i : Instr) (s : State), i.wf s.cfg.r = false → exec i s = .fault .registerIndexOutOfRange

/-- At most one instruction issues in a cycle, the head, in program order; a step without reset never moves NEXT back, and
moves it on only with the issue of the head, in the cycle that runs (R31, R110). -/
def Obligations.OneInstructionIssuesInOrder : Prop :=
  ∀ s t : State, Inv s → s.pins.rst = false → step s = .next t →
    (t.next = s.next ∨ t.next = s.next + 1) ∧
    (t.next = s.next + 1 → ∃ tk, timeIs t s.next tk ∧ tk.issue = some t.cycle) ∧
    ∀ k tk, timeIs t k tk → tk.issue ≠ (s.ts[k]?.bind fun x => x.issue) →
      k = s.next ∧ t.next = s.next + 1 ∧ tk.issue = some t.cycle

/-! ### Execute -/

/-- A station is eligible when it is busy, has both operands and no result. Execute leaves one that is not; advances
the counter of one whose counter has not expired, and its instruction gets no execute-end; and on expiry with a result
writes `result`, `ready`, `lat` and the execute-end timestamp. Execute-begin is recorded in the first
eligible cycle (R130, R131, R132, R134). -/
def Obligations.CounterAdvancesOrCompletes : Prop :=
  ∀ (s : State) (r : Nat) (st : Station), stationIs s r st →
    (st.eligible = true ↔ st.busy = true ∧ st.qj = none ∧ st.qk = none ∧ st.ready = false) ∧
    (st.eligible = false → stationIs (execute s) r st) ∧
    (st.eligible = true → st.lat + 1 < latency s.cfg st.op →
      stationIs (execute s) r { st with lat := st.lat + 1 } ∧
      (Inv s → ∀ t, timeIs s st.inst t → ∃ u, timeIs (execute s) st.inst u ∧ u.eend = t.eend)) ∧
    (∀ v, st.eligible = true → st.lat + 1 = latency s.cfg st.op → fOp st.op st.vj st.vk = some v →
      stationIs (execute s) r { st with result := v, ready := true, lat := 0 } ∧
      ∀ t, timeIs s st.inst t → ∃ u, timeIs (execute s) st.inst u ∧ u.eend = some s.cycle) ∧
    (st.eligible = true → ∀ t, timeIs s st.inst t →
      ∃ u, timeIs (execute s) st.inst u ∧ u.ebegin = (t.ebegin.or (some s.cycle)) ∧ u.issue = t.issue ∧ u.wb = t.wb)

/-- A DIV whose counter expires with divisor 0 writes no result: its station is as before and has no execute-end;
FAULT records the lowest such station with its instruction and the cycle; the others proceed (R147, R213, R214). -/
def Obligations.DivisionByZeroIsRecorded : Prop :=
  ∀ (s : State) (r : Nat) (st : Station), Inv s → s.fault = none → stationIs s r st → st.eligible = true →
    st.op = .div → st.vk.toNat = 0 → st.lat + 1 = s.cfg.ld →
    stationIs (execute s) r st ∧
    (∃ u, timeIs (execute s) st.inst u ∧ u.ebegin ≠ none ∧
      ∀ t, timeIs s st.inst t → u.eend = t.eend) ∧
    ((∀ a sa, a < r → stationIs s a sa → execEvent s.cfg sa ≠ .divideByZero) →
      (execute s).fault = some (.divideByZero st.inst r s.cycle)) ∧
    ∀ a sa, stationIs s a sa → stationIs (execute s) a (execStation s.cfg sa)

/-! ### Writeback -/

/-- A register whose status entry (after Issue) names a broadcasting station takes its result and the entry is cleared;
every other register and entry is unchanged; at most one register matches (R163). -/
def Obligations.BroadcastWritesTheMappedRegister : Prop :=
  ∀ (s1 s2 : State) (i : Nat),
    (∀ r st, i < s2.reg.length → mapped s2 i r → broadcasts s1 r = true → stationIs s2 r st →
      (writeback s1 s2).reg[i]? = some st.result ∧ (writeback s1 s2).rstat[i]? = some none ∧
      (Inv s2 → ∀ j, mapped s2 j r → j = i)) ∧
    ((∀ r, mapped s2 i r → broadcasts s1 r = false) →
      (writeback s1 s2).reg[i]? = s2.reg[i]? ∧ (writeback s1 s2).rstat[i]? = s2.rstat[i]?)

/-- A waiting operand whose producer broadcasts takes the value and loses its tag, in every waiting station at once and
in both operands; an operand that waits for another station, or that has its value, stays, and so does every other
field (R164). -/
def Obligations.BroadcastReachesEveryWaiter : Prop :=
  ∀ (s1 s2 : State) (a : Nat) (st : Station), stationIs s2 a st → broadcasts s1 a = false →
    ∃ u, stationIs (writeback s1 s2) a u ∧
      (∀ p sp, st.qj = some p → broadcasts s1 p = true → stationIs s2 p sp → u.qj = none ∧ u.vj = sp.result) ∧
      (∀ p sp, st.qk = some p → broadcasts s1 p = true → stationIs s2 p sp → u.qk = none ∧ u.vk = sp.result) ∧
      ((∀ p, st.qj = some p → broadcasts s1 p = false) → u.qj = st.qj ∧ u.vj = st.vj) ∧
      ((∀ p, st.qk = some p → broadcasts s1 p = false) → u.qk = st.qk ∧ u.vk = st.vk) ∧
      u.busy = st.busy ∧ u.op = st.op ∧ u.inst = st.inst ∧ u.lat = st.lat ∧ u.ready = st.ready ∧
      u.result = st.result

/-- The stations that broadcast in a cycle are those ready at its start: each is freed with no tag, and its instruction
gets the cycle as its writeback timestamp; a station that becomes ready in the cycle is still busy at its end and its
instruction has not retired (R160, R162, R165). -/
def Obligations.ReadyStationsRetireInTheNextCycle : Prop :=
  ∀ (i : Instr) (s : State), AtHead i s → ∃ t, exec i s = .next t ∧
    (∀ r st, stationIs s r st → st.ready = true →
      (∃ u, stationIs t r u ∧ u.busy = false ∧ u.ready = false ∧ u.lat = 0 ∧ u.qj = none ∧ u.qk = none) ∧
      ∃ tm, timeIs t st.inst tm ∧ tm.wb = some t.cycle) ∧
    ∀ r st u, stationIs s r st → st.ready = false → stationIs t r u → u.ready = true →
      u.busy = true ∧ ∃ tm, timeIs t u.inst tm ∧ tm.eend = some t.cycle ∧ tm.wb = none

/-- A tag copied by Issue in the cycle in which its producer broadcasts is resolved in that cycle, for either operand:
no wake-up is lost. Execute uses the operand from the next cycle on: the counter has not started (R112). -/
def Obligations.TagIssuedDuringItsBroadcastIsResolved : Prop :=
  ∀ (i : Instr) (s : State) (r : Nat), AtHead i s → arbiter s i.op.cls = some r →
    ∃ t u, exec i s = .next t ∧ occupied t r u ∧
      (∀ p sp, readStat s i.rs = some p → stationIs s p sp → sp.ready = true →
        u.qj = none ∧ u.vj = sp.result ∧ u.lat = 0 ∧ u.ready = false) ∧
      (∀ p sp, readStat s i.rt = some p → stationIs s p sp → sp.ready = true →
        u.qk = none ∧ u.vk = sp.result ∧ u.lat = 0 ∧ u.ready = false)

/-- When Issue renames a register in the cycle in which its old producer broadcasts, the register keeps its old value
and is mapped to the new station (R65, R167). -/
def Obligations.RenameBeatsTheOldProducersBroadcast : Prop :=
  ∀ (i : Instr) (s : State) (r p : Nat) (sp : Station), AtHead i s →
    arbiter s i.op.cls = some r → mapped s i.rd.toNat p → stationIs s p sp → sp.ready = true →
    ∃ t, exec i s = .next t ∧ t.reg[i.rd.toNat]? = s.reg[i.rd.toNat]? ∧ mapped t i.rd.toNat r

/-! ### What a cycle leaves alone -/

/-- The frame of ADD, SUB, MULT and DIV, each as the head of a cycle. CFG, PROG, CFG_ERR and the pins stay. A register
stays unless the station it is mapped to is ready; a status entry stays unless that holds or it is the destination's. A
busy station that waits for producers none of which is ready stays, and so does a free station that the arbiter does not
give. The timestamps of an instruction that is neither the head nor in a station stay. With no DIV in a station or at
the head, FAULT stays (R107, R135, R163, R212). -/
def Obligations.HeadCycleFrame : Prop :=
  ∀ (i : Instr) (s : State), AtHead i s → ∃ t, exec i s = .next t ∧
    (t.cfg = s.cfg ∧ t.prog = s.prog ∧ t.cfgErr = s.cfgErr ∧ t.inReset = s.inReset ∧ t.pins = s.pins ∧
      t.cycle = s.cycle + 1) ∧
    (∀ j, (∀ r st, mapped s j r → stationIs s r st → st.ready = false) →
      t.reg[j]? = s.reg[j]? ∧ (j ≠ i.rd.toNat → t.rstat[j]? = s.rstat[j]?)) ∧
    (∀ a st p sp, occupied s a st → st.qj = some p ∨ st.qk = some p → stationIs s p sp → sp.ready = false →
      (∀ q sq, st.qj = some q ∨ st.qk = some q → stationIs s q sq → sq.ready = false) → stationIs t a st) ∧
    (∀ a st, stationIs s a st → st.busy = false → arbiter s i.op.cls ≠ some a → stationIs t a st) ∧
    (∀ k, k ≠ s.next → (∀ a st, occupied s a st → st.inst ≠ k) → t.ts[k]? = s.ts[k]?) ∧
    (i.op ≠ .div → (∀ a st, occupied s a st → st.op ≠ .div) → t.fault = s.fault)

/-! ### The whole life of an instruction -/

/-- ADD alone: the head cycle gives a next state, and LA cycles later the destination holds the sum modulo 2^W and no
other register has changed; the timestamps are those of R249 and R250 with B = I, and the run is completed (R140). -/
def Obligations.AddWritesTheSum : Prop :=
  ∀ (rd rs rt : RegIx) (s : State), LastAlone (.add rd rs rt) s →
    ∃ t u, exec (.add rd rs rt) s = .next t ∧ run s.cfg.la t = .next u ∧
      u.reg = s.reg.set rd.toNat (BitVec.ofInt 32 ((readReg s rs).toInt + (readReg s rt).toInt)) ∧
      u.ts = s.ts.set s.next
        { issue := some (s.cycle + 1), ebegin := some (s.cycle + 1),
          eend := some (s.cycle + BitVec.ofNat 32 s.cfg.la),
          wb := some (s.cycle + BitVec.ofNat 32 s.cfg.la + 1) } ∧
      u.rstat = s.rstat ∧ u.fault = none ∧ runStatus u = .completed

/-- SUB alone: rs minus rt (R141), as for ADD. -/
def Obligations.SubWritesTheDifference : Prop :=
  ∀ (rd rs rt : RegIx) (s : State), LastAlone (.sub rd rs rt) s →
    ∃ t u, exec (.sub rd rs rt) s = .next t ∧ run s.cfg.la t = .next u ∧
      u.reg = s.reg.set rd.toNat (BitVec.ofInt 32 ((readReg s rs).toInt - (readReg s rt).toInt)) ∧
      u.ts = s.ts.set s.next
        { issue := some (s.cycle + 1), ebegin := some (s.cycle + 1),
          eend := some (s.cycle + BitVec.ofNat 32 s.cfg.la),
          wb := some (s.cycle + BitVec.ofNat 32 s.cfg.la + 1) } ∧
      u.rstat = s.rstat ∧ u.fault = none ∧ runStatus u = .completed

/-- MULT alone: the low W bits of the product, LM cycles after the head cycle (R142). -/
def Obligations.MultWritesTheProduct : Prop :=
  ∀ (rd rs rt : RegIx) (s : State), LastAlone (.mult rd rs rt) s →
    ∃ t u, exec (.mult rd rs rt) s = .next t ∧ run s.cfg.lm t = .next u ∧
      u.reg = s.reg.set rd.toNat (BitVec.ofInt 32 ((readReg s rs).toInt * (readReg s rt).toInt)) ∧
      u.ts = s.ts.set s.next
        { issue := some (s.cycle + 1), ebegin := some (s.cycle + 1),
          eend := some (s.cycle + BitVec.ofNat 32 s.cfg.lm),
          wb := some (s.cycle + BitVec.ofNat 32 s.cfg.lm + 1) } ∧
      u.rstat = s.rstat ∧ u.fault = none ∧ runStatus u = .completed

/-- DIV alone with a divisor other than 0: the truncated quotient modulo 2^W, LD cycles after the head cycle (R143). -/
def Obligations.DivWritesTheQuotient : Prop :=
  ∀ (rd rs rt : RegIx) (s : State), LastAlone (.div rd rs rt) s → readReg s rt ≠ 0#32 →
    ∃ t u, exec (.div rd rs rt) s = .next t ∧ run s.cfg.ld t = .next u ∧
      u.reg = s.reg.set rd.toNat (BitVec.ofInt 32 ((readReg s rs).toInt.tdiv (readReg s rt).toInt)) ∧
      u.ts = s.ts.set s.next
        { issue := some (s.cycle + 1), ebegin := some (s.cycle + 1),
          eend := some (s.cycle + BitVec.ofNat 32 s.cfg.ld),
          wb := some (s.cycle + BitVec.ofNat 32 s.cfg.ld + 1) } ∧
      u.rstat = s.rstat ∧ u.fault = none ∧ runStatus u = .completed

/-- DIV alone with divisor 0: LD cycles from the issue, the last of them included, FAULT names the instruction, its
station and the cycle; no register has changed, the destination is still mapped to the station, the instruction has no
execute-end, and every further edge without reset leaves the state (R147, R182, R213). -/
def Obligations.DivByZeroHaltsTheRun : Prop :=
  ∀ (rd rs rt : RegIx) (s : State), LastAlone (.div rd rs rt) s → readReg s rt = 0#32 →
    ∃ t u r st tm, exec (.div rd rs rt) s = .next t ∧ run (s.cfg.ld - 1) t = .next u ∧
      u.fault = some (.divideByZero s.next r (s.cycle + BitVec.ofNat 32 s.cfg.ld)) ∧
      classOf s.cfg r = some .div ∧ u.reg = s.reg ∧ mapped u rd.toNat r ∧
      occupied u r st ∧ st.ready = false ∧ st.inst = s.next ∧
      timeIs u s.next tm ∧ tm.ebegin = some (s.cycle + 1) ∧ tm.eend = none ∧ tm.wb = none ∧
      done u = false ∧ step u = .next u

/-! ### One edge -/

/-- When a cycle runs and PROG[NEXT] was loaded with a word that decodes to `i`, the step is `exec i`, at the state in
which CFG_ERR has been evaluated if rst has just fallen; with no head instruction the cycle drains (R100, R180, R182). -/
def Obligations.StepRunsTheHeadInstruction : Prop :=
  ∀ s : State, s.pins.rst = false → s.pins.en = true → (releaseReset s).cfgErr = none → halted s = false →
    capReached s = false →
    (∀ (w : InstrWord) (i : Instr), s.next < s.cfg.n → s.prog[s.next]? = some (some (decodeWord w)) →
      decodeWord w = .instr i → step s = exec i (releaseReset s)) ∧
    (s.cfg.n ≤ s.next → step s = .next (drainCycle (releaseReset s)))

/-- Any legal word, loaded as the whole program, is issued by the first step from State.reset, in cycle 1 (R242; the
reset values the spec leaves open are logs 3 to 5, the load is log 8). -/
def Obligations.LoadedWordIssuesInCycleOne : Prop :=
  ∀ (w : InstrWord) (i : Instr), decodeWord w = .instr i →
    ∃ t tm, step (State.reset.withFetchWord 32 w.toNat) = .next t ∧ t.next = 1 ∧ t.cycle = 1 ∧
      timeIs t 0 tm ∧ tm.issue = some 1 ∧ tm.ebegin = some 1

/-- An edge with rst = 0, after the release, leaves the state when CFG_ERR ≠ none, or HALTED, or en = 0; so HALTED is
left by reset alone (R36, R182, R217, R219, R224). -/
def Obligations.HeldEdgeKeepsTheState : Prop :=
  ∀ s : State, s.pins.rst = false → s.inReset = false →
    (s.cfgErr ≠ none ∨ done s = true ∨ s.fault ≠ none ∨ s.pins.en = false) → step s = .next s

/-- At an edge where a cycle would run with CYCLE = MAX_CYCLES no cycle runs, and FAULT records the cycle (R183, R217). At
the first edge after reset CYCLE is 0, so only a cap of 0, outside the values D22 names, is met there: that it is, after
CFG_ERR has been evaluated, is the model's reading (log 13). -/
def Obligations.CycleCapIsAFault : Prop :=
  ∀ (s : State) (m : CycleNo), s.pins.rst = false → s.pins.en = true → (releaseReset s).cfgErr = none →
    halted s = false → s.cfg.maxCycles = some m → s.cycle = m →
    step s = .next { releaseReset s with fault := some (.cycleCapExceeded m) }

/-- An edge with rst = 1 gives every element its reset value, samples CFG, and changes REG and PROG only by their ports;
from a fault too (R34, R219, R240). That MAX_CYCLES is sampled with CFG is log 13's reading, that the ports reach
register cells from R on and PROG cells from N on is log 9's, and the width of the program address is log 27's. -/
def Obligations.ResetEdgeGivesTheResetValues : Prop :=
  ∀ s : State, s.pins.rst = true → ∃ t, step s = .next t ∧ t.cfg = s.pins.cfg.toCfg ∧
    t.rstat = List.replicate s.pins.cfg.toCfg.r none ∧ t.stations.length = s.pins.cfg.toCfg.nrs ∧
    (∀ st ∈ t.stations, st.busy = false ∧ st.ready = false ∧ st.lat = 0 ∧ st.qj = none ∧ st.qk = none) ∧
    t.next = 0 ∧ t.ts = List.replicate s.pins.cfg.n {} ∧ t.cycle = 0 ∧ t.fault = none ∧ t.cfgErr = none ∧
    (∀ a, t.reg[a]? =
      match s.pins.regWrite with
      | some (x, v) => if a = x.toNat ∧ a < s.reg.length then some v else s.reg[a]?
      | none => s.reg[a]?) ∧
    (∀ k, t.prog[k]?.getD none =
      match s.pins.progWrite with
      | some (x, w) => if k = x.toNat then some (decodeWord w) else s.prog[k]?.getD none
      | none => s.prog[k]?.getD none)

/-- CFG_ERR is the lowest-numbered failing check of WF1 to WF6, and none when all hold (R9, R210). That WF1 speaks of the
words that decode to an instruction alone, so that a word illegal by its operation code or reserved bits gives code 2
whatever its register fields hold, is the model's choice (log 11). -/
def Obligations.LowestFailingCheckIsReported : Prop :=
  ∀ (cw : Nat) (c : Cfg) (p : List Decoded),
    let w1 := ∀ i, .instr i ∈ p → i.rd.toNat < c.r ∧ i.rs.toNat < c.r ∧ i.rt.toNat < c.r
    let w2 := ∀ d ∈ p, ∃ i, d = .instr i
    let w3 := 1 ≤ c.la ∧ 1 ≤ c.lm ∧ 1 ≤ c.ld
    let w4 := ∀ i, .instr i ∈ p → 1 ≤ stationCount c i.op.cls
    let w5 := 1 ≤ c.r ∧ c.r ≤ 256
    let w6 := (p.map fun d => match d with | .instr i => latency c i.op + 1 | .illegal _ => 0).sum ≤ 2 ^ cw - 1
    (checkConfig cw c p = some .registerIndex ↔ ¬ w1) ∧
    (checkConfig cw c p = some .operation ↔ w1 ∧ ¬ w2) ∧
    (checkConfig cw c p = some .latency ↔ w1 ∧ w2 ∧ ¬ w3) ∧
    (checkConfig cw c p = some .noStation ↔ w1 ∧ w2 ∧ w3 ∧ ¬ w4) ∧
    (checkConfig cw c p = some .registerCount ↔ w1 ∧ w2 ∧ w3 ∧ w4 ∧ ¬ w5) ∧
    (checkConfig cw c p = some .cycleBound ↔ w1 ∧ w2 ∧ w3 ∧ w4 ∧ w5 ∧ ¬ w6) ∧
    (checkConfig cw c p = none ↔ w1 ∧ w2 ∧ w3 ∧ w4 ∧ w5 ∧ w6)

/-- The first edge with rst = 0 evaluates the checks; if one fails its code is kept and no cycle runs at any edge until
reset (R210). -/
def Obligations.RefusedConfigurationRunsNoCycle : Prop :=
  ∀ (s : State) (e : ConfigErr), s.pins.rst = false → s.inReset = true → admission s = some e →
    step s = .next { s with cfgErr := some e, inReset := false } ∧
      ∀ n, run (n + 1) s = .next { s with cfgErr := some e, inReset := false }

/-- Without reset no step changes CFG or PROG (R30, R37, R68). That no step changes the pins (log 2) and that a step without
reset clears the bit inReset (log 12) are the model's own. -/
def Obligations.ConfigurationAndProgramAreFixed : Prop :=
  ∀ s t : State, step s = .next t →
    t.pins = s.pins ∧ (s.pins.rst = false → t.cfg = s.cfg ∧ t.prog = s.prog ∧ t.inReset = false)

/-! ### Invariants and whole-machine rules -/

/-- The invariants of R40 hold in State.reset (its open values are logs 3 to 5). -/
def Obligations.InvariantsHoldAtReset : Prop := Inv State.reset

/-- Every step keeps the invariants of R40, from every state that has them, whatever the pins (R40; INV12 as log 15 has
it). -/
def Obligations.StepKeepsTheInvariants : Prop :=
  ∀ s t : State, Inv s → step s = .next t → Inv t

/-- INV12 with the one exception R40 gives it is false of the machine R147 and R214 describe: two DIVs that expire in the
same cycle with LD = 1 are in the same state and FAULT names one (log 15). -/
def Obligations.Inv12AsWrittenHoldsOfEveryRun : Prop :=
  ∀ (s t : State) (n : Nat), Booted s → run n s = .next t → Inv12AsWritten t

/-- From a state with the invariants every edge gives a next state: no step stops, whatever the pins (R85, R114, R215). -/
def Obligations.NoStepStops : Prop :=
  ∀ s : State, Inv s → ∃ t, step s = .next t

/-- DONE holds exactly when every instruction has retired, and equally exactly when everything has issued and every
station is free; so with N = 0 it holds at reset (R35). -/
def Obligations.DoneIsAnEmptyPipeline : Prop :=
  ∀ s : State, Inv s →
    (done s = true ↔ ∀ k, k < s.cfg.n → ∃ t, timeIs s k t ∧ t.wb ≠ none) ∧
    (done s = true ↔ s.next = s.cfg.n ∧ ∀ r st, stationIs s r st → st.busy = false) ∧
    (s.cfg.n = 0 → done s = true)

/-- The timing of R249 (E = B + L − 1, T = E + 1, a counter that never stalls) holds at the end of reset and every step
keeps it. -/
def Obligations.StepKeepsTheTiming : Prop :=
  Timing State.reset ∧ ∀ s t : State, Inv s → Timing s → step s = .next t → Timing t

/-- Issue ≤ execute-begin ≤ execute-end < writeback, and issue cycles rise with the program index (R110, R249): kept by
every step at which CYCLE does not wrap, which WF6 excludes (R33). -/
def Obligations.StepKeepsTheOrderOfTimestamps : Prop :=
  ∀ s t : State, Inv s → Ordered s → s.cycle.toNat + 1 < 2 ^ 32 → step s = .next t → Ordered t

/-- A timestamp, once recorded, is not written again until reset (R32). -/
def Obligations.TimestampsAreWrittenOnce : Prop :=
  ∀ s t : State, Inv s → Timing s → s.pins.rst = false → step s = .next t →
    ∀ k a, timeIs s k a → ∃ b, timeIs t k b ∧
      (a.issue ≠ none → b.issue = a.issue) ∧ (a.ebegin ≠ none → b.ebegin = a.ebegin) ∧
      (a.eend ≠ none → b.eend = a.eend) ∧ (a.wb ≠ none → b.wb = a.wb)

/-- No rule reads an unspecified field: two states that differ in those alone step to states that differ in those alone
(R27, R29, R187). -/
def Obligations.UnspecifiedFieldsAreNeverRead : Prop :=
  ∀ s t : State, Inv s → Inv t → SameButUnspecified s t →
    ∃ s' t', step s = .next s' ∧ step t = .next t' ∧ SameButUnspecified s' t'

/-- Sequential equivalence: a completed run of an admitted configuration, from any registers and program the host loaded,
ends with REG as the in-order sequential reading leaves it (R248). -/
def Obligations.CompletedRunIsTheSequentialReading : Prop :=
  ∀ (s t : State) (n : Nat), Booted s → run n s = .next t → runStatus t = .completed →
    t.reg = seqRun s.reg (program s)

/-- Every run of an admitted configuration reaches DONE or a DivideByZero fault within the sum of L(op) + 1 cycles
(R189). -/
def Obligations.RunEndsWithinTheCycleBound : Prop :=
  ∀ s : State, Booted s → ∃ n t, n ≤ cycleBound s.cfg (program s) ∧ run n s = .next t ∧
    (done t = true ∨ dividedByZero t)

/-! ### Cycles without a head, the release edge, what the host sees -/

/-- A cycle with no head instruction retires the stations ready at its start, and those alone, as one with a head does
(R100, R160, R162, R165). -/
def Obligations.CycleWithoutHeadRetiresReadyStations : Prop :=
  ∀ s : State, Draining s →
    (∀ r st, stationIs s r st → st.ready = true →
      (∃ u, stationIs (drainCycle s) r u ∧ u.busy = false ∧ u.ready = false ∧ u.lat = 0 ∧ u.qj = none ∧ u.qk = none) ∧
      ∃ tm, timeIs (drainCycle s) st.inst tm ∧ tm.wb = some (s.cycle + 1)) ∧
    ∀ r st u, stationIs s r st → st.ready = false → stationIs (drainCycle s) r u →
      (st.busy = true → u.busy = true ∧ u.inst = st.inst) ∧
      (u.ready = true →
        u.busy = true ∧ ∃ tm, timeIs (drainCycle s) u.inst tm ∧ tm.eend = some (s.cycle + 1) ∧ tm.wb = none)

/-- The frame of a cycle with no head instruction. CFG, PROG, CFG_ERR, the pins and NEXT stay. A register and its status
entry stay unless the station it is mapped to is ready. A busy station that waits for producers none of which is ready
stays, and so does a free one. The timestamps of an instruction that is in no station stay. With no DIV in a station,
FAULT stays (R100, R135, R163, R212). -/
def Obligations.CycleWithoutHeadFrame : Prop :=
  ∀ s t : State, Draining s → t = drainCycle s →
    (t.cfg = s.cfg ∧ t.prog = s.prog ∧ t.cfgErr = s.cfgErr ∧ t.inReset = s.inReset ∧ t.pins = s.pins ∧
      t.next = s.next ∧ t.cycle = s.cycle + 1) ∧
    (∀ j, (∀ r st, mapped s j r → stationIs s r st → st.ready = false) →
      t.reg[j]? = s.reg[j]? ∧ t.rstat[j]? = s.rstat[j]?) ∧
    (∀ a st p sp, occupied s a st → st.qj = some p ∨ st.qk = some p → stationIs s p sp → sp.ready = false →
      (∀ q sq, st.qj = some q ∨ st.qk = some q → stationIs s q sq → sq.ready = false) → stationIs t a st) ∧
    (∀ a st, stationIs s a st → st.busy = false → stationIs t a st) ∧
    (∀ k, (∀ a st, occupied s a st → st.inst ≠ k) → t.ts[k]? = s.ts[k]?) ∧
    ((∀ a st, occupied s a st → st.op ≠ .div) → t.fault = s.fault)

/-- The first edge with rst = 0 evaluates CFG_ERR also when no cycle runs at it, because a check fails, DONE holds (N = 0),
or en = 0; it changes nothing else but the bit of log 12 (R182, R210, R240). -/
def Obligations.ReleaseEdgeEvaluatesTheChecks : Prop :=
  ∀ s : State, s.pins.rst = false → s.inReset = true →
    (admission s ≠ none ∨ done s = true ∨ s.fault ≠ none ∨ s.pins.en = false) →
    step s = .next { s with cfgErr := admission s, inReset := false }

/-- The codes of CFG_ERR and FAULT and what the output pins show: DONE, HALTED or a refusal, CFG_ERR, FAULT with its parts,
CYCLE and NEXT (R185, R210, R211). -/
def Obligations.OutputPinsShowTheStatus : Prop :=
  (cfgErrCode none = 0 ∧ cfgErrCode (some .registerIndex) = 1 ∧ cfgErrCode (some .operation) = 2 ∧
    cfgErrCode (some .latency) = 3 ∧ cfgErrCode (some .noStation) = 4 ∧ cfgErrCode (some .registerCount) = 5 ∧
    cfgErrCode (some .cycleBound) = 6) ∧
  ∀ s : State,
    let o := outputs s
    (o.done = true ↔ ∀ t ∈ s.ts, t.wb ≠ none) ∧
    (o.halted = true ↔ (∀ t ∈ s.ts, t.wb ≠ none) ∨ s.fault ≠ none ∨ s.cfgErr ≠ none) ∧
    o.cfgErr = cfgErrCode s.cfgErr ∧ o.cycle = s.cycle ∧ (s.next ≤ s.cfg.n → o.next.toNat = s.next) ∧
    (s.fault = none → o.faultValid = false ∧ o.faultCode = 0) ∧
    (∀ k r c, s.fault = some (.divideByZero k r c) → k < s.cfg.n → r < s.cfg.nrs →
      o.faultValid = true ∧ o.faultCode = 1 ∧ o.faultInst.map BitVec.toNat = some k ∧
        o.faultStation.map BitVec.toNat = some r ∧ o.faultCycle = some c) ∧
    (∀ c, s.fault = some (.cycleCapExceeded c) → o.faultValid = true ∧ o.faultCode = 2 ∧ o.faultCycle = some c) ∧
    (s.fault = some .invariantViolation → o.faultValid = true ∧ o.faultCode = 3)

/-- The snapshot ports show every register, status entry, field of a busy station and timestamp, in the widths of R8: no
value is cut (R39, R184, R185). -/
def Obligations.SnapshotPortsShowTheState : Prop :=
  ∀ s : State, Inv s →
    (∀ i : RegIx, i.toNat < s.cfg.r →
      snapReg s i = some (readReg s i) ∧ snapRstat s i = some (tagBits s.cfg.tagWidth (readStat s i))) ∧
    (∀ r st, occupied s r st → ∃ v, snapStation s (BitVec.ofNat _ r) = some v ∧ v.busy = true ∧ v.op = st.op.code ∧
      v.vj = st.vj ∧ v.vk = st.vk ∧ v.qj = tagBits s.cfg.tagWidth st.qj ∧ v.qk = tagBits s.cfg.tagWidth st.qk ∧
      v.lat.toNat = st.lat ∧ v.result = st.result ∧ v.ready = st.ready ∧ v.inst.toNat = st.inst) ∧
    ∀ k t, timeIs s k t → snapTime s (BitVec.ofNat _ k) = some t

/-! ### Invariants of the fault record and of the sequential reading -/

/-- A DivideByZero record names the busy DIV that failed, and stays true of the frozen state: kept by every step (R147,
R182, R213, R214). -/
def Obligations.StepKeepsTheFaultRecordTrue : Prop :=
  FaultRecordTrue State.reset ∧
    ∀ s t : State, Inv s → Timing s → FaultRecordTrue s → step s = .next t → FaultRecordTrue t

/-- Every step without reset keeps the simulation of the sequential reading, from every state with the invariants (R244,
R245, R246, R248). -/
def Obligations.StepKeepsTheSimulation : Prop :=
  ∀ (reg0 : List Word) (s t : State), Inv s → Simulates reg0 s → s.pins.rst = false → step s = .next t →
    Simulates reg0 t

/-- The simulation holds of the registers the host loaded when reset ends, and when DONE holds it says that REG is the
sequential result (R248). -/
def Obligations.SimulationBeginsAndEnds : Prop :=
  (∀ s : State, Booted s → Simulates s.reg s) ∧
    ∀ (reg0 : List Word) (s : State), Inv s → Simulates reg0 s → done s = true → s.reg = seqRun reg0 (program s)
end

