-- ==== Sys2Proof/Laws/State.lean ====
section
/-! SUPPORT. One lemma per field per update of State, so that no later proof unfolds a record update. The updates of
Execute and Writeback are read through the lemmas of Laws/Stages.lean. -/

namespace Sys2Proof.Machine

/-! ### advanceCycle -/

@[simp] theorem advanceCycle_reg (s : State) : (advanceCycle s).reg = s.reg := rfl

@[simp] theorem advanceCycle_rstat (s : State) : (advanceCycle s).rstat = s.rstat := rfl

@[simp] theorem advanceCycle_stations (s : State) : (advanceCycle s).stations = s.stations := rfl

@[simp] theorem advanceCycle_prog (s : State) : (advanceCycle s).prog = s.prog := rfl

@[simp] theorem advanceCycle_next (s : State) : (advanceCycle s).next = s.next := rfl

@[simp] theorem advanceCycle_ts (s : State) : (advanceCycle s).ts = s.ts := rfl

@[simp] theorem advanceCycle_cycle (s : State) : (advanceCycle s).cycle = s.cycle + 1 := rfl

@[simp] theorem advanceCycle_fault (s : State) : (advanceCycle s).fault = s.fault := rfl

@[simp] theorem advanceCycle_cfg (s : State) : (advanceCycle s).cfg = s.cfg := rfl

@[simp] theorem advanceCycle_cfgErr (s : State) : (advanceCycle s).cfgErr = s.cfgErr := rfl

@[simp] theorem advanceCycle_inReset (s : State) : (advanceCycle s).inReset = s.inReset := rfl

@[simp] theorem advanceCycle_pins (s : State) : (advanceCycle s).pins = s.pins := rfl

@[simp] theorem advanceCycle_draws (s : State) : (advanceCycle s).draws = s.draws := rfl

/-! ### drive -/

@[simp] theorem drive_reg (p : Pins) (s : State) : (drive p s).reg = s.reg := rfl

@[simp] theorem drive_rstat (p : Pins) (s : State) : (drive p s).rstat = s.rstat := rfl

@[simp] theorem drive_stations (p : Pins) (s : State) : (drive p s).stations = s.stations := rfl

@[simp] theorem drive_prog (p : Pins) (s : State) : (drive p s).prog = s.prog := rfl

@[simp] theorem drive_next (p : Pins) (s : State) : (drive p s).next = s.next := rfl

@[simp] theorem drive_ts (p : Pins) (s : State) : (drive p s).ts = s.ts := rfl

@[simp] theorem drive_cycle (p : Pins) (s : State) : (drive p s).cycle = s.cycle := rfl

@[simp] theorem drive_fault (p : Pins) (s : State) : (drive p s).fault = s.fault := rfl

@[simp] theorem drive_cfg (p : Pins) (s : State) : (drive p s).cfg = s.cfg := rfl

@[simp] theorem drive_cfgErr (p : Pins) (s : State) : (drive p s).cfgErr = s.cfgErr := rfl

@[simp] theorem drive_inReset (p : Pins) (s : State) : (drive p s).inReset = s.inReset := rfl

@[simp] theorem drive_pins (p : Pins) (s : State) : (drive p s).pins = p := rfl

@[simp] theorem drive_draws (p : Pins) (s : State) : (drive p s).draws = s.draws := rfl

/-! ### admitTo -/

@[simp] theorem admitTo_reg (i : Instr) (r : Nat) (s : State) : (admitTo i r s).reg = s.reg := rfl

@[simp] theorem admitTo_rstat (i : Instr) (r : Nat) (s : State) : (admitTo i r s).rstat = s.rstat.set i.rd.toNat (some r) := rfl

@[simp] theorem admitTo_stations (i : Instr) (r : Nat) (s : State) : (admitTo i r s).stations = s.stations.modify r (Station.fill i.op (resolve s i.rs) (resolve s i.rt) s.next) := rfl

@[simp] theorem admitTo_prog (i : Instr) (r : Nat) (s : State) : (admitTo i r s).prog = s.prog := rfl

@[simp] theorem admitTo_next (i : Instr) (r : Nat) (s : State) : (admitTo i r s).next = s.next + 1 := rfl

@[simp] theorem admitTo_ts (i : Instr) (r : Nat) (s : State) : (admitTo i r s).ts = s.ts.modify s.next (fun t => { t with issue := some s.cycle }) := rfl

@[simp] theorem admitTo_cycle (i : Instr) (r : Nat) (s : State) : (admitTo i r s).cycle = s.cycle := rfl

@[simp] theorem admitTo_fault (i : Instr) (r : Nat) (s : State) : (admitTo i r s).fault = s.fault := rfl

@[simp] theorem admitTo_cfg (i : Instr) (r : Nat) (s : State) : (admitTo i r s).cfg = s.cfg := rfl

@[simp] theorem admitTo_cfgErr (i : Instr) (r : Nat) (s : State) : (admitTo i r s).cfgErr = s.cfgErr := rfl

@[simp] theorem admitTo_inReset (i : Instr) (r : Nat) (s : State) : (admitTo i r s).inReset = s.inReset := rfl

@[simp] theorem admitTo_pins (i : Instr) (r : Nat) (s : State) : (admitTo i r s).pins = s.pins := rfl

@[simp] theorem admitTo_draws (i : Instr) (r : Nat) (s : State) : (admitTo i r s).draws = s.draws := rfl

/-! ### resetEdge -/

@[simp] theorem resetEdge_reg (s : State) : (resetEdge s).reg = loadReg s.pins s.reg := rfl

@[simp] theorem resetEdge_rstat (s : State) : (resetEdge s).rstat = List.replicate s.pins.cfg.toCfg.r none := rfl

@[simp] theorem resetEdge_stations (s : State) : (resetEdge s).stations = (List.range s.pins.cfg.toCfg.nrs).map (Station.unspecified s.pins.cfg.toCfg s.draws) := rfl

@[simp] theorem resetEdge_prog (s : State) : (resetEdge s).prog = loadProg s.pins s.prog := rfl

@[simp] theorem resetEdge_next (s : State) : (resetEdge s).next = 0 := rfl

@[simp] theorem resetEdge_ts (s : State) : (resetEdge s).ts = List.replicate s.pins.cfg.toCfg.n {} := rfl

@[simp] theorem resetEdge_cycle (s : State) : (resetEdge s).cycle = 0 := rfl

@[simp] theorem resetEdge_fault (s : State) : (resetEdge s).fault = none := rfl

@[simp] theorem resetEdge_cfg (s : State) : (resetEdge s).cfg = s.pins.cfg.toCfg := rfl

@[simp] theorem resetEdge_cfgErr (s : State) : (resetEdge s).cfgErr = none := rfl

@[simp] theorem resetEdge_inReset (s : State) : (resetEdge s).inReset = true := rfl

@[simp] theorem resetEdge_pins (s : State) : (resetEdge s).pins = s.pins := rfl

@[simp] theorem resetEdge_draws (s : State) : (resetEdge s).draws = s.draws + 1 := rfl

/-! ### raiseFault: nothing but FAULT changes (R218) -/

@[simp] theorem raiseFault_reg (f : FaultRecord) (s : State) : (raiseFault f s).reg = s.reg := by
  unfold raiseFault; split <;> rfl

@[simp] theorem raiseFault_rstat (f : FaultRecord) (s : State) : (raiseFault f s).rstat = s.rstat := by
  unfold raiseFault; split <;> rfl

@[simp] theorem raiseFault_stations (f : FaultRecord) (s : State) : (raiseFault f s).stations = s.stations := by
  unfold raiseFault; split <;> rfl

@[simp] theorem raiseFault_prog (f : FaultRecord) (s : State) : (raiseFault f s).prog = s.prog := by
  unfold raiseFault; split <;> rfl

@[simp] theorem raiseFault_next (f : FaultRecord) (s : State) : (raiseFault f s).next = s.next := by
  unfold raiseFault; split <;> rfl

@[simp] theorem raiseFault_ts (f : FaultRecord) (s : State) : (raiseFault f s).ts = s.ts := by
  unfold raiseFault; split <;> rfl

@[simp] theorem raiseFault_cycle (f : FaultRecord) (s : State) : (raiseFault f s).cycle = s.cycle := by
  unfold raiseFault; split <;> rfl

@[simp] theorem raiseFault_cfg (f : FaultRecord) (s : State) : (raiseFault f s).cfg = s.cfg := by
  unfold raiseFault; split <;> rfl

@[simp] theorem raiseFault_cfgErr (f : FaultRecord) (s : State) : (raiseFault f s).cfgErr = s.cfgErr := by
  unfold raiseFault; split <;> rfl

@[simp] theorem raiseFault_inReset (f : FaultRecord) (s : State) : (raiseFault f s).inReset = s.inReset := by
  unfold raiseFault; split <;> rfl

@[simp] theorem raiseFault_pins (f : FaultRecord) (s : State) : (raiseFault f s).pins = s.pins := by
  unfold raiseFault; split <;> rfl

@[simp] theorem raiseFault_draws (f : FaultRecord) (s : State) : (raiseFault f s).draws = s.draws := by
  unfold raiseFault; split <;> rfl

/-- FAULT is written only while it is none (R34, R214). -/
@[simp] theorem raiseFault_fault (f : FaultRecord) (s : State) : (raiseFault f s).fault = s.fault.or (some f) := by
  unfold raiseFault; split <;> simp_all

/-! ### releaseReset: only CFG_ERR and the reset bit change (R210) -/

@[simp] theorem releaseReset_reg (s : State) : (releaseReset s).reg = s.reg := by
  unfold releaseReset; split <;> rfl

@[simp] theorem releaseReset_rstat (s : State) : (releaseReset s).rstat = s.rstat := by
  unfold releaseReset; split <;> rfl

@[simp] theorem releaseReset_stations (s : State) : (releaseReset s).stations = s.stations := by
  unfold releaseReset; split <;> rfl

@[simp] theorem releaseReset_prog (s : State) : (releaseReset s).prog = s.prog := by
  unfold releaseReset; split <;> rfl

@[simp] theorem releaseReset_next (s : State) : (releaseReset s).next = s.next := by
  unfold releaseReset; split <;> rfl

@[simp] theorem releaseReset_ts (s : State) : (releaseReset s).ts = s.ts := by
  unfold releaseReset; split <;> rfl

@[simp] theorem releaseReset_cycle (s : State) : (releaseReset s).cycle = s.cycle := by
  unfold releaseReset; split <;> rfl

@[simp] theorem releaseReset_fault (s : State) : (releaseReset s).fault = s.fault := by
  unfold releaseReset; split <;> rfl

@[simp] theorem releaseReset_cfg (s : State) : (releaseReset s).cfg = s.cfg := by
  unfold releaseReset; split <;> rfl

@[simp] theorem releaseReset_pins (s : State) : (releaseReset s).pins = s.pins := by
  unfold releaseReset; split <;> rfl

@[simp] theorem releaseReset_draws (s : State) : (releaseReset s).draws = s.draws := by
  unfold releaseReset; split <;> rfl

@[simp] theorem releaseReset_inReset (s : State) : (releaseReset s).inReset = false := by
  unfold releaseReset; split <;> simp_all

@[simp] theorem releaseReset_cfgErr (s : State) :
    (releaseReset s).cfgErr = if s.inReset then admission s else s.cfgErr := by
  unfold releaseReset; split <;> simp_all

/-! ### writeback: the fields it leaves -/

@[simp] theorem writeback_prog (s1 s2 : State) : (writeback s1 s2).prog = s2.prog := rfl

@[simp] theorem writeback_next (s1 s2 : State) : (writeback s1 s2).next = s2.next := rfl

@[simp] theorem writeback_cycle (s1 s2 : State) : (writeback s1 s2).cycle = s2.cycle := rfl

@[simp] theorem writeback_fault (s1 s2 : State) : (writeback s1 s2).fault = s2.fault := rfl

@[simp] theorem writeback_cfg (s1 s2 : State) : (writeback s1 s2).cfg = s2.cfg := rfl

@[simp] theorem writeback_cfgErr (s1 s2 : State) : (writeback s1 s2).cfgErr = s2.cfgErr := rfl

@[simp] theorem writeback_inReset (s1 s2 : State) : (writeback s1 s2).inReset = s2.inReset := rfl

@[simp] theorem writeback_pins (s1 s2 : State) : (writeback s1 s2).pins = s2.pins := rfl

@[simp] theorem writeback_draws (s1 s2 : State) : (writeback s1 s2).draws = s2.draws + 1 := rfl

/-! ### execute: the fields it leaves -/

@[simp] theorem execute_reg (s : State) : (execute s).reg = s.reg := by
  unfold execute; split <;> simp

@[simp] theorem execute_rstat (s : State) : (execute s).rstat = s.rstat := by
  unfold execute; split <;> simp

@[simp] theorem execute_prog (s : State) : (execute s).prog = s.prog := by
  unfold execute; split <;> simp

@[simp] theorem execute_next (s : State) : (execute s).next = s.next := by
  unfold execute; split <;> simp

@[simp] theorem execute_cycle (s : State) : (execute s).cycle = s.cycle := by
  unfold execute; split <;> simp

@[simp] theorem execute_cfg (s : State) : (execute s).cfg = s.cfg := by
  unfold execute; split <;> simp

@[simp] theorem execute_cfgErr (s : State) : (execute s).cfgErr = s.cfgErr := by
  unfold execute; split <;> simp

@[simp] theorem execute_inReset (s : State) : (execute s).inReset = s.inReset := by
  unfold execute; split <;> simp

@[simp] theorem execute_pins (s : State) : (execute s).pins = s.pins := by
  unfold execute; split <;> simp

@[simp] theorem execute_draws (s : State) : (execute s).draws = s.draws := by
  unfold execute; split <;> simp

/-! ### What depends on PROG, N and CFG only -/

theorem progAt_congr {s t : State} (h : s.prog = t.prog) (k : Nat) : progAt s k = progAt t k := by
  simp [progAt, h]

theorem program_congr {s t : State} (h : s.prog = t.prog) (hc : s.cfg = t.cfg) : program s = program t := by
  simp only [program, hc, List.map_inj_left]
  exact fun k _ => progAt_congr h k

theorem admission_congr {s t : State} (h : s.prog = t.prog) (hc : s.cfg = t.cfg) : admission s = admission t := by
  rw [admission, admission, program_congr h hc, hc]

end Sys2Proof.Machine
end

