-- ==== Sys2Proof/Laws/Stages.lean ====
section
/-! SUPPORT. One lemma per shared operation that says once everything it does: the arbiter, Issue, Execute, Writeback and
the cell writes of PROG. Later proofs cite these and do not unfold the operations. -/

namespace Sys2Proof.Machine

/-! ### Stations and partitions -/

theorem stationIs_unique {s : State} {r : Nat} {a b : Station} (ha : stationIs s r a) (hb : stationIs s r b) : a = b :=
  Option.some.inj (ha.symm.trans hb)

theorem timeIs_unique {s : State} {k : Nat} {a b : TimeRec} (ha : timeIs s k a) (hb : timeIs s k b) : a = b :=
  Option.some.inj (ha.symm.trans hb)

theorem mem_partition {c : Cfg} {r : Nat} {k : OpClass} : r ∈ partition c k ↔ classOf c r = some k := by
  unfold partition classOf Cfg.nrs
  cases k <;> simp only [List.mem_range'_1] <;> split <;> (try split) <;> (try split) <;>
    (simp_all; try omega)

theorem isFree_iff {s : State} {r : Nat} : isFree s r = true ↔ ∃ st, stationIs s r st ∧ st.busy = false := by
  unfold isFree stationIs
  split <;> simp_all

/-- The arbiter's station is free, of the class asked for, and the lowest such (R101, R102). -/
theorem arbiter_some {s : State} {k : OpClass} {r : Nat} (h : arbiter s k = some r) :
    classOf s.cfg r = some k ∧ (∃ st, stationIs s r st ∧ st.busy = false) ∧
      ∀ a, a < r → classOf s.cfg a = some k → isFree s a = false := by
  unfold arbiter at h
  refine ⟨mem_partition.1 (List.mem_of_find?_eq_some h), isFree_iff.1 (List.find?_some h), fun a ha hk => ?_⟩
  rw [← mem_partition] at hk
  obtain ⟨-, as, bs, hl, hn⟩ := List.find?_eq_some_iff_append.1 h
  rw [hl, List.mem_append, List.mem_cons] at hk
  have hsorted : (as ++ r :: bs).Pairwise (· < ·) := by
    rw [← hl]; unfold partition; cases k <;> exact List.pairwise_lt_range'
  rcases hk with hk | rfl | hk
  · simpa using hn a hk
  · omega
  · have := (List.pairwise_append.1 hsorted).2.1
    have := (List.pairwise_cons.1 this).1 a hk
    omega

/-- No station is given exactly when every station of the class is busy or missing (R103). -/
theorem arbiter_none {s : State} {k : OpClass} :
    arbiter s k = none ↔ ∀ r, classOf s.cfg r = some k → isFree s r = false := by
  simp [arbiter, List.find?_eq_none, mem_partition]

@[simp] theorem arbiter_advanceCycle (s : State) (k : OpClass) : arbiter (advanceCycle s) k = arbiter s k := rfl

/-! ### Issue -/

/-- Everything Issue can do: nothing, or admission to the arbiter's station (R113). -/
theorem issue_cases (i : Instr) (s : State) :
    issue i s = s ∧ (s.cfg.n ≤ s.next ∨ arbiter s i.op.cls = none) ∨
      ∃ r, s.next < s.cfg.n ∧ arbiter s i.op.cls = some r ∧ issue i s = admitTo i r s := by
  unfold issue
  split
  · exact .inl ⟨rfl, .inl ‹_›⟩
  · split
    · exact .inl ⟨rfl, .inr ‹_›⟩
    · exact .inr ⟨_, by omega, ‹_›, rfl⟩

theorem admitTo_station (i : Instr) (r a : Nat) (s : State) :
    (admitTo i r s).stations[a]? = (s.stations[a]?).map fun st =>
      if r = a then st.fill i.op (resolve s i.rs) (resolve s i.rt) s.next else st := by
  simp [List.getElem?_modify]

theorem admitTo_time (i : Instr) (r k : Nat) (s : State) :
    (admitTo i r s).ts[k]? = (s.ts[k]?).map fun t => if s.next = k then { t with issue := some s.cycle } else t := by
  simp [List.getElem?_modify]

/-! What admission writes into a station (R104, R106). -/

@[simp] theorem fill_busy (op oj ok n st) : (Station.fill op oj ok n st).busy = true := rfl
@[simp] theorem fill_op (op oj ok n st) : (Station.fill op oj ok n st).op = op := rfl
@[simp] theorem fill_inst (op oj ok n st) : (Station.fill op oj ok n st).inst = n := rfl

@[simp] theorem fill_lat (op oj ok n st) : (Station.fill op oj ok n st).lat = st.lat := by
  cases oj <;> cases ok <;> rfl

@[simp] theorem fill_ready (op oj ok n st) : (Station.fill op oj ok n st).ready = st.ready := by
  cases oj <;> cases ok <;> rfl

@[simp] theorem fill_result (op oj ok n st) : (Station.fill op oj ok n st).result = st.result := by
  cases oj <;> cases ok <;> rfl

/-- Operand j of the admitted station is the resolved one (R104). -/
theorem fill_operandJ (op oj ok n st) : (Station.fill op oj ok n st).operandJ = oj := by
  cases oj <;> cases ok <;> rfl

/-- Operand k of the admitted station is the resolved one (R104). -/
theorem fill_operandK (op oj ok n st) : (Station.fill op oj ok n st).operandK = ok := by
  cases oj <;> cases ok <;> rfl

/-! ### Execute -/

/-- Everything Execute can do with a station (R139). -/
theorem execStation_cases (c : Cfg) (st : Station) :
    st.eligible = false ∧ execEvent c st = .idle ∧ execStation c st = st ∨
    st.eligible = true ∧ st.lat + 1 < latency c st.op ∧ execEvent c st = .advance ∧
      execStation c st = { st with lat := st.lat + 1 } ∨
    (∃ v, st.eligible = true ∧ latency c st.op ≤ st.lat + 1 ∧ fOp st.op st.vj st.vk = some v ∧
      execEvent c st = .complete v ∧ execStation c st = { st with result := v, ready := true, lat := 0 }) ∨
    st.eligible = true ∧ latency c st.op ≤ st.lat + 1 ∧ fOp st.op st.vj st.vk = none ∧
      execEvent c st = .divideByZero ∧ execStation c st = st := by
  unfold execStation execEvent
  by_cases he : st.eligible = true
  · by_cases hl : st.lat + 1 < latency c st.op
    · simp [he, hl]
    · cases fOp st.op st.vj st.vk <;> simp [he, hl] <;> omega
  · simp [he]

theorem eligible_iff {st : Station} :
    st.eligible = true ↔ st.busy = true ∧ st.qj = none ∧ st.qk = none ∧ st.ready = false := by
  simp [Station.eligible, and_assoc]

@[simp] theorem execute_stations (s : State) : (execute s).stations = s.stations.map (execStation s.cfg) := by
  unfold execute; split <;> simp

theorem execute_station (s : State) (r : Nat) :
    (execute s).stations[r]? = (s.stations[r]?).map (execStation s.cfg) := by
  simp

@[simp] theorem execute_ts (s : State) :
    (execute s).ts = s.ts.mapIdx (execTime s.cfg s.stations s.cycle) := by
  unfold execute; split <;> simp

theorem execute_time (s : State) (k : Nat) :
    (execute s).ts[k]? = (s.ts[k]?).map (execTime s.cfg s.stations s.cycle k) := by
  simp

/-- FAULT after Execute: kept, or the record of the lowest DIV that expires with divisor 0 (R147, R214). -/
@[simp] theorem execute_fault (s : State) :
    (execute s).fault = s.fault.or (divFault s.cfg s.stations s.cycle) := by
  unfold execute; split <;> simp_all

theorem completes_iff {c : Cfg} {st : Station} : completes c st = true ↔ ∃ v, execEvent c st = .complete v := by
  unfold completes; split <;> simp_all

/-! Execute writes nothing of a station but `lat`, `result` and `ready` (R132, R134). -/

@[simp] theorem execStation_busy (c st) : (execStation c st).busy = st.busy := by
  unfold execStation; split <;> rfl
@[simp] theorem execStation_op (c st) : (execStation c st).op = st.op := by
  unfold execStation; split <;> rfl
@[simp] theorem execStation_inst (c st) : (execStation c st).inst = st.inst := by
  unfold execStation; split <;> rfl
@[simp] theorem execStation_qj (c st) : (execStation c st).qj = st.qj := by
  unfold execStation; split <;> rfl
@[simp] theorem execStation_qk (c st) : (execStation c st).qk = st.qk := by
  unfold execStation; split <;> rfl
@[simp] theorem execStation_vj (c st) : (execStation c st).vj = st.vj := by
  unfold execStation; split <;> rfl
@[simp] theorem execStation_vk (c st) : (execStation c st).vk = st.vk := by
  unfold execStation; split <;> rfl

/-! ### Writeback -/

theorem broadcasts_iff {s : State} {r : Nat} : broadcasts s r = true ↔ ∃ st, stationIs s r st ∧ st.ready = true := by
  unfold broadcasts stationIs
  split <;> simp_all

/-- Bus r carries the result of station r exactly when r is in B (R161). -/
theorem busAt_cdb (s1 s2 : State) (r : Nat) :
    busAt (cdb s1 s2) (some r) = if broadcasts s1 r then (s2.stations[r]?).map (·.result) else none := by
  simp only [busAt, cdb, List.getElem?_mapIdx]
  cases s2.stations[r]? <;> by_cases h : broadcasts s1 r <;> simp [h]

@[simp] theorem busAt_none (bus : List (Option Word)) : busAt bus none = none := rfl

theorem writeback_station (s1 s2 : State) (r : Nat) :
    (writeback s1 s2).stations[r]? = (s2.stations[r]?).map (wbStation s1 s2 r) := by
  simp [writeback]

theorem writeback_stat (s1 s2 : State) (i : Nat) :
    (writeback s1 s2).rstat[i]? = (s2.rstat[i]?).map (clearTag (cdb s1 s2)) := by
  simp [writeback]

theorem writeback_time (s1 s2 : State) (k : Nat) :
    (writeback s1 s2).ts[k]? = (s2.ts[k]?).map (wbTime s1 s2 k) := by
  simp [writeback]

/-- The register file after the tag-match writes, register by register (R163). -/
theorem writeRegs_getElem? (bus : List (Option Word)) (tags : List Tag) (words : List Word) (i : Nat) :
    (writeRegs bus tags words)[i]? = (words[i]?).map fun w => (busAt bus (tags[i]?.getD none)).getD w := by
  induction tags generalizing words i with
  | nil => simp [writeRegs]
  | cons t tags ih =>
    cases words with
    | nil => simp [writeRegs]
    | cons w words => cases i <;> simp [writeRegs, ih]

@[simp] theorem writeRegs_length (bus : List (Option Word)) (tags : List Tag) (words : List Word) :
    (writeRegs bus tags words).length = words.length := by
  induction tags generalizing words with
  | nil => simp [writeRegs]
  | cons t tags ih => cases words <;> simp [writeRegs, ih]

theorem writeback_reg (s1 s2 : State) (i : Nat) :
    (writeback s1 s2).reg[i]? =
      (s2.reg[i]?).map fun w => (busAt (cdb s1 s2) (s2.rstat[i]?.getD none)).getD w :=
  writeRegs_getElem? ..

/-- Which instructions Writeback retires: those of the stations in B (R162). -/
theorem retires_iff {s1 s2 : State} {k : Nat} :
    retires s1 s2 k = true ↔ ∃ r st, stationIs s2 r st ∧ broadcasts s1 r = true ∧ st.inst = k := by
  simp only [retires, List.any_eq_true, List.mem_mapIdx, id, stationIs]
  constructor
  · rintro ⟨_, ⟨r, hr, rfl⟩, h⟩
    simp only [Bool.and_eq_true, beq_iff_eq] at h
    exact ⟨r, _, List.getElem?_eq_getElem hr, h⟩
  · rintro ⟨r, st, hs, hb, hk⟩
    obtain ⟨hr, rfl⟩ := List.getElem?_eq_some_iff.1 hs
    exact ⟨_, ⟨r, hr, rfl⟩, by simp [hb, hk]⟩

/-! Forwarding writes nothing of a station but its operands (R164). -/

@[simp] theorem forwardJ_busy (bus st) : (Station.forwardJ bus st).busy = st.busy := by
  unfold Station.forwardJ; split <;> rfl
@[simp] theorem forwardK_busy (bus st) : (Station.forwardK bus st).busy = st.busy := by
  unfold Station.forwardK; split <;> rfl
@[simp] theorem forwardJ_op (bus st) : (Station.forwardJ bus st).op = st.op := by
  unfold Station.forwardJ; split <;> rfl
@[simp] theorem forwardK_op (bus st) : (Station.forwardK bus st).op = st.op := by
  unfold Station.forwardK; split <;> rfl
@[simp] theorem forwardJ_inst (bus st) : (Station.forwardJ bus st).inst = st.inst := by
  unfold Station.forwardJ; split <;> rfl
@[simp] theorem forwardK_inst (bus st) : (Station.forwardK bus st).inst = st.inst := by
  unfold Station.forwardK; split <;> rfl
@[simp] theorem forwardJ_lat (bus st) : (Station.forwardJ bus st).lat = st.lat := by
  unfold Station.forwardJ; split <;> rfl
@[simp] theorem forwardK_lat (bus st) : (Station.forwardK bus st).lat = st.lat := by
  unfold Station.forwardK; split <;> rfl
@[simp] theorem forwardJ_ready (bus st) : (Station.forwardJ bus st).ready = st.ready := by
  unfold Station.forwardJ; split <;> rfl
@[simp] theorem forwardK_ready (bus st) : (Station.forwardK bus st).ready = st.ready := by
  unfold Station.forwardK; split <;> rfl
@[simp] theorem forwardJ_result (bus st) : (Station.forwardJ bus st).result = st.result := by
  unfold Station.forwardJ; split <;> rfl
@[simp] theorem forwardK_result (bus st) : (Station.forwardK bus st).result = st.result := by
  unfold Station.forwardK; split <;> rfl
@[simp] theorem forwardJ_qk (bus st) : (Station.forwardJ bus st).qk = st.qk := by
  unfold Station.forwardJ; split <;> rfl
@[simp] theorem forwardK_qj (bus st) : (Station.forwardK bus st).qj = st.qj := by
  unfold Station.forwardK; split <;> rfl
@[simp] theorem forwardJ_vk (bus st) : (Station.forwardJ bus st).vk = st.vk := by
  unfold Station.forwardJ; split <;> rfl
@[simp] theorem forwardK_vj (bus st) : (Station.forwardK bus st).vj = st.vj := by
  unfold Station.forwardK; split <;> rfl
@[simp] theorem forwardJ_qj (bus st) : (Station.forwardJ bus st).qj = clearTag bus st.qj := by
  unfold Station.forwardJ clearTag; split <;> simp_all
@[simp] theorem forwardK_qk (bus st) : (Station.forwardK bus st).qk = clearTag bus st.qk := by
  unfold Station.forwardK clearTag; split <;> simp_all
@[simp] theorem forwardJ_vj (bus st) : (Station.forwardJ bus st).vj = (busAt bus st.qj).getD st.vj := by
  unfold Station.forwardJ; split <;> simp_all
@[simp] theorem forwardK_vk (bus st) : (Station.forwardK bus st).vk = (busAt bus st.qk).getD st.vk := by
  unfold Station.forwardK; split <;> simp_all

@[simp] theorem clearTag_none (bus : List (Option Word)) : clearTag bus none = none := by simp [clearTag]

/-- A tag that survives Writeback was not broadcast (R163, R164). -/
theorem clearTag_some {bus : List (Option Word)} {t : Tag} {r : Nat} :
    clearTag bus t = some r ↔ t = some r ∧ busAt bus (some r) = none := by
  unfold clearTag
  split <;> rename_i h
  · simp only [reduceCtorEq, false_iff, not_and]
    rintro rfl hn
    simp [hn] at h
  · constructor
    · rintro rfl; simpa using h
    · exact fun h => h.1

/-! ### The instruction store -/

/-- A cell reads as what was last written to it, and a write leaves every other cell alone. -/
theorem setCell_getElem? (cells : List (Option Decoded)) (k : Nat) (d : Decoded) (j : Nat) :
    ((setCell cells k d)[j]?).getD none = if j = k then some d else (cells[j]?).getD none := by
  induction cells, k, d using setCell.induct generalizing j with
  | case1 d => cases j <;> simp [setCell]
  | case2 k d ih => cases j <;> simp [setCell, ih]
  | case3 _ cells d => cases j <;> simp [setCell]
  | case4 cell cells k d ih => cases j <;> simp [setCell, ih]

/-! ### One step -/

/-- Every instruction's meaning is the head of a cycle (log 1). -/
theorem exec_eq_runHead (i : Instr) (s : State) : exec i s = runHead i s := by
  cases i <;> rfl

theorem exec_next {i : Instr} {s : State} (h : i.wf s.cfg.r = true) : exec i s = .next (issueCycle i s) := by
  rw [exec_eq_runHead, runHead, if_pos h]

/-- Everything a step can do when it gives a next state (R182, R183, R217). -/
theorem step_cases {s t : State} (h : step s = .next t) :
    s.pins.rst = true ∧ t = resetEdge s ∨
    s.pins.rst = false ∧ t = releaseReset s ∧
      ((releaseReset s).cfgErr.isSome = true ∨ halted (releaseReset s) = true ∨ s.pins.en = false) ∨
    s.pins.rst = false ∧ s.pins.en = true ∧ (releaseReset s).cfgErr = none ∧ halted (releaseReset s) = false ∧
      (capReached (releaseReset s) = true ∧
          t = raiseFault (.cycleCapExceeded s.cycle) (releaseReset s) ∨
        capReached (releaseReset s) = false ∧
          ((s.cfg.n ≤ s.next ∧ t = drainCycle (releaseReset s)) ∨
           ∃ i, s.next < s.cfg.n ∧ progAt s s.next = .instr i ∧ i.wf s.cfg.r = true ∧
             t = issueCycle i (releaseReset s))) := by
  unfold step at h
  by_cases hr : s.pins.rst = true
  · left; simpa [edgeAction, hr, eq_comm] using h
  have hr : s.pins.rst = false := by simpa using hr
  right
  unfold edgeAction at h
  simp only [hr, Bool.false_eq_true, if_false] at h
  by_cases h1 : (releaseReset s).cfgErr.isSome = true
  · left
    rw [if_pos h1] at h; cases h
    exact ⟨hr, rfl, .inl h1⟩
  rw [if_neg h1] at h
  by_cases h2 : halted (releaseReset s) = true
  · left
    rw [if_pos h2] at h; cases h
    exact ⟨hr, rfl, .inr (.inl h2)⟩
  rw [if_neg h2, releaseReset_pins] at h
  by_cases h3 : s.pins.en = true
  swap
  · left
    rw [if_pos (by simpa using h3)] at h; cases h
    exact ⟨hr, rfl, .inr (.inr (by simpa using h3))⟩
  rw [if_neg (by simpa using h3)] at h
  right
  refine ⟨hr, h3, by simpa using h1, by simpa using h2, ?_⟩
  by_cases h4 : capReached (releaseReset s) = true
  · left
    rw [if_pos h4] at h; cases h
    exact ⟨h4, by simp⟩
  right
  rw [if_neg h4] at h
  refine ⟨by simpa using h4, ?_⟩
  simp only [runCycle, headSlot, releaseReset_next, releaseReset_cfg, progAt_congr (releaseReset_prog s)] at h
  by_cases h5 : s.next < s.cfg.n
  · right
    rw [if_pos h5] at h
    cases hd : progAt s s.next with
    | illegal why => simp [hd] at h
    | instr i =>
      simp only [hd] at h
      rw [exec_eq_runHead, runHead] at h
      by_cases hw : i.wf s.cfg.r = true
      · rw [if_pos (by simpa using hw)] at h; cases h
        exact ⟨i, h5, rfl, hw, rfl⟩
      · rw [if_neg (by simpa using hw)] at h; cases h
  · left
    rw [if_neg h5] at h; cases h
    exact ⟨by omega, rfl⟩

end Sys2Proof.Machine
end

