-- ==== Sys2Proof/Laws/Invariant.lean ====
section
/-! SUPPORT. The invariants of 10_state.md R40, one operation at a time: the clock, Issue, Execute, Writeback, a reset edge
and the release of rst each keep `Inv`, and a machine with every station free has it. -/

namespace Sys2Proof.Machine

/-- The sizes carry over when no size, index bound or admission input changes. -/
theorem Sized.of_eq {s t : State} (h : Sized s) (h1 : t.reg.length = s.reg.length) (h2 : t.rstat.length = s.rstat.length)
  (h3 : t.stations.length = s.stations.length) (h4 : t.ts.length = s.ts.length) (h5 : t.next ≤ s.cfg.n)
  (h6 : t.cfg = s.cfg) (h7 : t.prog = s.prog) (h8 : t.cfgErr = s.cfgErr) (h9 : t.inReset = s.inReset) : Sized t := by
  constructor
  · rw [h1, h.reg]
  · rw [h2, h.rstat, h6]
  · rw [h3, h.pool, h6]
  · rw [h4, h.ts, h6]
  · rw [h6]; exact h5
  · rw [h9, h8, admission_congr h7 h6]; exact h.checked
  · rw [h9, h8]; exact h.unchecked

/-- Advancing the clock keeps the invariants (R33). -/
theorem advance_inv {s : State} (h : Inv s) : Inv (advanceCycle s) := by
  have hp : ∀ k, progAt (advanceCycle s) k = progAt s k := fun k => rfl
  exact { h with sized := h.sized.of_eq rfl rfl rfl rfl h.sized.next rfl rfl rfl rfl }

/-- An admitted configuration has latencies of at least 1 (R9 WF3). -/
theorem latency_pos {s : State} (ha : admission s = none) (op : Op) : 1 ≤ latency s.cfg op := by
  unfold admission checkConfig at ha
  have : wf3 s.cfg = true := by
    by_contra hc
    rw [Bool.not_eq_true] at hc
    rw [hc] at ha
    split at ha <;> try split at ha
    all_goals simp at ha
  simp only [wf3, decide_eq_true_eq] at this
  cases op <;> simp [latency, Op.cls] <;> omega

/-- Issue keeps the invariants (R114). -/
theorem issue_inv {s : State} {i : Instr} (h : Inv s) (hl : 1 ≤ latency s.cfg i.op) (hi : progAt s s.next = .instr i) :
    Inv (issue i s) := by
  rcases issue_cases i s with ⟨e, -⟩ | ⟨r, hn, har, e⟩
  · rw [e]; exact h
  rw [e]
  obtain ⟨hcls, ⟨st0, hst0, hb0⟩, -⟩ := arbiter_some har
  have h11 := h.inv11 r st0 hst0 hb0
  have hp : ∀ k, progAt (admitTo i r s) k = progAt s k := fun k => rfl
  -- station description
  have hstat : ∀ a st, stationIs (admitTo i r s) a st → (a ≠ r ∧ stationIs s a st) ∨
      (a = r ∧ st = st0.fill i.op (resolve s i.rs) (resolve s i.rt) s.next) := by
    intro a st ha
    simp only [stationIs, admitTo_station] at ha
    by_cases hra : r = a
    · subst hra; simp [hst0] at ha; exact .inr ⟨rfl, ha.symm⟩
    · left; refine ⟨Ne.symm hra, ?_⟩; simpa [hra] using ha
  have hstat' : ∀ a st, occupied s a st → occupied (admitTo i r s) a st := by
    rintro a st ⟨ha, hb⟩
    have : r ≠ a := by rintro rfl; have := stationIs_unique ha hst0; simp_all
    refine ⟨?_, hb⟩
    simp only [stationIs, admitTo_station]; simp [this]; exact ha
  have hnew : occupied (admitTo i r s) r (st0.fill i.op (resolve s i.rs) (resolve s i.rt) s.next) := by
    refine ⟨?_, rfl⟩
    simp only [stationIs, admitTo_station]; rw [hst0]; simp
  have hmap : ∀ j p, mapped (admitTo i r s) j p → mapped s j p ∨ (j = i.rd.toNat ∧ p = r) := by
    intro j p hj
    simp only [mapped, admitTo_rstat, List.getElem?_set] at hj
    split at hj
    · split at hj
      · right; simp at hj; subst hj; simp_all
      · cases hj
    · exact .inl hj
  have hmap' : ∀ j p, mapped (admitTo i r s) j p → p = r → j = i.rd.toNat := by
    intro j p hj hp
    rcases hmap j p hj with h1 | h1
    · obtain ⟨st, hs, hb⟩ := h.inv1Rstat j p h1
      subst hp; have := stationIs_unique hs hst0; simp_all
    · exact h1.1
  have htime : ∀ k t, timeIs (admitTo i r s) k t → ∃ t0, timeIs s k t0 ∧ t.ebegin = t0.ebegin ∧ t.eend = t0.eend ∧ t.wb = t0.wb ∧
      ((k ≠ s.next ∧ t = t0) ∨ (k = s.next ∧ t.issue ≠ none)) := by
    intro k t hk
    simp only [timeIs, admitTo_time, Option.map_eq_some_iff] at hk
    obtain ⟨t0, ht0, rfl⟩ := hk
    refine ⟨t0, ht0, ?_⟩
    by_cases hk : s.next = k
    · simp [hk]
    · simp [hk, Ne.symm hk]
  have htime' : ∀ k t, timeIs s k t → ∃ t', timeIs (admitTo i r s) k t' ∧ t'.ebegin = t.ebegin ∧ t'.eend = t.eend ∧ t'.wb = t.wb ∧
      (t.issue ≠ none → t'.issue ≠ none) := by
    intro k t hk
    simp only [timeIs, admitTo_time]
    rw [hk]; simp; split <;> simp
  have hts : ∃ t, timeIs s s.next t := by
    have := h.sized.ts
    exact ⟨_, List.getElem?_eq_getElem (by omega)⟩
  -- operand j/k of new station
  have hqj : ∀ p, (st0.fill i.op (resolve s i.rs) (resolve s i.rt) s.next).qj = some p → mapped s i.rs.toNat p := by
    intro p; unfold resolve readStat
    cases h1 : s.rstat[i.rs.toNat]?.getD none with
    | none => cases h2 : s.rstat[i.rt.toNat]?.getD none <;> simp [Station.fill, Station.placeJ, Station.placeK, h11]
    | some q =>
      have : mapped s i.rs.toNat q := by
        unfold mapped; cases h3 : s.rstat[i.rs.toNat]? <;> simp_all
      cases h2 : s.rstat[i.rt.toNat]?.getD none <;> simp [Station.fill, Station.placeJ, Station.placeK] <;> rintro rfl <;> exact this
  have hqk : ∀ p, (st0.fill i.op (resolve s i.rs) (resolve s i.rt) s.next).qk = some p → mapped s i.rt.toNat p := by
    intro p; unfold resolve readStat
    cases h1 : s.rstat[i.rt.toNat]?.getD none with
    | none => cases h2 : s.rstat[i.rs.toNat]?.getD none <;> simp [Station.fill, Station.placeJ, Station.placeK, h11]
    | some q =>
      have : mapped s i.rt.toNat q := by
        unfold mapped; cases h3 : s.rstat[i.rt.toNat]? <;> simp_all
      cases h2 : s.rstat[i.rs.toNat]?.getD none <;> simp [Station.fill, Station.placeJ, Station.placeK] <;> rintro rfl <;> exact this
  have hsold : ∀ p sp, stationIs (admitTo i r s) p sp → (∃ st, occupied s p st) → occupied s p sp := by
    rintro p sp h1 ⟨st, h2⟩
    have := hstat' p st h2
    have : st = sp := by
      have h3 := this.1; unfold stationIs at h1 h3; rw [h1] at h3; exact (Option.some.inj h3).symm
    subst this; exact h2
  exact
  { sized := h.sized.of_eq (by simp) (by simp) (by simp) (by simp) (by simp; omega) rfl rfl rfl rfl
    inv1Rstat := by
      intro j p hj
      rcases hmap j p hj with h1 | ⟨-, rfl⟩
      · obtain ⟨st, hs⟩ := h.inv1Rstat j p h1; exact ⟨st, hstat' _ _ hs⟩
      · exact ⟨_, hnew⟩
    inv1Qj := by
      intro a sa p ha hq
      rcases hstat a sa ha with ⟨-, h1⟩ | ⟨rfl, rfl⟩
      · obtain ⟨st, hs⟩ := h.inv1Qj a sa p h1 hq; exact ⟨st, hstat' _ _ hs⟩
      · obtain ⟨st, hs⟩ := h.inv1Rstat _ p (hqj p hq); exact ⟨st, hstat' _ _ hs⟩
    inv1Qk := by
      intro a sa p ha hq
      rcases hstat a sa ha with ⟨-, h1⟩ | ⟨rfl, rfl⟩
      · obtain ⟨st, hs⟩ := h.inv1Qk a sa p h1 hq; exact ⟨st, hstat' _ _ hs⟩
      · obtain ⟨st, hs⟩ := h.inv1Rstat _ p (hqk p hq); exact ⟨st, hstat' _ _ hs⟩
    inv2 := by
      intro j p st hj hs
      rcases hstat p st hs with ⟨hne, h1⟩ | ⟨rfl, rfl⟩
      · rcases hmap j p hj with h2 | ⟨-, rfl⟩
        · exact h.inv2 j p st h2 h1
        · exact absurd rfl hne
      · exact ⟨i, by simpa [hp] using hi, (hmap' _ _ hj rfl).symm⟩
    inv3 := by
      intro j k p hj hk
      by_cases hpr : p = r
      · rw [hmap' j p hj hpr, hmap' k p hk hpr]
      · rcases hmap j p hj with h1 | ⟨-, h1⟩
        · rcases hmap k p hk with h2 | ⟨-, h2⟩
          · exact h.inv3 j k p h1 h2
          · exact absurd h2 hpr
        · exact absurd h1 hpr
    inv4 := by
      rintro a b sa sb ⟨ha, hba⟩ ⟨hb, hbb⟩ hab
      rcases hstat a sa ha with ⟨_, h1⟩ | ⟨rfl, rfl⟩ <;> rcases hstat b sb hb with ⟨_, h2⟩ | ⟨rfl, rfl⟩
      · exact h.inv4 a b sa sb ⟨h1, hba⟩ ⟨h2, hbb⟩ hab
      · have := h.inv5Next a sa ⟨h1, hba⟩; simp at hab; omega
      · have := h.inv5Next b sb ⟨h2, hbb⟩; simp at hab; omega
      · rfl
    inv5Next := by
      rintro a st ⟨ha, hb⟩
      rcases hstat a st ha with ⟨_, h1⟩ | ⟨rfl, rfl⟩
      · have := h.inv5Next a st ⟨h1, hb⟩; simp; omega
      · simp
    inv5Time := by
      rintro a st ⟨ha, hb⟩
      rcases hstat a st ha with ⟨_, h1⟩ | ⟨rfl, rfl⟩
      · obtain ⟨t, h2, h3, h4⟩ := h.inv5Time a st ⟨h1, hb⟩
        obtain ⟨t', h5, -, -, h6, h7⟩ := htime' _ _ h2
        exact ⟨t', h5, h7 h3, by rw [h6, h4]⟩
      · obtain ⟨t, ht⟩ := hts
        have := h.inv10After _ _ le_rfl ht
        simp only [fill_inst, timeIs, admitTo_time]
        rw [ht]; simp [this]
    inv5Op := by
      rintro a st ⟨ha, hb⟩
      rcases hstat a st ha with ⟨_, h1⟩ | ⟨rfl, rfl⟩
      · exact h.inv5Op a st ⟨h1, hb⟩
      · exact ⟨i, hi, rfl, hcls⟩
    inv6Qj := by
      rintro a sa p sp ⟨ha, hb⟩ hq hsp
      rcases hstat a sa ha with ⟨_, h1⟩ | ⟨rfl, rfl⟩
      · exact h.inv6Qj a sa p sp ⟨h1, hb⟩ hq (hsold p sp hsp (h.inv1Qj a sa p h1 hq)).1
      · exact h.inv5Next p sp (hsold p sp hsp (h.inv1Rstat _ p (hqj p hq)))
    inv6Qk := by
      rintro a sa p sp ⟨ha, hb⟩ hq hsp
      rcases hstat a sa ha with ⟨_, h1⟩ | ⟨rfl, rfl⟩
      · exact h.inv6Qk a sa p sp ⟨h1, hb⟩ hq (hsold p sp hsp (h.inv1Qk a sa p h1 hq)).1
      · exact h.inv5Next p sp (hsold p sp hsp (h.inv1Rstat _ p (hqk p hq)))
    inv7 := by
      intro a st ha hr
      rcases hstat a st ha with ⟨_, h1⟩ | ⟨rfl, rfl⟩
      · exact h.inv7 a st h1 hr
      · simp [h11] at hr
    inv7Time := by
      intro a st ha hr
      rcases hstat a st ha with ⟨_, h1⟩ | ⟨rfl, rfl⟩
      · obtain ⟨t, h2, h3⟩ := h.inv7Time a st h1 hr
        obtain ⟨t', h5, -, h6, -, -⟩ := htime' _ _ h2
        exact ⟨t', h5, by rw [h6]; exact h3⟩
      · simp [h11] at hr
    inv8 := by
      rintro a st ⟨ha, hb⟩ hq
      rcases hstat a st ha with ⟨_, h1⟩ | ⟨rfl, rfl⟩
      · obtain ⟨h0, t, h2, h3⟩ := h.inv8 a st ⟨h1, hb⟩ hq
        obtain ⟨t', h5, h6, -⟩ := htime' _ _ h2
        exact ⟨h0, t', h5, by rw [h6]; exact h3⟩
      · obtain ⟨t, ht⟩ := hts
        have := h.inv10After _ _ le_rfl ht
        obtain ⟨t', h5, h6, -⟩ := htime' _ _ ht
        exact ⟨by simp [h11], t', h5, by rw [h6, this]⟩
    inv9 := by
      rintro a st ⟨ha, hb⟩
      rcases hstat a st ha with ⟨_, h1⟩ | ⟨rfl, rfl⟩
      · exact h.inv9 a st ⟨h1, hb⟩
      · simp [h11]; omega
    inv10After := by
      intro k t hk ht
      simp at hk
      obtain ⟨t0, h0, -, -, -, ⟨h1, rfl⟩ | ⟨h1, -⟩⟩ := htime k t ht
      · exact h.inv10After k _ (by omega) h0
      · omega
    inv10Before := by
      intro k t hk ht
      simp at hk
      obtain ⟨t0, h0, -, -, -, ⟨h1, rfl⟩ | ⟨h1, h2⟩⟩ := htime k t ht
      · exact h.inv10Before k _ (by omega) h0
      · exact h2
    inv11 := by
      intro a st ha hb
      rcases hstat a st ha with ⟨_, h1⟩ | ⟨rfl, rfl⟩
      · exact h.inv11 a st h1 hb
      · simp at hb
    inv12 := by
      rintro a st t ⟨ha, hb⟩ h1 h2 h3 ht
      rcases hstat a st ha with ⟨hne, hs⟩ | ⟨rfl, rfl⟩
      · obtain ⟨t0, h0, h4, -⟩ := htime _ t ht
        rw [h4]
        exact h.inv12 a st t0 ⟨hs, hb⟩ h1 h2 h3 h0
      · left
        obtain ⟨t0, h0, h4, -⟩ := htime _ t ht
        have := h.inv10After _ _ le_rfl h0
        simp [h4, this, h11]
    inFlight := by
      intro k t hk ht hw
      simp at hk
      obtain ⟨t0, h0, -, -, hw0, ⟨h1, rfl⟩ | ⟨h1, h2⟩⟩ := htime k t ht
      · obtain ⟨a, st, ho, hi⟩ := h.inFlight k _ (by omega) h0 hw
        exact ⟨a, st, hstat' _ _ ho, hi⟩
      · exact ⟨r, _, hnew, by simp [h1]⟩ }

/-- Execute keeps the invariants (R139). -/
theorem execute_inv {s : State} (h : Inv s) (hl : ∀ op, 1 ≤ latency s.cfg op) (hf : s.fault = none) : Inv (execute s) := by
  have hp : ∀ k, progAt (execute s) k = progAt s k := fun k => progAt_congr (by simp) k
  have hstat : ∀ a st, stationIs (execute s) a st → ∃ st0, stationIs s a st0 ∧ st = execStation s.cfg st0 := by
    intro a st ha
    simp only [stationIs, execute_station, Option.map_eq_some_iff] at ha
    obtain ⟨st0, h1, rfl⟩ := ha
    exact ⟨st0, h1, rfl⟩
  have hocc : ∀ a st, occupied (execute s) a st → ∃ st0, occupied s a st0 ∧ st = execStation s.cfg st0 := by
    rintro a st ⟨ha, hb⟩
    obtain ⟨st0, h1, rfl⟩ := hstat a st ha
    exact ⟨st0, ⟨h1, by simpa using hb⟩, rfl⟩
  have hocc' : ∀ a st, occupied s a st → occupied (execute s) a (execStation s.cfg st) := by
    rintro a st ⟨ha, hb⟩
    exact ⟨by simp only [stationIs, execute_station]; rw [ha]; rfl, by simpa using hb⟩
  have hmap : ∀ j p, mapped (execute s) j p ↔ mapped s j p := by intro j p; simp [mapped]
  have htime : ∀ k t, timeIs (execute s) k t → ∃ t0, timeIs s k t0 ∧ t = execTime s.cfg s.stations s.cycle k t0 := by
    intro k t hk
    simp only [timeIs, execute_time, Option.map_eq_some_iff] at hk
    obtain ⟨t0, h1, rfl⟩ := hk
    exact ⟨t0, h1, rfl⟩
  have htime' : ∀ k t, timeIs s k t → timeIs (execute s) k (execTime s.cfg s.stations s.cycle k t) := by
    intro k t hk
    simp only [timeIs, execute_time]; rw [hk]; rfl
  have hel : ∀ k, s.stations.any (fun st => st.eligible && st.inst == k) = true ↔ ∃ a st, occupied s a st ∧ st.eligible = true ∧ st.inst = k := by
    intro k
    simp only [List.any_eq_true, Bool.and_eq_true, beq_iff_eq]
    constructor
    · rintro ⟨st, hm, h1, h2⟩
      obtain ⟨a, ha, rfl⟩ := List.mem_iff_getElem.1 hm
      exact ⟨a, _, ⟨List.getElem?_eq_getElem ha, (eligible_iff.1 h1).1⟩, h1, h2⟩
    · rintro ⟨a, st, ⟨h0, -⟩, h1, h2⟩
      exact ⟨st, List.mem_of_getElem? h0, h1, h2⟩
  have hco : ∀ k, s.stations.any (fun st => completes s.cfg st && st.inst == k) = true ↔ ∃ a st, occupied s a st ∧ completes s.cfg st = true ∧ st.inst = k := by
    intro k
    simp only [List.any_eq_true, Bool.and_eq_true, beq_iff_eq]
    constructor
    · rintro ⟨st, hm, h1, h2⟩
      obtain ⟨a, ha, rfl⟩ := List.mem_iff_getElem.1 hm
      have : (s.stations[a]).eligible = true := by
        obtain ⟨v, hv⟩ := completes_iff.1 h1
        rcases execStation_cases s.cfg s.stations[a] with h3 | h3 | ⟨_, h3⟩ | h3 <;> simp_all
      exact ⟨a, _, ⟨List.getElem?_eq_getElem ha, (eligible_iff.1 this).1⟩, h1, h2⟩
    · rintro ⟨a, st, ⟨h0, -⟩, h1, h2⟩
      exact ⟨st, List.mem_of_getElem? h0, h1, h2⟩
  exact
  { sized := h.sized.of_eq (by simp) (by simp) (by simp) (by simp) (by simpa using h.sized.next) (by simp) (by simp) (by simp) (by simp)
    inv1Rstat := by
      intro j p hj
      obtain ⟨st, hs⟩ := h.inv1Rstat j p ((hmap j p).1 hj); exact ⟨_, hocc' _ _ hs⟩
    inv1Qj := by
      intro a sa p ha hq
      obtain ⟨st0, h1, rfl⟩ := hstat a sa ha
      obtain ⟨st, hs⟩ := h.inv1Qj a st0 p h1 (by simpa using hq); exact ⟨_, hocc' _ _ hs⟩
    inv1Qk := by
      intro a sa p ha hq
      obtain ⟨st0, h1, rfl⟩ := hstat a sa ha
      obtain ⟨st, hs⟩ := h.inv1Qk a st0 p h1 (by simpa using hq); exact ⟨_, hocc' _ _ hs⟩
    inv2 := by
      intro j p st hj hs
      obtain ⟨st0, h1, rfl⟩ := hstat p st hs
      simpa [hp] using h.inv2 j p st0 ((hmap j p).1 hj) h1
    inv3 := by
      intro j k p hj hk
      exact h.inv3 j k p ((hmap j p).1 hj) ((hmap k p).1 hk)
    inv4 := by
      intro a b sa sb ha hb hab
      obtain ⟨sa, h1, rfl⟩ := hocc a sa ha
      obtain ⟨sb, h2, rfl⟩ := hocc b sb hb
      exact h.inv4 a b sa sb h1 h2 (by simpa using hab)
    inv5Next := by
      intro a st ha
      obtain ⟨st, h1, rfl⟩ := hocc a st ha
      simpa using h.inv5Next a st h1
    inv5Time := by
      intro a st ha
      obtain ⟨st, h1, rfl⟩ := hocc a st ha
      obtain ⟨t, h2, h3, h4⟩ := h.inv5Time a st h1
      exact ⟨_, by simpa using htime' _ _ h2, by simpa [execTime] using h3, by simpa [execTime] using h4⟩
    inv5Op := by
      intro a st ha
      obtain ⟨st, h1, rfl⟩ := hocc a st ha
      simpa [hp] using h.inv5Op a st h1
    inv6Qj := by
      intro a sa p sp ha hq hsp
      obtain ⟨sa, h1, rfl⟩ := hocc a sa ha
      obtain ⟨sp, h2, rfl⟩ := hstat p sp hsp
      simpa using h.inv6Qj a sa p sp h1 (by simpa using hq) h2
    inv6Qk := by
      intro a sa p sp ha hq hsp
      obtain ⟨sa, h1, rfl⟩ := hocc a sa ha
      obtain ⟨sp, h2, rfl⟩ := hstat p sp hsp
      simpa using h.inv6Qk a sa p sp h1 (by simpa using hq) h2
    inv7 := by
      intro a st ha hr
      obtain ⟨st, h1, rfl⟩ := hstat a st ha
      rcases execStation_cases s.cfg st with ⟨_, _, h2⟩ | ⟨h0, _, _, h2⟩ | ⟨v, h0, _, _, _, h2⟩ | ⟨h0, _, _, _, h2⟩ <;> rw [h2] at hr ⊢
      · exact h.inv7 a st h1 hr
      · simp [eligible_iff] at h0; simp_all
      · simp [eligible_iff] at h0; simp_all
      · exact h.inv7 a st h1 hr
    inv7Time := by
      intro a st ha hr
      obtain ⟨st, h1, rfl⟩ := hstat a st ha
      have key : st.ready = true ∨ completes s.cfg st = true := by
        rcases execStation_cases s.cfg st with ⟨_, _, h2⟩ | ⟨h0, _, _, h2⟩ | ⟨v, h0, _, _, h3, h2⟩ | ⟨h0, _, _, _, h2⟩ <;> rw [h2] at hr
        · exact .inl hr
        · exact .inl hr
        · exact .inr (completes_iff.2 ⟨v, h3⟩)
        · exact .inl hr
      rcases key with h2 | h2
      · obtain ⟨t, h3, h4⟩ := h.inv7Time a st h1 h2
        refine ⟨_, by simpa using htime' _ _ h3, ?_⟩
        simp [execTime]; split <;> simp_all
      · have hb : st.busy = true := by
          obtain ⟨v, hv⟩ := completes_iff.1 h2
          rcases execStation_cases s.cfg st with h3 | h3 | ⟨_, h3⟩ | h3 <;> simp_all [eligible_iff]
        obtain ⟨t, h3, -⟩ := h.inv5Time a st ⟨h1, hb⟩
        refine ⟨_, by simpa using htime' _ _ h3, ?_⟩
        have := (hco st.inst).2 ⟨a, st, ⟨h1, hb⟩, h2, rfl⟩
        simp only [execTime, this]; simp
    inv8 := by
      intro a st ha hq
      obtain ⟨st, h1, rfl⟩ := hocc a st ha
      simp only [execStation_qj, execStation_qk] at hq
      have hne : st.eligible = false := by
        cases he : st.eligible
        · rfl
        · simp [eligible_iff] at he; simp_all
      obtain ⟨h2, t, h3, h4⟩ := h.inv8 a st h1 hq
      constructor
      · rcases execStation_cases s.cfg st with h5 | h5 | ⟨_, h5⟩ | h5 <;> simp_all
      · refine ⟨_, by simpa using htime' _ _ h3, ?_⟩
        have : s.stations.any (fun x => x.eligible && x.inst == st.inst) ≠ true := by
          rw [Ne, hel]
          rintro ⟨b, sb, h5, h6, h7⟩
          have := h.inv4 _ _ _ _ h5 h1 h7
          subst this
          have := stationIs_unique h5.1 h1.1
          simp_all
        simp only [execTime]; simp [this, h4]
    inv9 := by
      intro a st ha
      obtain ⟨st, h1, rfl⟩ := hocc a st ha
      have := h.inv9 a st h1
      have := hl st.op
      simp only [execute_cfg, execStation_op]
      rcases execStation_cases s.cfg st with ⟨_, _, h2⟩ | ⟨h0, _, _, h2⟩ | ⟨v, h0, _, _, _, h2⟩ | ⟨h0, _, _, _, h2⟩ <;> rw [h2] <;> simp <;> omega
    inv10After := by
      intro k t hk ht
      obtain ⟨t, h1, rfl⟩ := htime k t ht
      simp at hk
      have := h.inv10After k t hk h1
      have h2 : s.stations.any (fun x => x.eligible && x.inst == k) ≠ true := by
        rw [Ne, hel]; rintro ⟨b, sb, h5, h6, h7⟩
        have := h.inv5Next _ _ h5; omega
      have h3 : s.stations.any (fun x => completes s.cfg x && x.inst == k) ≠ true := by
        rw [Ne, hco]; rintro ⟨b, sb, h5, h6, h7⟩
        have := h.inv5Next _ _ h5; omega
      simp only [execTime]; simp [h2, h3, this]
    inv10Before := by
      intro k t hk ht
      obtain ⟨t, h1, rfl⟩ := htime k t ht
      exact h.inv10Before k t (by simpa using hk) h1
    inv11 := by
      intro a st ha hb
      obtain ⟨st, h1, rfl⟩ := hstat a st ha
      have hb : st.busy = false := by simpa using hb
      have := h.inv11 a st h1 hb
      have he : st.eligible = false := by simp [Station.eligible, hb]
      rcases execStation_cases s.cfg st with ⟨_, _, h5⟩ | ⟨h5, _⟩ | ⟨_, h5, _⟩ | ⟨h5, _⟩
      · rw [h5]; exact this
      all_goals simp [he] at h5
    inv12 := by
      intro a st t ha hj hk hr ht
      obtain ⟨st, h1, rfl⟩ := hocc a st ha
      obtain ⟨t, h2, rfl⟩ := htime _ t ht
      simp only [execStation_inst] at h2
      simp only [execStation_qj, execStation_qk, execStation_inst, execStation_op, execStation_vk, execute_cfg] at *
      rcases execStation_cases s.cfg st with ⟨h0, _, h5⟩ | ⟨h0, _, _, h5⟩ | ⟨v, h0, _, _, _, h5⟩ | ⟨h0, h6, h7, h8, h5⟩ <;> rw [h5] at hr ⊢
      · simp [Station.eligible, h1.2, hj, hk, hr] at h0
      · have he := (hel st.inst).2 ⟨a, st, h1, h0, rfl⟩
        left
        simp only [execTime, he]
        cases t.ebegin <;> simp
      · simp at hr
      · have he := (hel st.inst).2 ⟨a, st, h1, h0, rfl⟩
        have hL := h.inv9 a st h1
        have hdiv : st.op = .div ∧ st.vk.toNat = 0 := by
          cases hop : st.op <;> simp [fOp, hop] at h7
          unfold fDiv at h7; split at h7 <;> simp_all
        have hfault : dividedByZero (execute s) := by
          unfold dividedByZero; rw [execute_fault, hf]
          unfold divFault
          split
          · rename_i hn
            rw [List.findIdx?_eq_none_iff] at hn
            have := hn st (List.mem_of_getElem? h1.1)
            simp [h8] at this
          · simp
        by_cases h0' : st.lat = 0
        · right
          refine ⟨?_, hfault, hdiv⟩
          have := hl .div
          rw [hdiv.1] at h6 hL
          simp [latency, Op.cls] at *
          omega
        · left
          simp only [execTime, he]
          cases t.ebegin <;> simp [h0']
    inFlight := by
      intro k t hk ht hw
      obtain ⟨t, h1, rfl⟩ := htime _ t ht
      obtain ⟨a, st, ho, hi⟩ := h.inFlight k t (by simpa using hk) h1 (by simpa [execTime] using hw)
      exact ⟨a, _, hocc' _ _ ho, by simpa using hi⟩ }

/-- What Writeback needs of the states it receives: every station of B still holds, in S2, what it held in S1 (R160,
R168). -/
structure WB (s1 s2 : State) : Prop where
  inv : Inv s2
  b : ∀ r, broadcasts s1 r = true → ∃ st, occupied s2 r st ∧ st.ready = true ∧ stationIs s1 r st

/-- Execute leaves the stations of B alone (R135, R168). -/
theorem wb_of {s1 : State} (h2 : Inv (execute s1)) : WB s1 (execute s1) where
  inv := h2
  b := by
    intro r hb
    obtain ⟨st, hs, hr⟩ := broadcasts_iff.1 hb
    have hs' : stationIs (execute s1) r st := by
      simp only [stationIs, execute_station]; rw [hs]
      have he : st.eligible = false := by simp [Station.eligible, hr]
      rcases execStation_cases s1.cfg st with ⟨_, _, h5⟩ | ⟨h5, _⟩ | ⟨_, h5, _⟩ | ⟨h5, _⟩
      · simp [h5]
      all_goals simp [he] at h5
    exact ⟨st, ⟨hs', (h2.inv7 r st hs' hr).1⟩, hr, hs⟩

/-- A busy station's bus is idle exactly when it is not in B (R161). -/
theorem bus_none {s1 s2 : State} {r : Nat} (h : ∃ st, occupied s2 r st) :
    busAt (cdb s1 s2) (some r) = none ↔ broadcasts s1 r = false := by
  obtain ⟨st, h⟩ := h
  rw [busAt_cdb]
  have := h.1
  unfold stationIs at this
  cases hb : broadcasts s1 r <;> simp [this]

/-- Writeback keeps the invariants (R169). -/
theorem writeback_inv {s1 s2 : State} (w : WB s1 s2) : Inv (writeback s1 s2) := by
  have h := w.inv
  have hp : ∀ k, progAt (writeback s1 s2) k = progAt s2 k := fun k => rfl
  -- stations after
  have hstat : ∀ a st, stationIs (writeback s1 s2) a st →
      ∃ st0, stationIs s2 a st0 ∧ st = wbStation s1 s2 a st0 := by
    intro a st ha
    simp only [stationIs, writeback_station, Option.map_eq_some_iff] at ha
    obtain ⟨st0, h1, rfl⟩ := ha
    exact ⟨st0, h1, rfl⟩
  have hocc : ∀ a st, occupied (writeback s1 s2) a st → ∃ st0, occupied s2 a st0 ∧ broadcasts s1 a = false ∧
      st = (st0.forwardJ (cdb s1 s2)).forwardK (cdb s1 s2) := by
    rintro a st ⟨ha, hb⟩
    obtain ⟨st0, h1, rfl⟩ := hstat a st ha
    unfold wbStation at hb ⊢
    split at hb
    · simp [Station.release, Station.unspecified] at hb
    · rename_i hn
      rw [if_neg hn]
      exact ⟨st0, ⟨h1, by simpa using hb⟩, by simpa using hn, rfl⟩
  have hocc' : ∀ a st, occupied s2 a st → broadcasts s1 a = false →
      occupied (writeback s1 s2) a ((st.forwardJ (cdb s1 s2)).forwardK (cdb s1 s2)) := by
    rintro a st ⟨ha, hb⟩ hn
    refine ⟨?_, by simpa using hb⟩
    simp only [stationIs, writeback_station]; rw [ha]; simp [wbStation, hn]
  have hmap : ∀ j p, mapped (writeback s1 s2) j p → mapped s2 j p ∧ broadcasts s1 p = false := by
    intro j p hj
    simp only [mapped, writeback_stat, Option.map_eq_some_iff] at hj
    obtain ⟨t, h1, h2⟩ := hj
    obtain ⟨rfl, h3⟩ := clearTag_some.1 h2
    exact ⟨h1, (bus_none (h.inv1Rstat j p h1)).1 h3⟩
  have htime : ∀ k t, timeIs (writeback s1 s2) k t → ∃ t0, timeIs s2 k t0 ∧ t = wbTime s1 s2 k t0 := by
    intro k t hk
    simp only [timeIs, writeback_time, Option.map_eq_some_iff] at hk
    obtain ⟨t0, h1, rfl⟩ := hk
    exact ⟨t0, h1, rfl⟩
  have htime' : ∀ k t, timeIs s2 k t → timeIs (writeback s1 s2) k (wbTime s1 s2 k t) := by
    intro k t hk
    simp only [timeIs, writeback_time]; rw [hk]; rfl
  have hret : ∀ a st, occupied s2 a st → broadcasts s1 a = false → retires s1 s2 st.inst = false := by
    intro a st ho hn
    rw [← Bool.not_eq_true, retires_iff]
    rintro ⟨r, sr, h1, h2, h3⟩
    obtain ⟨st', h4, -⟩ := w.b r h2
    have := stationIs_unique h1 h4.1
    subst this
    have := h.inv4 _ _ _ _ h4 ho h3
    subst this; simp_all
  have hqj : ∀ a sa p, occupied s2 a sa → ((sa.forwardJ (cdb s1 s2)).forwardK (cdb s1 s2)).qj = some p →
      sa.qj = some p ∧ broadcasts s1 p = false := by
    intro a sa p ho hq
    simp only [forwardK_qj, forwardJ_qj] at hq
    obtain ⟨h1, h3⟩ := clearTag_some.1 hq
    exact ⟨h1, (bus_none (h.inv1Qj a sa p ho.1 h1)).1 h3⟩
  have hqk : ∀ a sa p, occupied s2 a sa → ((sa.forwardJ (cdb s1 s2)).forwardK (cdb s1 s2)).qk = some p →
      sa.qk = some p ∧ broadcasts s1 p = false := by
    intro a sa p ho hq
    simp only [forwardK_qk, forwardJ_qk] at hq
    obtain ⟨h1, h3⟩ := clearTag_some.1 hq
    exact ⟨h1, (bus_none (h.inv1Qk a sa p ho.1 h1)).1 h3⟩
  -- a free station after writeback has no tags
  have hfree : ∀ a st, stationIs (writeback s1 s2) a st → st.busy = false →
      st.ready = false ∧ st.lat = 0 ∧ st.qj = none ∧ st.qk = none := by
    intro a st ha hb
    obtain ⟨st0, h1, rfl⟩ := hstat a st ha
    unfold wbStation at hb ⊢
    split at hb
    · rename_i hbr
      rw [if_pos hbr]
      obtain ⟨st', h4, h5, -⟩ := w.b a hbr
      have := stationIs_unique h1 h4.1
      subst this
      have := h.inv7 a _ h1 h5
      simp [Station.release, Station.unspecified, this]
    · rename_i hbr
      rw [if_neg hbr]
      have := h.inv11 a st0 h1 (by simpa using hb)
      simp [this]
  have htag : ∀ a sa, stationIs (writeback s1 s2) a sa → (sa.qj ≠ none ∨ sa.qk ≠ none) → sa.busy = true := by
    intro a sa ha hq
    by_contra hb
    have := hfree a sa ha (by simpa using hb)
    simp_all
  exact
  { sized := h.sized.of_eq (by simp [writeback]) (by simp [writeback]) (by simp [writeback]) (by simp [writeback]) (by simpa using h.sized.next) rfl rfl rfl rfl
    inv1Rstat := by
      intro j p hj
      obtain ⟨h1, h2⟩ := hmap j p hj
      obtain ⟨st, hs⟩ := h.inv1Rstat j p h1; exact ⟨_, hocc' _ _ hs h2⟩
    inv1Qj := by
      intro a sa p ha hq
      obtain ⟨st0, h1, -, rfl⟩ := hocc a sa ⟨ha, htag a sa ha (by simp [hq])⟩
      obtain ⟨h2, h3⟩ := hqj a _ p h1 hq
      obtain ⟨st, hs⟩ := h.inv1Qj a st0 p h1.1 h2; exact ⟨_, hocc' _ _ hs h3⟩
    inv1Qk := by
      intro a sa p ha hq
      obtain ⟨st0, h1, -, rfl⟩ := hocc a sa ⟨ha, htag a sa ha (by simp [hq])⟩
      obtain ⟨h2, h3⟩ := hqk a _ p h1 hq
      obtain ⟨st, hs⟩ := h.inv1Qk a st0 p h1.1 h2; exact ⟨_, hocc' _ _ hs h3⟩
    inv2 := by
      intro j p st hj hs
      obtain ⟨h1, h2⟩ := hmap j p hj
      obtain ⟨st0, h3, rfl⟩ := hstat p st hs
      simpa [hp, wbStation, h2] using h.inv2 j p st0 h1 h3
    inv3 := by
      intro j k p hj hk
      exact h.inv3 j k p (hmap j p hj).1 (hmap k p hk).1
    inv4 := by
      intro a b sa sb ha hb hab
      obtain ⟨sa, h1, -, rfl⟩ := hocc a sa ha
      obtain ⟨sb, h2, -, rfl⟩ := hocc b sb hb
      exact h.inv4 a b sa sb h1 h2 (by simpa using hab)
    inv5Next := by
      intro a st ha
      obtain ⟨st, h1, -, rfl⟩ := hocc a st ha
      simpa using h.inv5Next a st h1
    inv5Time := by
      intro a st ha
      obtain ⟨st, h1, hn, rfl⟩ := hocc a st ha
      obtain ⟨t, h2, h3, h4⟩ := h.inv5Time a st h1
      exact ⟨_, by simpa using htime' _ _ h2, by simpa [wbTime] using h3, by simp [wbTime, h4, hret a st h1 hn]⟩
    inv5Op := by
      intro a st ha
      obtain ⟨st, h1, -, rfl⟩ := hocc a st ha
      simpa [hp] using h.inv5Op a st h1
    inv6Qj := by
      intro a sa p sp ha hq hsp
      obtain ⟨sa, h1, -, rfl⟩ := hocc a sa ha
      obtain ⟨h3, h4⟩ := hqj a _ p h1 hq
      obtain ⟨sp, h2, rfl⟩ := hstat p sp hsp
      simpa [wbStation, h4] using h.inv6Qj a sa p sp h1 h3 h2
    inv6Qk := by
      intro a sa p sp ha hq hsp
      obtain ⟨sa, h1, -, rfl⟩ := hocc a sa ha
      obtain ⟨h3, h4⟩ := hqk a _ p h1 hq
      obtain ⟨sp, h2, rfl⟩ := hstat p sp hsp
      simpa [wbStation, h4] using h.inv6Qk a sa p sp h1 h3 h2
    inv7 := by
      intro a st ha hr
      have hb : st.busy = true := by
        by_contra hb
        have := hfree a st ha (by simpa using hb)
        simp_all
      obtain ⟨st, h1, -, rfl⟩ := hocc a st ⟨ha, hb⟩
      have := h.inv7 a st h1.1 (by simpa using hr)
      simp [this]
    inv7Time := by
      intro a st ha hr
      have hb : st.busy = true := by
        by_contra hb
        have := hfree a st ha (by simpa using hb)
        simp_all
      obtain ⟨st, h1, -, rfl⟩ := hocc a st ⟨ha, hb⟩
      obtain ⟨t, h2, h3⟩ := h.inv7Time a st h1.1 (by simpa using hr)
      exact ⟨_, by simpa using htime' _ _ h2, by simpa [wbTime] using h3⟩
    inv8 := by
      intro a st ha hq
      obtain ⟨st, h1, -, rfl⟩ := hocc a st ha
      have hq' : st.qj ≠ none ∨ st.qk ≠ none := by
        rcases hq with hq | hq
        · obtain ⟨p, hq⟩ := Option.ne_none_iff_exists'.1 hq
          left; rw [(hqj a _ p h1 hq).1]; simp
        · obtain ⟨p, hq⟩ := Option.ne_none_iff_exists'.1 hq
          right; rw [(hqk a _ p h1 hq).1]; simp
      obtain ⟨h2, t, h3, h4⟩ := h.inv8 a st h1 hq'
      exact ⟨by simpa using h2, _, by simpa using htime' _ _ h3, by simpa [wbTime] using h4⟩
    inv9 := by
      intro a st ha
      obtain ⟨st, h1, -, rfl⟩ := hocc a st ha
      simpa using h.inv9 a st h1
    inv10After := by
      intro k t hk ht
      obtain ⟨t, h1, rfl⟩ := htime k t ht
      have h2 := h.inv10After k t hk h1
      have h3 : retires s1 s2 k = false := by
        rw [← Bool.not_eq_true, retires_iff]
        rintro ⟨r, sr, h4, h5, h6⟩
        obtain ⟨st', h7, -⟩ := w.b r h5
        have := stationIs_unique h4 h7.1
        subst this
        have := h.inv5Next _ _ h7
        simp at hk; omega
      simp [wbTime, h3, h2]
    inv10Before := by
      intro k t hk ht
      obtain ⟨t, h1, rfl⟩ := htime k t ht
      exact h.inv10Before k t hk h1
    inv11 := hfree
    inv12 := by
      intro a st t ha hj hk hr ht
      obtain ⟨st, h1, hn, rfl⟩ := hocc a st ha
      obtain ⟨t, h2, rfl⟩ := htime _ t ht
      simp only [forwardK_inst, forwardJ_inst] at h2
      simp only [forwardK_ready, forwardJ_ready] at hr
      by_cases hq : st.qj = none ∧ st.qk = none
      · have := h.inv12 a st t h1 hq.1 hq.2 hr h2
        simpa [wbTime, hq.1, hq.2, dividedByZero] using this
      · have hq' : st.qj ≠ none ∨ st.qk ≠ none := by
            by_cases h0 : st.qj = none
            · exact .inr fun h3 => hq ⟨h0, h3⟩
            · exact .inl h0
        obtain ⟨h3, t', h4, h5⟩ := h.inv8 a st h1 hq'
        have := timeIs_unique h4 h2
        subst this
        left; simp [wbTime, h3, h5]
    inFlight := by
      intro k t hk ht hw
      obtain ⟨t, h1, rfl⟩ := htime _ t ht
      have hw0 : t.wb = none := by
        simp only [wbTime] at hw
        cases h3 : t.wb
        · rfl
        · simp [h3] at hw
      obtain ⟨a, st, ho, hi⟩ := h.inFlight k t hk h1 hw0
      have hn : broadcasts s1 a = false := by
        cases hb : broadcasts s1 a
        · rfl
        · have : retires s1 s2 k = true := retires_iff.2 ⟨a, st, ho.1, hb, hi⟩
          simp [wbTime, hw0, this] at hw
      exact ⟨a, _, hocc' _ _ ho hn, by simpa using hi⟩ }

/-- Execute and Writeback together keep the invariants (R180). -/
theorem finishCycle_inv {s : State} (h : Inv s) (hl : ∀ op, 1 ≤ latency s.cfg op) (hf : s.fault = none) :
    Inv (finishCycle s) :=
  writeback_inv (wb_of (execute_inv h hl hf))

/-- A reset edge establishes the invariants (R240). -/
theorem reset_inv (s : State) (h : s.reg.length = 256) : Inv (resetEdge s) := by
  have hst : ∀ a st, stationIs (resetEdge s) a st → st = Station.unspecified s.pins.cfg.toCfg s.draws a := by
    intro a st ha
    simp only [stationIs, resetEdge_stations, List.getElem?_map, Option.map_eq_some_iff] at ha
    obtain ⟨b, h1, rfl⟩ := ha
    obtain ⟨h2, rfl⟩ := List.getElem?_eq_some_iff.1 h1
    simp
  have hno : ∀ a st, ¬ occupied (resetEdge s) a st := by
    rintro a st ⟨h1, h2⟩
    rw [hst a st h1] at h2; simp [Station.unspecified] at h2
  have hmap : ∀ i r, ¬ mapped (resetEdge s) i r := by
    intro i r h1
    simp [mapped, List.getElem?_replicate] at h1
  have htime : ∀ k t, timeIs (resetEdge s) k t → t = {} := by
    intro k t h1
    simp only [timeIs, resetEdge_ts, List.getElem?_replicate] at h1
    split at h1
    · exact (Option.some.inj h1).symm
    · cases h1
  exact
  { sized :=
      { reg := by simp [loadReg]; split <;> simp [h]
        rstat := by simp
        pool := by simp
        ts := by simp
        next := by simp
        checked := by simp
        unchecked := by simp }
    inv1Rstat := fun i r h => (hmap i r h).elim
    inv1Qj := by intro a sa r h1 h2; rw [hst a sa h1] at h2; simp [Station.unspecified] at h2
    inv1Qk := by intro a sa r h1 h2; rw [hst a sa h1] at h2; simp [Station.unspecified] at h2
    inv2 := fun i r st h => (hmap i r h).elim
    inv3 := fun i j r h => (hmap i r h).elim
    inv4 := fun a b sa sb h => (hno _ _ h).elim
    inv5Next := fun r st h => (hno _ _ h).elim
    inv5Time := fun r st h => (hno _ _ h).elim
    inv5Op := fun r st h => (hno _ _ h).elim
    inv6Qj := fun a sa p sp h => (hno _ _ h).elim
    inv6Qk := fun a sa p sp h => (hno _ _ h).elim
    inv7 := by intro r st h1 h2; rw [hst r st h1] at h2; simp [Station.unspecified] at h2
    inv7Time := by intro r st h1 h2; rw [hst r st h1] at h2; simp [Station.unspecified] at h2
    inv8 := fun r st h => (hno _ _ h).elim
    inv9 := fun r st h => (hno _ _ h).elim
    inv10After := fun k t _ h => htime k t h
    inv10Before := by intro k t h1; simp at h1
    inv11 := by intro r st h1 h2; rw [hst r st h1]; simp [Station.unspecified]
    inv12 := fun r st t h => (hno _ _ h).elim
    inFlight := by intro k t h1; simp at h1 }

/-- The release of rst keeps the invariants (R210). -/
theorem release_inv {s : State} (h : Inv s) : Inv (releaseReset s) := by
  have hs : Sized (releaseReset s) :=
    { reg := by simp [h.sized.reg]
      rstat := by simp [h.sized.rstat]
      pool := by simp [h.sized.pool]
      ts := by simp [h.sized.ts]
      next := by simp [h.sized.next]
      checked := by
        intro _
        rw [admission_congr (t := s) (by simp) (by simp)]
        simp only [releaseReset_cfgErr]
        split
        · rfl
        · exact h.sized.checked (by simpa using ‹¬ s.inReset = true›)
      unchecked := by simp }
  unfold releaseReset at hs ⊢
  split
  · rename_i hr; simp only [hr, if_true] at hs
    exact { h with sized := hs }
  · exact h

/-- A machine with every station free and nothing issued has the invariants (R29, R240). -/
theorem pristine_inv {s : State} (hs : Sized s) (hr : s.rstat = List.replicate s.cfg.r none)
    (hf : ∀ st ∈ s.stations, st.busy = false ∧ st.ready = false ∧ st.lat = 0 ∧ st.qj = none ∧ st.qk = none)
    (hn : s.next = 0) (ht : s.ts = List.replicate s.cfg.n {}) : Inv s := by
  have hst : ∀ a st, stationIs s a st → st.busy = false ∧ st.ready = false ∧ st.lat = 0 ∧ st.qj = none ∧ st.qk = none :=
    fun _ st h => hf st (List.mem_of_getElem? h)
  have hno : ∀ a st, ¬ occupied s a st := fun a st ⟨h1, h2⟩ => by
    rw [(hst a st h1).1] at h2; cases h2
  have hmap : ∀ i r, ¬ mapped s i r := by intro i r h; simp [mapped, hr, List.getElem?_replicate] at h
  have htime : ∀ k t, timeIs s k t → t = {} := by
    intro k t h
    simp only [timeIs, ht, List.getElem?_replicate] at h
    split at h
    · exact (Option.some.inj h).symm
    · cases h
  exact
  { sized := hs
    inv1Rstat := fun i r h => (hmap i r h).elim
    inv1Qj := fun a sa r h1 h2 => by simp [(hst a sa h1).2.2.2.1] at h2
    inv1Qk := fun a sa r h1 h2 => by simp [(hst a sa h1).2.2.2.2] at h2
    inv2 := fun i r st h => (hmap i r h).elim
    inv3 := fun i j r h => (hmap i r h).elim
    inv4 := fun a b sa sb h => (hno _ _ h).elim
    inv5Next := fun r st h => (hno _ _ h).elim
    inv5Time := fun r st h => (hno _ _ h).elim
    inv5Op := fun r st h => (hno _ _ h).elim
    inv6Qj := fun a sa p sp h => (hno _ _ h).elim
    inv6Qk := fun a sa p sp h => (hno _ _ h).elim
    inv7 := fun r st h1 h2 => by simp [(hst r st h1).2.1] at h2
    inv7Time := fun r st h1 h2 => by simp [(hst r st h1).2.1] at h2
    inv8 := fun r st h => (hno _ _ h).elim
    inv9 := fun r st h => (hno _ _ h).elim
    inv10After := fun k t _ h => htime k t h
    inv10Before := fun k t h => by omega
    inv11 := fun r st h1 _ => (hst r st h1).2
    inv12 := fun r st t h => (hno _ _ h).elim
    inFlight := fun k t h => by omega }

/-- A cycle with the head instruction of an admitted program keeps the invariants (R180). -/
theorem issueCycle_inv {i : Instr} {s : State} (h : AtHead i s) : Inv (issueCycle i s) := by
  have hl := fun op => latency_pos h.admitted op
  have h1 : Inv (issue i (advanceCycle s)) := issue_inv (advance_inv h.inv) (hl _) h.head
  rcases issue_cases i (advanceCycle s) with ⟨e, _⟩ | ⟨r, _, _, e⟩ <;>
    exact finishCycle_inv h1 (by rw [e]; exact hl) (by rw [e]; exact h.noFault)

end Sys2Proof.Machine
end

