-- ==== Sys2Proof/Laws/PerInstr.lean ====
section
/-! SUPPORT. Facts stated instruction by instruction: the fields of an instruction's word (30_encoding.md R82, R83,
R84). -/

namespace Sys2Proof.Laws.EncodingFields

/-- Every field of the word of `i` is where R82 puts it, and the reserved bits are 0. -/
def Statement (i : Instr) : Prop :=
  wordOp (encode i) = i.op.field ∧ wordZ (encode i) = 0#4 ∧ wordRd (encode i) = i.rd ∧
    wordRs (encode i) = i.rs ∧ wordRt (encode i) = i.rt

/-- The five fields of a word that is the concatenation of five fields (R82). -/
theorem fields (op z : BitVec 4) (rd rs rt : RegIx) :
    let w : InstrWord := op ++ (z ++ (rd ++ (rs ++ rt)))
    wordOp w = op ∧ wordZ w = z ∧ wordRd w = rd ∧ wordRs w = rs ∧ wordRt w = rt := by
  refine ⟨?_, ?_, ?_, ?_, ?_⟩ <;>
  · apply BitVec.eq_of_getLsbD_eq
    intro k hk
    simp only [wordOp, wordZ, wordRd, wordRs, wordRt, BitVec.getLsbD_extractLsb', BitVec.getLsbD_append]
    interval_cases k <;> simp

theorem add (rd rs rt : RegIx) : Statement (.add rd rs rt) := fields ..

theorem sub (rd rs rt : RegIx) : Statement (.sub rd rs rt) := fields ..

theorem mult (rd rs rt : RegIx) : Statement (.mult rd rs rt) := fields ..

theorem div (rd rs rt : RegIx) : Statement (.div rd rs rt) := fields ..

end Sys2Proof.Laws.EncodingFields
end

