-- ==== Sys2Proof/Laws/Widths.lean ====
section
/-! SUPPORT. The widths of 00_scope.md R8 hold what their lines carry: the derived widths of the configuration pins, of
station and instruction indices, and of the latency counter (43_cycle_and_interface.md R185). -/

namespace Sys2Proof

/-- ceil(log2 k) bits count up to k. -/
theorem le_two_pow_ceilLog2 (k : Nat) : k ≤ 2 ^ ceilLog2 k := by
  unfold ceilLog2
  split
  · simpa using ‹k ≤ 1›
  · have := @Nat.lt_log2_self (k - 1)
    omega

/-- An index width counts up to n. -/
theorem le_two_pow_indexWidth (n : Nat) : n ≤ 2 ^ indexWidth n :=
  (le_two_pow_ceilLog2 n).trans (Nat.pow_le_pow_right (by decide) (Nat.le_max_right ..))

/-- Every instruction index below N fits IW bits (R8). -/
theorem inst_lt_two_pow {c : Cfg} {k : Nat} (h : k < c.n) : k < 2 ^ c.instWidth :=
  h.trans_le (le_two_pow_indexWidth c.n)

/-- Every station index fits TW bits (R8). -/
theorem station_lt_two_pow {c : Cfg} {r : Nat} (h : r < c.nrs) : r < 2 ^ c.tagWidth :=
  h.trans_le (le_two_pow_indexWidth c.nrs)

/-- NEXT and N fit IW+1 bits (R8). -/
theorem next_lt_two_pow {c : Cfg} {k : Nat} (h : k ≤ c.n) : k < 2 ^ (c.instWidth + 1) := by
  have := h.trans (le_two_pow_indexWidth c.n)
  have h2 : 0 < 2 ^ c.instWidth := Nat.two_pow_pos _
  rw [Nat.pow_succ]
  unfold Cfg.instWidth at *
  omega

/-- Every number up to a latency fits LW bits (R8). -/
theorem lat_lt_two_pow {c : Cfg} {k : Nat} (h : k ≤ max c.la (max c.lm c.ld)) : k < 2 ^ c.latWidth :=
  (Nat.lt_succ_of_le h).trans_le (le_two_pow_ceilLog2 _)

namespace Machine

/-! The lines of the configuration pins carry their values (R185). -/

@[simp] theorem laLine_toNat (p : CfgPins) : p.laLine.toNat = p.la :=
  Nat.mod_eq_of_lt (lat_lt_two_pow (c := p.toCfg) (Nat.le_max_left ..))

@[simp] theorem lmLine_toNat (p : CfgPins) : p.lmLine.toNat = p.lm :=
  Nat.mod_eq_of_lt (lat_lt_two_pow (c := p.toCfg) ((Nat.le_max_left ..).trans (Nat.le_max_right ..)))

@[simp] theorem ldLine_toNat (p : CfgPins) : p.ldLine.toNat = p.ld :=
  Nat.mod_eq_of_lt (lat_lt_two_pow (c := p.toCfg) ((Nat.le_max_right ..).trans (Nat.le_max_right ..)))

@[simp] theorem nLine_toNat (p : CfgPins) : p.nLine.toNat = p.n :=
  Nat.mod_eq_of_lt (next_lt_two_pow (c := p.toCfg) (Nat.le_refl _))

/-- The sampled counts are those of lines of 8 and 9 bits (R185). -/
theorem toCfg_bounds (p : CfgPins) :
    p.toCfg.na < 2 ^ 8 ∧ p.toCfg.nm < 2 ^ 8 ∧ p.toCfg.nd < 2 ^ 8 ∧ p.toCfg.r < 2 ^ 9 :=
  ⟨p.na.isLt, p.nm.isLt, p.nd.isLt, p.r.isLt⟩

end Machine

end Sys2Proof
end

