-- ==== Sys2Proof/Tests/Slice0.lean ====
section
/-! SUPPORT. Tests: ill-formed terms each check refuses, words written out from 30_encoding.md, the test vectors of
95_test_vectors.md, and one witness for the hypotheses of each statement of Certificates/Slice0/Obligations.lean. -/

set_option maxRecDepth 20000

namespace Sys2Proof.Tests

open Sys2Proof.Machine

/-! ### Well-formedness: each check refuses an ill-formed term (00_scope.md R9, 30_encoding.md R85) -/

/-- rd = R (CFG-1's shape). -/
theorem test_wf1_refuses_destination : Instr.wf 8 (.add 8 1 2) = false := by decide

theorem test_wf1_refuses_source_j : Instr.wf 8 (.sub 7 8 2) = false := by decide

theorem test_wf1_refuses_source_k : Instr.wf 8 (.div 7 7 8) = false := by decide

theorem test_wf1_accepts_last_register : Instr.wf 8 (.mult 7 7 7) = true := by decide

/-- 95_test_vectors.md section 2: each row that is illegal under R = 8. -/
theorem test_words_refused :
    [0x00FF00FF#32, 0x00080102#32, 0x40010203#32, 0xF0000000#32, 0x01010203#32, 0x31070000#32].all
      (fun w => !wordLegal 8 w) = true := by decide

/-- The same section: 0x00FF00FF is legal under R = 256. -/
theorem test_word_of_last_registers : decode 256 0x00FF00FF#32 = .instr (.add 255 0 255) := by decide

/-- CFG_A and P1 of 95_test_vectors.md. -/
def p1 : List Decoded := [decodeWord 0x00010203#32, decodeWord 0x00040105#32]

/-- P2 of 95_test_vectors.md. -/
def p2 : List Decoded :=
  [decodeWord 0x20010203#32, decodeWord 0x00010203#32, decodeWord 0x30040102#32, decodeWord 0x10050403#32,
    decodeWord 0x20060202#32]

/-- CFG-1. -/
theorem test_wf1_code :
    checkConfig 32 (Cfg.refA 2) [decodeWord 0x00010203#32, decodeWord 0x00080102#32] = some .registerIndex := by decide

/-- CFG-2 and CFG-3. -/
theorem test_wf2_code :
    checkConfig 32 (Cfg.refA 3) (p1 ++ [decodeWord 0x40010203#32]) = some .operation ∧
      checkConfig 32 (Cfg.refA 3) (p1 ++ [decodeWord 0x01010203#32]) = some .operation := by decide

/-- CFG-4, and CFG-10: the lowest failing check. -/
theorem test_wf3_code :
    checkConfig 32 { Cfg.refA 2 with la := 0 } p1 = some .latency ∧
      checkConfig 32 { Cfg.refA 5 with la := 0, nm := 0 } p2 = some .latency := by decide

/-- CFG-5 and CFG-6. -/
theorem test_wf4_code :
    checkConfig 32 { Cfg.refA 5 with nm := 0 } p2 = some .noStation ∧
      checkConfig 32 { Cfg.refA 2 with nm := 0 } p1 = none := by decide

/-- CFG-7, CFG-8 and CFG-9. -/
theorem test_wf5_code :
    checkConfig 32 { Cfg.refA 2 with r := 300 } p1 = some .registerCount ∧
      checkConfig 32 { Cfg.refA 2 with r := 0 } p1 = some .registerIndex ∧
      checkConfig 32 { Cfg.refA 0 with r := 0 } [] = some .registerCount := by decide

/-- CFG-11 and CFG-12. -/
theorem test_wf6_code :
    checkConfig 6 (Cfg.refA 5) p2 = some .cycleBound ∧ checkConfig 32 (Cfg.refA 5) p2 = none := by decide

/-! ### Decoding: words written out field by field, op z rd rs rt (30_encoding.md R82, R83) -/

theorem test_decode_add : decodeTableWord 32 0b0000_0000_00000001_00000010_00000011 = some (.add 1 2 3) := by decide

theorem test_decode_sub : decodeTableWord 32 0b0001_0000_00000101_00000100_00000011 = some (.sub 5 4 3) := by decide

theorem test_decode_mult : decodeTableWord 32 0b0010_0000_00000110_00000010_00000010 = some (.mult 6 2 2) := by decide

theorem test_decode_div : decodeTableWord 32 0b0011_0000_00000100_00000001_00000010 = some (.div 4 1 2) := by decide

theorem test_encode_words :
    encode (.add 4 1 5) = 0x00040105#32 ∧ encode (.sub 5 4 3) = 0x10050403#32 ∧
      encode (.mult 6 2 2) = 0x20060202#32 ∧ encode (.div 4 1 2) = 0x30040102#32 := by decide

/-- The source's first scenario instruction in both forms (R87). -/
theorem test_assembler_forms :
    assembleLine 8 "ADD R1, R2, R3".toList = some (.add 1 2 3) ∧ assembleLine 8 "R1=R2+R3".toList = some (.add 1 2 3) ∧
      assembleLine 8 "DIV R4, R1, R8".toList = none := by decide

/-! ### The four functions: rows of 95_test_vectors.md section 4 -/

theorem test_add_wraps :
    fOp .add 0x7FFFFFFF#32 1#32 = some 0x80000000#32 ∧ fOp .add 0xFFFFFFFB#32 3#32 = some 0xFFFFFFFE#32 := by decide

theorem test_sub_order :
    fOp .sub 3#32 5#32 = some 0xFFFFFFFE#32 ∧ fOp .sub 0x7FFFFFFF#32 0xFFFFFFFF#32 = some 0x80000000#32 := by decide

theorem test_mult_low_half :
    fOp .mult 0x12345678#32 0x9ABCDEF0#32 = some 0x242D2080#32 ∧
      fOp .mult 0xFFFFFFFD#32 5#32 = some 0xFFFFFFF1#32 := by decide

theorem test_div_truncates :
    fOp .div 0xFFFFFFF9#32 2#32 = some 0xFFFFFFFD#32 ∧ fOp .div 7#32 0xFFFFFFFE#32 = some 0xFFFFFFFD#32 ∧
      fOp .div 0x80000000#32 0xFFFFFFFF#32 = some 0x80000000#32 ∧ fOp .div 7#32 0#32 = none := by decide

/-! ### Small machines -/

/-- The state at the end of the boot sequence with the first registers loaded (R241). -/
def boot (c : Cfg) (ws : List InstrWord) (regs : List Word) : State :=
  { State.reset with
    reg := regs ++ List.replicate (256 - regs.length) 0
    rstat := List.replicate c.r none
    stations := List.replicate c.nrs Station.atReset
    prog := ws.map fun w => some (decodeWord w)
    ts := List.replicate c.n {}
    cfg := c }

theorem boot_sized (c : Cfg) (ws : List InstrWord) (regs : List Word) (h : regs.length ≤ 256) : Sized (boot c ws regs) where
  reg := by simp [boot]; omega
  rstat := by simp [boot]
  pool := by simp [boot]
  ts := by simp [boot]
  next := Nat.zero_le _
  checked := fun h => by cases h
  unchecked := fun _ => rfl

theorem boot_free (c : Cfg) (ws : List InstrWord) (regs : List Word) : ∀ st ∈ (boot c ws regs).stations,
    st.busy = false ∧ st.ready = false ∧ st.lat = 0 ∧ st.qj = none ∧ st.qk = none := by
  intro st h
  rw [List.eq_of_mem_replicate (show st ∈ List.replicate c.nrs Station.atReset from h)]
  exact ⟨rfl, rfl, rfl, rfl, rfl⟩

theorem boot_inv (c : Cfg) (ws : List InstrWord) (regs : List Word) (h : regs.length ≤ 256) : Inv (boot c ws regs) :=
  pristine_inv (boot_sized c ws regs h) rfl (boot_free c ws regs) rfl rfl

theorem boot_booted (c : Cfg) (ws : List InstrWord) (regs : List Word) (h : regs.length ≤ 256)
    (ha : admission (boot c ws regs) = none) (hm : c.maxCycles = none) : Booted (boot c ws regs) where
  inReset := rfl
  cfgErr := rfl
  admitted := ha
  reg := (boot_sized c ws regs h).reg
  rstat := rfl
  pool := (boot_sized c ws regs h).pool
  free := boot_free c ws regs
  next := rfl
  ts := rfl
  cycle := rfl
  fault := rfl
  noCap := hm
  running := ⟨rfl, rfl⟩

theorem boot_last_alone (c : Cfg) (w : InstrWord) (i : Instr) (regs : List Word) (h : regs.length ≤ 256)
    (hn : c.n = 1) (hm : c.maxCycles = none) (hi : decodeWord w = .instr i) (hw : i.wf c.r = true)
    (hl : 1 ≤ latency c i.op) (hs : 1 ≤ stationCount c i.op.cls) :
    LastAlone i { boot c [w] regs with inReset := false } where
  running := ⟨rfl, rfl, rfl, rfl⟩
  noFault := ⟨rfl, hm⟩
  reg := (boot_sized c [w] regs h).reg
  rstat := rfl
  pool := (boot_sized c [w] regs h).pool
  free := boot_free c [w] regs
  last := hn.symm
  ts := (boot_sized c [w] regs h).ts
  retired := fun k _ hk => absurd hk (Nat.not_lt_zero k)
  head := ⟨by simp [boot, progAt, State.reset, hi], by simp [boot, State.reset, hn]⟩
  wf := hw
  latency := hl
  station := hs

/-- The pins of State.reset give its configuration. -/
theorem test_reset_pins : resetPins.toCfg = resetCfg := by decide

/-- Two ADD stations, one MULT and one DIV station, latencies 1, 3 and 1, four registers. -/
def small (n : Nat) : Cfg := { na := 2, nm := 1, nd := 1, la := 1, lm := 3, ld := 1, r := 4, n := n }

/-- `ADD R1,R2,R3; ADD R1,R1,R1; MULT R0,R1,R2` from R2 = 5, R3 = 6. -/
def a0 : State := boot (small 3) [0x00010203#32, 0x00010101#32, 0x20000102#32] [0, 0, 5, 6]

/-- After its first cycle: station 0 is ready. -/
def a1 : State := issueCycle (.add 1 2 3) a0

/-- `MULT R1,R2,R3; ADD R0,R1,R2; ADD R3,R2,R1` from R2 = 5, R3 = 6. -/
def b0 : State := boot (small 3) [0x20010203#32, 0x00000102#32, 0x00030201#32] [0, 0, 5, 6]

/-- After one cycle: the MULT runs in station 2. -/
def b1 : State := issueCycle (.mult 1 2 3) b0

/-- After two cycles: station 0 waits for station 2. -/
def b2 : State := issueCycle (.add 0 1 2) b1

/-- `SUB R1,R2,R3`. -/
def c0 : State := boot (small 1) [0x10010203#32] [0, 0, 5, 6]

/-- `DIV R1,R2,R0` with R0 = 0. -/
def d0 : State := boot (small 1) [0x30010200#32] [0, 0, 5, 6]

/-- `DIV R1,R2,R0` with R0 = 0, after Issue of its first cycle. -/
def d1 : State := issue (.div 1 2 0) (advanceCycle d0)

theorem a0_head : AtHead (.add 1 2 3) a0 := ⟨boot_inv _ _ _ (by decide), by decide, by decide, by decide, by decide⟩

theorem a1_head : AtHead (.add 1 1 1) a1 := ⟨issueCycle_inv a0_head, by decide, by decide, by decide, by decide⟩

theorem b0_head : AtHead (.mult 1 2 3) b0 := ⟨boot_inv _ _ _ (by decide), by decide, by decide, by decide, by decide⟩

theorem b1_head : AtHead (.add 0 1 2) b1 := ⟨issueCycle_inv b0_head, by decide, by decide, by decide, by decide⟩

theorem b2_head : AtHead (.add 3 2 1) b2 := ⟨issueCycle_inv b1_head, by decide, by decide, by decide, by decide⟩

theorem c0_head : AtHead (.sub 1 2 3) c0 := ⟨boot_inv _ _ _ (by decide), by decide, by decide, by decide, by decide⟩

theorem d0_head : AtHead (.div 1 2 0) d0 := ⟨boot_inv _ _ _ (by decide), by decide, by decide, by decide, by decide⟩

theorem d1_inv : Inv d1 := issue_inv (advance_inv d0_head.inv) (by decide) (by decide)

/-- Station fields written out for tests. -/
def stn (op : Op) (vj vk : Word) (qj qk : Tag) (lat : Nat) (result : Word) (ready : Bool) (inst : Nat) : Station :=
  { busy := true, op, vj, vk, qj, qk, lat, result, ready, inst }

theorem a1_station0 : stationIs a1 0 (stn .add 5 6 none none 0 11 true 0) := by decide

theorem b1_station2 : stationIs b1 2 (stn .mult 5 6 none none 1 0 false 0) := by decide

theorem b2_station0 : stationIs b2 0 (stn .add 0 5 (some 2) none 0 0 false 1) := by decide

theorem b2_station2 : stationIs b2 2 (stn .mult 5 6 none none 2 0 false 0) := by decide

theorem d1_station3 : stationIs d1 3 (stn .div 5 0 none none 0 0 false 0) := by decide

/-! ### One step: vectors of 95_test_vectors.md -/

/-- P1 under CFG_A. -/
def vP1 : State := boot (Cfg.refA 2) [0x00010203#32, 0x00040105#32] [0, 0, 10, 20, 0, 7, 0, 0]

/-- The next state of an outcome, for tests on its fields. -/
def field {α : Type} (f : State → α) : Host.Outcome State Fault Refusal → Option α
  | .next s => some (f s)
  | _ => none

/-- ISS-1: RS[0] = ADD(10, 20), lat 1 at the end of the cycle, R1→0, TS[0] = (1, 1, –, –), NEXT = 1. -/
theorem test_add_first_cycle :
    field (fun s => (s.stations[0]?, s.rstat[1]?, s.ts[0]?, s.next)) (step vP1) =
      some (some (stn .add 10 20 none none 1 0 false 0), some (some 0),
        some { issue := some 1, ebegin := some 1, eend := none, wb := none }, 1) := by decide

/-- EX-6, end of cycle 1: with LA = 1 the station is ready, and has not broadcast. -/
theorem test_add_latency_one :
    field (fun s => (s.stations[0]?, s.reg[1]?, s.rstat[1]?))
        (exec (.add 1 2 3) (boot { Cfg.refA 2 with la := 1 } [0x00010203#32, 0x10040102#32] [0, 0, 5, 6])) =
      some (some (stn .add 5 6 none none 0 0x0B true 0), some 0, some (some 0)) := by decide

/-- ISS-9's shape: SUB draws on the ADD partition; rs is operand j (R84). -/
theorem test_sub_issues_to_add_partition :
    field (fun s => (s.stations[0]?, s.rstat[1]?)) (exec (.sub 1 2 3) c0) =
      some (some (stn .sub 5 6 none none 0 0xFFFFFFFF true 0), some (some 0)) := by decide

/-- WB-4, cycle 5's shape: the old producer's value never reaches the renamed register. -/
theorem test_add_rename_beats_broadcast :
    field (fun s => (s.reg[1]?, s.rstat[1]?)) (exec (.add 1 1 1) a1) = some (some 0, some (some 1)) := by decide

/-- P2, cycle 1: MULT issues to tag 4. -/
theorem test_mult_first_cycle :
    field (fun s => (s.stations[4]?, s.rstat[1]?))
        (exec (.mult 1 2 3) (boot (Cfg.refA 1) [0x20010203#32] [0, 100, 6, 7])) =
      some (some (stn .mult 6 7 none none 1 0 false 0), some (some 4)) := by decide

/-- FLT-4: with LD = 1, DivideByZero(0, 5, 1), and RS[5] = DIV(9, 0) lat 0 not ready. -/
theorem test_div_by_zero_latency_one :
    field (fun s => (s.fault, s.stations[5]?, s.ts[0]?))
        (exec (.div 2 1 0) (boot { Cfg.refA 1 with ld := 1 } [0x30020100#32] [0, 9])) =
      some (some (.divideByZero 0 5 1), some (stn .div 9 0 none none 0 0 false 0),
        some { issue := some 1, ebegin := some 1, eend := none, wb := none }) := by decide

/-! ### Witnesses: a concrete state and operands for the hypotheses of each statement -/

theorem witness_LegalWordIsTheEncodingOfItsInstruction : decode 8 0x30040102#32 = .instr (.div 4 1 2) := by decide

theorem witness_IllegalWordsAreRefused :
    decode 8 0x40010203#32 = .illegal .operation ∧ decode 8 0x0F010203#32 = .illegal .reservedBits ∧
      decode 8 0x00080102#32 = .illegal .registerRange ∧ 0x00080102#32 ∈ [0x00010203#32, 0x00080102#32] := by decide

theorem witness_StationCodeIsTheWordsOpBits : decodeWord 0x30040102#32 = .instr (.div 4 1 2) := by decide

theorem witness_TagBitsNameOneStation : 0 < (Cfg.refA 1).nrs ∧ 5 < (Cfg.refA 1).nrs := by decide

theorem witness_BothAssemblerFormsDenoteTheRecord : Instr.wf 256 (.sub 255 0 99) = true := by decide

/-- Both branches: the wrapping quotient, and any other. -/
theorem witness_QuotientIsTruncatedTowardZero :
    (0xFFFFFFFF#32 : Word) ≠ 0#32 ∧ (2#32 : Word) ≠ 0#32 ∧ (0x80000000#32 : Word) ≠ 0xFFFFFFFF#32 := by decide

/-- A waiting rs with a value rt, and a value rs with a waiting rt. -/
theorem witness_OperandsAreResolvedBeforeTheRename :
    (Inv b1 ∧ b1.next < b1.cfg.n ∧ arbiter b1 .add = some 0 ∧ stationIs b1 0 Station.atReset ∧
      readStat b1 1 = some 2 ∧ readStat b1 2 = none) ∧
    (Inv b2 ∧ b2.next < b2.cfg.n ∧ arbiter b2 .add = some 1 ∧ stationIs b2 1 Station.atReset ∧
      readStat b2 2 = none ∧ readStat b2 1 = some 2) :=
  ⟨⟨b1_head.inv, by decide⟩, b2_head.inv, by decide⟩

theorem witness_AdmissionRenamesTheDestination :
    b1.next < b1.cfg.n ∧ arbiter b1 .add = some 0 ∧ stationIs b1 0 Station.atReset ∧
      timeIs b1 1 {} ∧ timeIs b1 0 { issue := some 1, ebegin := some 1 } := by decide

theorem witness_StalledHeadChangesNothing : (Instr.mult 0 2 2).wf b1.cfg.r = true ∧ arbiter b1 .mult = none := by decide

theorem witness_HeadInstructionIsAdmitted :
    (AtHead (.add 1 2 3) a0 ∧ arbiter a0 .add = some 0) ∧ (AtHead (.sub 1 2 3) c0 ∧ arbiter c0 .add = some 0) ∧
      (AtHead (.mult 1 2 3) b0 ∧ arbiter b0 .mult = some 2) ∧ (AtHead (.div 1 2 0) d0 ∧ arbiter d0 .div = some 3) :=
  ⟨⟨a0_head, by decide⟩, ⟨c0_head, by decide⟩, ⟨b0_head, by decide⟩, d0_head, by decide⟩

theorem witness_MissingRegisterIsAFault : (Instr.add 4 0 0).wf a0.cfg.r = false := by decide

/-- The step of `a1` that issues instruction 1. -/
theorem witness_OneInstructionIssuesInOrder :
    Inv a1 ∧ a1.pins.rst = false ∧ (∃ t, step a1 = .next t ∧
      ∃ tk, timeIs t 1 tk ∧ tk.issue ≠ (a1.ts[1]?.bind fun x => x.issue)) :=
  ⟨a1_head.inv, by decide, issueCycle (.add 1 1 1) (releaseReset a1), by rfl, { issue := some 2 }, by decide⟩

/-- A waiting station, one whose counter advances, and one that completes. -/
theorem witness_CounterAdvancesOrCompletes :
    Inv b1 ∧
    (stationIs b2 0 (stn .add 0 5 (some 2) none 0 0 false 1) ∧
      (stn .add 0 5 (some 2) none 0 0 false 1).eligible = false) ∧
    (stationIs b1 2 (stn .mult 5 6 none none 1 0 false 0) ∧ (stn .mult 5 6 none none 1 0 false 0).eligible = true ∧
      1 + 1 < latency b1.cfg .mult ∧ timeIs b1 0 { issue := some 1, ebegin := some 1 }) ∧
    (stationIs b2 2 (stn .mult 5 6 none none 2 0 false 0) ∧ (stn .mult 5 6 none none 2 0 false 0).eligible = true ∧
      2 + 1 = latency b2.cfg .mult ∧ fOp .mult 5 6 = some 30 ∧
      timeIs b2 0 { issue := some 1, ebegin := some 1 }) := ⟨b1_head.inv, by decide⟩

theorem witness_DivisionByZeroIsRecorded :
    Inv d1 ∧ d1.fault = none ∧ stationIs d1 3 (stn .div 5 0 none none 0 0 false 0) ∧
      (stn .div 5 0 none none 0 0 false 0).eligible = true ∧ (0#32).toNat = 0 ∧ 0 + 1 = d1.cfg.ld ∧
      timeIs d1 0 { issue := some 1 } ∧ ∀ a, a < 3 → d1.stations[a]? = some Station.atReset :=
  ⟨d1_inv, by decide⟩

/-- R1 is mapped to the ready station 0 of `a1`; R0 is mapped to nothing. -/
theorem witness_BroadcastWritesTheMappedRegister :
    Inv a1 ∧ 1 < a1.reg.length ∧ mapped a1 1 0 ∧ broadcasts a1 0 = true ∧
      stationIs a1 0 (stn .add 5 6 none none 0 11 true 0) ∧ a1.rstat[0]? = some none :=
  ⟨a1_head.inv, by decide⟩

/-- Station 1 of `a1` after Issue waits twice for the ready station 0; station 0 of `b2` waits for one not ready and has its
operand k. -/
theorem witness_BroadcastReachesEveryWaiter :
    let s := issue (.add 1 1 1) (advanceCycle a1)
    (stationIs s 1 (stn .add 0 0 (some 0) (some 0) 0 0 false 1) ∧ broadcasts s 1 = false ∧ broadcasts s 0 = true ∧
      stationIs s 0 (stn .add 5 6 none none 0 11 true 0)) ∧
    (stationIs b2 0 (stn .add 0 5 (some 2) none 0 0 false 1) ∧ broadcasts b2 0 = false ∧ broadcasts b2 2 = false) := by
  decide

/-- A station ready at the start of the cycle, and one that becomes ready in it. -/
theorem witness_ReadyStationsRetireInTheNextCycle :
    (AtHead (.add 1 1 1) a1 ∧ stationIs a1 0 (stn .add 5 6 none none 0 11 true 0)) ∧
    (AtHead (.add 1 2 3) a0 ∧ stationIs a0 0 Station.atReset ∧ exec (.add 1 2 3) a0 = .next a1 ∧
      stationIs a1 0 (stn .add 5 6 none none 0 11 true 0)) :=
  ⟨⟨a1_head, by decide⟩, a0_head, by decide, rfl, by decide⟩

theorem witness_TagIssuedDuringItsBroadcastIsResolved :
    AtHead (.add 1 1 1) a1 ∧ arbiter a1 .add = some 1 ∧ readStat a1 (Instr.rs (.add 1 1 1)) = some 0 ∧
      readStat a1 (Instr.rt (.add 1 1 1)) = some 0 ∧
      stationIs a1 0 (stn .add 5 6 none none 0 11 true 0) :=
  ⟨a1_head, by decide⟩

theorem witness_RenameBeatsTheOldProducersBroadcast :
    AtHead (.add 1 1 1) a1 ∧ arbiter a1 .add = some 1 ∧ mapped a1 1 0 ∧
      stationIs a1 0 (stn .add 5 6 none none 0 11 true 0) :=
  ⟨a1_head, by decide⟩

/-- For each clause: R0 and R1 are mapped to stations that are not ready; station 0 waits for station 2; station 1 is
free and the arbiter's, station 3 free and not; instruction 2 is the head, and every issued one is in a station. -/
theorem witness_HeadCycleFrame :
    (AtHead (.add 3 2 1) b2 ∧ mapped b2 1 2 ∧ occupied b2 0 (stn .add 0 5 (some 2) none 0 0 false 1) ∧
      stationIs b2 2 (stn .mult 5 6 none none 2 0 false 0) ∧ stationIs b2 3 Station.atReset ∧
      arbiter b2 .add ≠ some 3) ∧
    (AtHead (.add 1 2 3) a0 ∧ 2 ≠ a0.next ∧ a0.stations.all (fun st => !st.busy) = true) ∧
    AtHead (.sub 1 2 3) c0 ∧ AtHead (.mult 1 2 3) b0 ∧ AtHead (.div 1 2 0) d0 :=
  ⟨⟨b2_head, by decide⟩, ⟨a0_head, by decide⟩, c0_head, b0_head, d0_head⟩

theorem witness_AddWritesTheSum :
    LastAlone (.add 3 2 3) { boot (small 1) [0x00030203#32] [0, 0, 5, 6] with inReset := false } :=
  boot_last_alone _ _ _ _ (by decide) rfl rfl (by decide) (by decide) (by decide) (by decide)

theorem witness_SubWritesTheDifference :
    LastAlone (.sub 3 2 3) { boot (small 1) [0x10030203#32] [0, 0, 5, 6] with inReset := false } :=
  boot_last_alone _ _ _ _ (by decide) rfl rfl (by decide) (by decide) (by decide) (by decide)

theorem witness_MultWritesTheProduct :
    LastAlone (.mult 3 2 3) { boot (small 1) [0x20030203#32] [0, 0, 5, 6] with inReset := false } :=
  boot_last_alone _ _ _ _ (by decide) rfl rfl (by decide) (by decide) (by decide) (by decide)

theorem witness_DivWritesTheQuotient :
    let s := { boot (small 1) [0x30030302#32] [0, 0, 5, 13] with inReset := false }
    LastAlone (.div 3 3 2) s ∧ readReg s 2 ≠ 0#32 :=
  ⟨boot_last_alone _ _ _ _ (by decide) rfl rfl (by decide) (by decide) (by decide) (by decide), by decide⟩

theorem witness_DivByZeroHaltsTheRun :
    let s := { boot (small 1) [0x30030300#32] [0, 0, 5, 13] with inReset := false }
    LastAlone (.div 3 3 0) s ∧ readReg s 0 = 0#32 :=
  ⟨boot_last_alone _ _ _ _ (by decide) rfl rfl (by decide) (by decide) (by decide) (by decide), by decide⟩

/-- A cycle with a head, and one without. -/
theorem witness_StepRunsTheHeadInstruction :
    (a0.pins.rst = false ∧ a0.pins.en = true ∧ (releaseReset a0).cfgErr = none ∧ halted a0 = false ∧
      capReached a0 = false ∧ a0.next < a0.cfg.n ∧ a0.prog[a0.next]? = some (some (decodeWord 0x00010203#32)) ∧
      decodeWord 0x00010203#32 = .instr (.add 1 2 3)) ∧
    (let s := issueCycle (.sub 1 2 3) c0
     s.pins.rst = false ∧ s.pins.en = true ∧ (releaseReset s).cfgErr = none ∧ halted s = false ∧
      capReached s = false ∧ s.cfg.n ≤ s.next) := by decide

theorem witness_LoadedWordIssuesInCycleOne : decodeWord 0x00FF00FF#32 = .instr (.add 255 0 255) := by decide

/-- One state for each reason to hold. -/
theorem witness_HeldEdgeKeepsTheState :
    let s := { boot (small 0) [] [] with inReset := false }
    s.pins.rst = false ∧ s.inReset = false ∧ done s = true ∧
      ({ s with cfgErr := some ConfigErr.latency } : State).cfgErr ≠ none ∧
      ({ s with fault := some (.cycleCapExceeded 0) } : State).fault ≠ none ∧
      ({ s with pins := { s.pins with en := false } } : State).pins.en = false := by decide

/-- A cap of 1 met after the first cycle, and a cap of 0 at the first edge after reset (log 13). -/
theorem witness_CycleCapIsAFault :
    (let s := { issueCycle (.add 3 2 3) (boot { small 1 with maxCycles := some 1 } [0x00030203#32] []) with
                inReset := false }
     s.pins.rst = false ∧ s.pins.en = true ∧ (releaseReset s).cfgErr = none ∧ halted s = false ∧
      s.cfg.maxCycles = some 1 ∧ s.cycle = 1) ∧
    (let s := boot { small 1 with maxCycles := some 0 } [0x00030203#32] []
     s.pins.rst = false ∧ s.pins.en = true ∧ (releaseReset s).cfgErr = none ∧ halted s = false ∧
      s.cfg.maxCycles = some 0 ∧ s.cycle = 0) := by decide

/-- Both ports in use: the last word of a program of three, and the last register cell. -/
theorem witness_ResetEdgeGivesTheResetValues :
    let s :=
      { a1 with
        pins := { rst := true, en := true, cfg := { resetPins with n := 3 }, progWrite := some (2#2, 0x00000000#32),
                  regWrite := some (255, 7) } }
    s.pins.rst = true ∧ 255 < s.reg.length := by decide

theorem witness_RefusedConfigurationRunsNoCycle :
    let s := boot { small 1 with nm := 0 } [0x20030203#32] []
    s.pins.rst = false ∧ s.inReset = true ∧ admission s = some .noStation := by decide

theorem witness_ConfigurationAndProgramAreFixed :
    (∃ t, step a0 = .next t) ∧ a0.pins.rst = false := ⟨⟨issueCycle (.add 1 2 3) (releaseReset a0), rfl⟩, rfl⟩

theorem witness_StepKeepsTheInvariants : Inv a1 ∧ ∃ t, step a1 = .next t :=
  ⟨a1_head.inv, issueCycle (.add 1 1 1) (releaseReset a1), rfl⟩

theorem witness_Inv12AsWrittenHoldsOfEveryRun : Booted a0 ∧ ∃ t, run 1 a0 = .next t :=
  ⟨boot_booted _ _ _ (by decide) (by decide) rfl, issueCycle (.add 1 2 3) (releaseReset a0), rfl⟩

theorem witness_NoStepStops : Inv a1 := a1_head.inv

theorem witness_DoneIsAnEmptyPipeline : Inv b2 ∧ Inv (boot (small 0) [] []) ∧ (boot (small 0) [] []).cfg.n = 0 :=
  ⟨b2_head.inv, boot_inv _ _ _ (by decide), rfl⟩

/-- The timestamps of `a1`. -/
theorem a1_time {k : Nat} {t : TimeRec} (h : timeIs a1 k t) :
    k = 0 ∧ t = { issue := some 1, ebegin := some 1, eend := some 1, wb := none } ∨ t = {} := by
  have e : a1.ts = [{ issue := some 1, ebegin := some 1, eend := some 1, wb := none }, {}, {}] := by decide
  rw [timeIs, e] at h
  match k, h with
  | 0, h => exact .inl ⟨rfl, (Option.some.inj h).symm⟩
  | 1, h => exact .inr (Option.some.inj h).symm
  | 2, h => exact .inr (Option.some.inj h).symm

/-- The one busy station of `a1`. -/
theorem a1_occupied {r : Nat} {st : Station} (h : occupied a1 r st) : st = stn .add 5 6 none none 0 11 true 0 := by
  have e : a1.stations = [stn .add 5 6 none none 0 11 true 0, Station.atReset, Station.atReset, Station.atReset] := by
    decide
  obtain ⟨h, hb⟩ := h
  rw [stationIs, e] at h
  match r, h with
  | 0, h => exact (Option.some.inj h).symm
  | 1, h => cases Option.some.inj h; cases hb
  | 2, h => cases Option.some.inj h; cases hb
  | 3, h => cases Option.some.inj h; cases hb

theorem a1_timing : Timing a1 where
  span := by
    intro k t ins e h hp he
    rcases a1_time h with ⟨rfl, rfl⟩ | rfl
    · have : progAt a1 0 = .instr (.add 1 2 3) := by decide
      rw [this] at hp; cases hp; cases he
      exact ⟨1, rfl, by decide⟩
    · cases he
  retired := by
    intro k t w h hw
    rcases a1_time h with ⟨rfl, rfl⟩ | rfl <;> cases hw
  counting := by
    intro r st t b h hr
    rw [a1_occupied h] at hr; cases hr
  noEnd := by
    intro r st t h hr
    rw [a1_occupied h] at hr; cases hr
  fresh := by
    intro r st t h _ ht
    rw [a1_occupied h] at ht
    have : a1.ts[0]? = some { issue := some 1, ebegin := some 1, eend := some 1, wb := none } := by decide
    cases this.symm.trans ht
    decide

theorem a1_ordered : Ordered a1 where
  past := by
    intro k t c h hc
    have : a1.cycle = 1 := by decide
    rw [this]
    rcases a1_time h with ⟨rfl, rfl⟩ | rfl
    · rcases hc with hc | hc | hc | hc <;> cases hc <;> decide
    · rcases hc with hc | hc | hc | hc <;> cases hc
  begins := by
    intro k t b h hb
    rcases a1_time h with ⟨rfl, rfl⟩ | rfl
    · cases hb; exact ⟨1, rfl, le_rfl⟩
    · cases hb
  ends := by
    intro k t b h hb
    rcases a1_time h with ⟨rfl, rfl⟩ | rfl
    · cases hb; exact ⟨1, rfl, le_rfl⟩
    · cases hb
  retires := by
    intro k t w h hw
    rcases a1_time h with ⟨rfl, rfl⟩ | rfl <;> cases hw
  inOrder := by
    intro j k tj tk cj ck hjk hj hk hcj hck
    rcases a1_time hk with ⟨rfl, rfl⟩ | rfl
    · exact absurd hjk (Nat.not_lt_zero j)
    · cases hck

theorem witness_StepKeepsTheTiming : Inv a1 ∧ Timing a1 ∧ ∃ t, step a1 = .next t :=
  ⟨a1_head.inv, a1_timing, issueCycle (.add 1 1 1) (releaseReset a1), rfl⟩

theorem witness_StepKeepsTheOrderOfTimestamps :
    Inv a1 ∧ Ordered a1 ∧ a1.cycle.toNat + 1 < 2 ^ 32 ∧ ∃ t, step a1 = .next t :=
  ⟨a1_head.inv, a1_ordered, by decide, issueCycle (.add 1 1 1) (releaseReset a1), rfl⟩

theorem witness_TimestampsAreWrittenOnce :
    Inv a1 ∧ Timing a1 ∧ a1.pins.rst = false ∧ (∃ t, step a1 = .next t) ∧
      timeIs a1 0 { issue := some 1, ebegin := some 1, eend := some 1, wb := none } :=
  ⟨a1_head.inv, a1_timing, by decide, ⟨issueCycle (.add 1 1 1) (releaseReset a1), rfl⟩, by decide⟩

/-- `a0` with other values in the unspecified fields of its stations. -/
def a0' : State :=
  { a0 with
    stations := List.replicate 4 { Station.atReset with op := .div, vj := 7, vk := 8, result := 9, inst := 2 }
    draws := 5 }

theorem witness_UnspecifiedFieldsAreNeverRead : Inv a0 ∧ Inv a0' ∧ SameButUnspecified a0 a0' := by
  have hs : Sized a0 := a0_head.inv.sized
  have hf : ∀ st ∈ a0'.stations, st.busy = false ∧ st.ready = false ∧ st.lat = 0 ∧ st.qj = none ∧ st.qk = none := by
    intro st h
    rw [List.eq_of_mem_replicate h]
    exact ⟨rfl, rfl, rfl, rfl, rfl⟩
  refine ⟨a0_head.inv, ?_, ?_⟩
  · exact pristine_inv (hs.of_eq rfl rfl rfl rfl (Nat.zero_le _) rfl rfl rfl rfl) rfl hf rfl rfl
  · refine { reg := rfl, rstat := rfl, pool := rfl, station := ?_, prog := rfl, next := rfl, ts := rfl, cycle := rfl,
             fault := rfl, cfg := rfl, cfgErr := rfl, inReset := rfl, pins := rfl }
    intro r a b ha hb
    have h1 := boot_free _ _ _ a (List.mem_of_getElem? ha)
    have h2 := hf b (List.mem_of_getElem? hb)
    constructor <;> simp [h1, h2]

/-- A completed run of one ADD. -/
theorem witness_CompletedRunIsTheSequentialReading :
    let s := boot (small 1) [0x00030203#32] [0, 0, 5, 6]
    Booted s ∧ field (fun t => runStatus t) (run 2 s) = some .completed :=
  ⟨boot_booted _ _ _ (by decide) (by decide) rfl, by decide⟩

theorem witness_RunEndsWithinTheCycleBound : Booted a0 := boot_booted _ _ _ (by decide) (by decide) rfl

/-- `MULT R1,R2,R3` with LM = 2, after its first cycle: its station completes in the next. -/
def m1 : State := issueCycle (.mult 1 2 3) (boot { small 1 with lm := 2 } [0x20010203#32] [0, 0, 5, 6])

theorem m1_draining : Draining m1 :=
  ⟨issueCycle_inv ⟨boot_inv _ _ _ (by decide), by decide, by decide, by decide, by decide⟩, by decide, by decide,
    by decide⟩

/-- `SUB R1,R2,R3` with LA = 1, after its first cycle: its station is ready. -/
def c1 : State := issueCycle (.sub 1 2 3) c0

theorem c1_draining : Draining c1 := ⟨issueCycle_inv c0_head, by decide, by decide, by decide⟩

/-- `MULT R1,R2,R3; ADD R0,R1,R2`, both issued: station 0 waits for station 2. -/
def w2 : State :=
  issueCycle (.add 0 1 2) (issueCycle (.mult 1 2 3) (boot (small 2) [0x20010203#32, 0x00000102#32] [0, 0, 5, 6]))

theorem w2_draining : Draining w2 :=
  have h0 : AtHead (.mult 1 2 3) (boot (small 2) [0x20010203#32, 0x00000102#32] [0, 0, 5, 6]) :=
    ⟨boot_inv _ _ _ (by decide), by decide, by decide, by decide, by decide⟩
  ⟨issueCycle_inv ⟨issueCycle_inv h0, by decide, by decide, by decide, by decide⟩, by decide, by decide, by decide⟩

/-- A station that is ready, and one that becomes ready. -/
theorem witness_CycleWithoutHeadRetiresReadyStations :
    (Draining c1 ∧ stationIs c1 0 (stn .sub 5 6 none none 0 0xFFFFFFFF true 0)) ∧
    (Draining m1 ∧ stationIs m1 2 (stn .mult 5 6 none none 1 0 false 0) ∧
      stationIs (drainCycle m1) 2 (stn .mult 5 6 none none 0 30 true 0)) :=
  ⟨⟨c1_draining, by decide⟩, m1_draining, by decide⟩

/-- R1 is mapped to a station that is not ready, R2 to none; station 0 waits, station 1 is free; no station holds a DIV. -/
theorem witness_CycleWithoutHeadFrame :
    Draining w2 ∧ mapped w2 1 2 ∧ stationIs w2 2 (stn .mult 5 6 none none 2 0 false 0) ∧ w2.rstat[2]? = some none ∧
      occupied w2 0 (stn .add 0 5 (some 2) none 0 0 false 1) ∧ stationIs w2 1 Station.atReset ∧
      (w2.stations.all fun st => !st.busy || st.op != .div) = true :=
  ⟨w2_draining, by decide⟩

/-- RST-2 (N = 0), RST-3 (en = 0), and a failing check. -/
theorem witness_ReleaseEdgeEvaluatesTheChecks :
    (let s := boot (small 0) [] []
     s.pins.rst = false ∧ s.inReset = true ∧ done s = true) ∧
    (let s := { a0 with pins := { a0.pins with en := false } }
     s.pins.rst = false ∧ s.inReset = true ∧ s.pins.en = false) ∧
    (let s := boot { small 1 with nm := 0 } [0x20030203#32] []
     s.pins.rst = false ∧ s.inReset = true ∧ admission s ≠ none) := by decide

/-- `DIV R1,R2,R0` with R0 = 0 and LD = 1, after its one cycle. -/
def d2 : State := issueCycle (.div 1 2 0) d0

theorem d2_fault : d2.fault = some (.divideByZero 0 3 1) := by decide

theorem witness_OutputPinsShowTheStatus :
    d2.fault = some (.divideByZero 0 3 1) ∧ 0 < d2.cfg.n ∧ 3 < d2.cfg.nrs ∧ d2.next ≤ d2.cfg.n ∧ a0.fault = none := by
  decide

theorem witness_SnapshotPortsShowTheState :
    Inv b2 ∧ (3#8).toNat < b2.cfg.r ∧ occupied b2 2 (stn .mult 5 6 none none 2 0 false 0) ∧ timeIs b2 2 {} :=
  ⟨b2_head.inv, by decide⟩

/-- The one busy station of `d2`. -/
theorem d2_occupied {r : Nat} {st : Station} (h : occupied d2 r st) : st = stn .div 5 0 none none 0 0 false 0 := by
  have e : d2.stations = [Station.atReset, Station.atReset, Station.atReset, stn .div 5 0 none none 0 0 false 0] := by
    decide
  obtain ⟨h, hb⟩ := h
  rw [stationIs, e] at h
  match r, h with
  | 0, h => cases Option.some.inj h; cases hb
  | 1, h => cases Option.some.inj h; cases hb
  | 2, h => cases Option.some.inj h; cases hb
  | 3, h => exact (Option.some.inj h).symm

/-- The timestamps of `d2`. -/
theorem d2_time {k : Nat} {t : TimeRec} (h : timeIs d2 k t) : t = { issue := some 1, ebegin := some 1 } := by
  have e : d2.ts = [{ issue := some 1, ebegin := some 1 }] := by decide
  rw [timeIs, e] at h
  match k, h with
  | 0, h => exact (Option.some.inj h).symm

theorem d2_timing : Timing d2 where
  span := by
    intro k t ins e h _ he
    rw [d2_time h] at he; cases he
  retired := by
    intro k t w h hw
    rw [d2_time h] at hw; cases hw
  counting := by
    intro r st t b _ _ _ _ hf
    rw [d2_fault] at hf; cases hf
  noEnd := by
    intro r st t _ _ h
    rw [d2_time h]
  fresh := by
    intro r st t h hr
    rw [d2_occupied h] at hr; cases hr

theorem d2_record : FaultRecordTrue d2 := by
  intro k r c h
  cases d2_fault.symm.trans h
  exact ⟨⟨stn .div 5 0 none none 0 0 false 0, by decide⟩, ⟨{ issue := some 1, ebegin := some 1 }, by decide⟩, by decide⟩

/-- A state with a record, and one whose step makes one. -/
theorem witness_StepKeepsTheFaultRecordTrue :
    (Inv d2 ∧ Timing d2 ∧ FaultRecordTrue d2 ∧ ∃ t, step d2 = .next t) ∧
      FaultRecordTrue d0 ∧ step d0 = .next { d2 with inReset := false } :=
  ⟨⟨issueCycle_inv d0_head, d2_timing, d2_record, releaseReset d2, rfl⟩, (by intro _ _ _ h; cases h), rfl⟩

/-- The one mapped register of `a1`. -/
theorem a1_mapped {i r : Nat} (h : mapped a1 i r) : i = 1 ∧ r = 0 := by
  have e : a1.rstat = [none, some 0, none, none] := by decide
  rw [mapped, e] at h
  match i, h with
  | 0, h => cases h
  | 1, h => cases h; exact ⟨rfl, rfl⟩
  | 2, h => cases h
  | 3, h => cases h

theorem a1_simulates : Simulates a0.reg a1 where
  size := by decide
  settled := by
    intro i h
    have h1 : i ≠ 1 := by rintro rfl; exact h 0 (by decide)
    have e : seqUpTo a0.reg a1 a1.next = a0.reg.set 1 11 := by decide
    have e2 : a1.reg = a0.reg := by decide
    rw [e, e2, List.getElem?_set_ne (Ne.symm h1)]
  pending := by
    intro i r st h hs
    obtain ⟨rfl, rfl⟩ := a1_mapped h
    cases hs.symm.trans a1_station0
    rfl
  valueJ := by
    intro a st i h hp _
    rw [a1_occupied h] at hp ⊢
    cases (show progAt a1 0 = .instr (.add 1 2 3) by decide).symm.trans hp
    decide
  valueK := by
    intro a st i h hp _
    rw [a1_occupied h] at hp ⊢
    cases (show progAt a1 0 = .instr (.add 1 2 3) by decide).symm.trans hp
    decide
  waitJ := by
    intro a st i p sp h _ hq
    rw [a1_occupied h] at hq; cases hq
  waitK := by
    intro a st i p sp h _ hq
    rw [a1_occupied h] at hq; cases hq
  result := by
    intro r st i hs hr hp
    have h : occupied a1 r st := ⟨hs, (a1_head.inv.inv7 r st hs hr).1⟩
    rw [a1_occupied h] at hp ⊢
    cases (show progAt a1 0 = .instr (.add 1 2 3) by decide).symm.trans hp
    decide

theorem witness_StepKeepsTheSimulation :
    Inv a1 ∧ Simulates a0.reg a1 ∧ a1.pins.rst = false ∧ ∃ t, step a1 = .next t :=
  ⟨a1_head.inv, a1_simulates, by decide, issueCycle (.add 1 1 1) (releaseReset a1), rfl⟩

/-- A booted state, and a state with the simulation at which DONE holds. -/
theorem witness_SimulationBeginsAndEnds :
    Booted a0 ∧
    (let s := boot (small 0) [] [1, 2]
     Inv s ∧ Simulates s.reg s ∧ done s = true) := by
  refine ⟨boot_booted _ _ _ (by decide) (by decide) rfl, boot_inv _ _ _ (by decide), ?_, by decide⟩
  have hno : ∀ a st, ¬ occupied (boot (small 0) [] [1, 2]) a st := fun a st h => by
    have := boot_free _ _ _ st (List.mem_of_getElem? h.1)
    simp [h.2] at this
  have hmap : ∀ i r, ¬ mapped (boot (small 0) [] [1, 2]) i r := fun i r h => by
    simp [mapped, boot, List.getElem?_replicate] at h
  exact
    { size := by decide
      settled := fun _ _ => rfl
      pending := fun i r st h => absurd h (hmap i r)
      valueJ := fun a st i h => absurd h (hno a st)
      valueK := fun a st i h => absurd h (hno a st)
      waitJ := fun a st i p sp h => absurd h (hno a st)
      waitK := fun a st i p sp h => absurd h (hno a st)
      result := fun r st i h hr => by
        have := boot_free _ _ _ st (List.mem_of_getElem? h)
        simp [hr] at this }

end Sys2Proof.Tests
end

section
/-! The family of 00_scope.md: the tag's hardware form (R8, R24), the checks WF1 to WF6 and the code they give (R9,
R210), the widths of the snapshot ports (R8, R185), and the instruction whose registers do not exist (R63). -/

namespace Sys2Proof

/-! ### Tags in hardware -/

@[simp] theorem tagBits_none (tw : Nat) : tagBits tw none = 0 := rfl

theorem toNat_tagBits_some {tw r : Nat} (h : r < 2 ^ tw) : (tagBits tw (some r)).toNat = 2 ^ tw + r := by
  rw [tagBits, Nat.mod_eq_of_lt h, BitVec.toNat_ofNat]
  exact Nat.mod_eq_of_lt (by rw [Nat.pow_succ]; omega)

theorem tagBits_some_ne_none {tw r : Nat} (h : r < 2 ^ tw) : tagBits tw (some r) ≠ tagBits tw none := by
  rw [ne_eq, ← BitVec.toNat_inj, toNat_tagBits_some h]
  simp

theorem tagBits_some_inj {tw r q : Nat} (hr : r < 2 ^ tw) (hq : q < 2 ^ tw) :
    tagBits tw (some r) = tagBits tw (some q) ↔ r = q := by
  rw [← BitVec.toNat_inj, toNat_tagBits_some hr, toNat_tagBits_some hq, Nat.add_left_cancel_iff]

/-- Settles O6: TW bits hold every station index, so the valid bit stands above the index. -/
theorem tagBitsNameOneStation : Obligations.TagBitsNameOneStation := by
  intro c r q hr hq
  have hr := station_lt_two_pow hr
  have hq := station_lt_two_pow hq
  exact ⟨tagBits_none _, toNat_tagBits_some hr, tagBits_some_ne_none hr, tagBits_some_inj hr hq⟩

/-! ### The checks -/

theorem inRange_iff {r : Nat} {i : Instr} :
    i.inRange r = true ↔ i.rd.toNat < r ∧ i.rs.toNat < r ∧ i.rt.toNat < r := by
  simp [Instr.inRange, and_assoc]

namespace Machine

theorem wf1_iff {r : Nat} {p : List Decoded} :
    wf1 r p = true ↔ ∀ i, .instr i ∈ p → i.rd.toNat < r ∧ i.rs.toNat < r ∧ i.rt.toNat < r := by
  simp only [wf1, List.all_eq_true, ← inRange_iff]
  constructor
  · exact fun h i hi => h _ hi
  · rintro h (i | why) hd
    · exact h i hd
    · rfl

theorem wf2_iff {p : List Decoded} : wf2 p = true ↔ ∀ d ∈ p, ∃ i, d = .instr i := by
  refine List.all_eq_true.trans (forall₂_congr fun d _ => ?_)
  cases d <;> simp

theorem wf3_iff {c : Cfg} : wf3 c = true ↔ 1 ≤ c.la ∧ 1 ≤ c.lm ∧ 1 ≤ c.ld := decide_eq_true_iff

theorem wf4_iff {c : Cfg} {p : List Decoded} :
    wf4 c p = true ↔ ∀ i, .instr i ∈ p → 1 ≤ stationCount c i.op.cls := by
  simp only [wf4, List.all_eq_true]
  constructor
  · exact fun h i hi => of_decide_eq_true (h _ hi)
  · rintro h (i | why) hd
    · exact decide_eq_true (h i hd)
    · rfl

theorem wf5_iff {c : Cfg} : wf5 c = true ↔ 1 ≤ c.r ∧ c.r ≤ 256 := decide_eq_true_iff

theorem wf6_iff {cw : Nat} {c : Cfg} {p : List Decoded} : wf6 cw c p = true ↔ cycleBound c p ≤ 2 ^ cw - 1 :=
  decide_eq_true_iff

/-- Settles O36, by the first check that fails. -/
theorem lowestFailingCheckIsReported : Obligations.LowestFailingCheckIsReported := by
  intro cw c p w1 w2 w3 w4 w5 w6
  have h1 : wf1 c.r p = true ↔ w1 := wf1_iff
  have h2 : wf2 p = true ↔ w2 := wf2_iff
  have h3 : wf3 c = true ↔ w3 := wf3_iff
  have h4 : wf4 c p = true ↔ w4 := wf4_iff
  have h5 : wf5 c = true ↔ w5 := wf5_iff
  have h6 : wf6 cw c p = true ↔ w6 := wf6_iff
  clear_value w1 w2 w3 w4 w5 w6
  simp only [← h1, ← h2, ← h3, ← h4, ← h5, ← h6, checkConfig]
  cases wf1 c.r p with
  | false => simp
  | true =>
  cases wf2 p with
  | false => simp
  | true =>
  cases wf3 c with
  | false => simp
  | true =>
  cases wf4 c p with
  | false => simp
  | true =>
  cases wf5 c with
  | false => simp
  | true => cases wf6 cw c p <;> simp

/-! ### The snapshot ports -/

theorem latency_le_max (c : Cfg) (op : Op) : latency c op ≤ max c.la (max c.lm c.ld) := by
  cases op <;> simp [latency, Op.cls]

theorem snapReg_eq_readReg {s : State} (h : s.reg.length = 256) {i : RegIx} (hi : i.toNat < s.cfg.r) :
    snapReg s i = some (readReg s i) := by
  have hlt : i.toNat < s.reg.length := h ▸ i.isLt
  simp [snapReg, readReg, hi, hlt]

theorem snapRstat_eq_readStat {s : State} (h : s.rstat.length = s.cfg.r) {i : RegIx} (hi : i.toNat < s.cfg.r) :
    snapRstat s i = some (tagBits s.cfg.tagWidth (readStat s i)) := by
  have hlt : i.toNat < s.rstat.length := h ▸ hi
  simp [snapRstat, readStat, hlt]

theorem stationIs_lt {s : State} {r : Nat} {st : Station} (h : stationIs s r st) : r < s.stations.length :=
  (List.getElem?_eq_some_iff.1 h).1

theorem timeIs_lt {s : State} {k : Nat} {t : TimeRec} (h : timeIs s k t) : k < s.ts.length :=
  (List.getElem?_eq_some_iff.1 h).1

/-- TW bits address station r (R8). -/
theorem stationAddr_toNat {s : State} (hs : Sized s) {r : Nat} {st : Station} (h : stationIs s r st) :
    (BitVec.ofNat s.cfg.tagWidth r).toNat = r :=
  Nat.mod_eq_of_lt (station_lt_two_pow (hs.pool ▸ stationIs_lt h))

/-- LW bits hold a busy station's counter (R8, INV9). -/
theorem lat_toNat {s : State} (h : Inv s) {r : Nat} {st : Station} (ho : occupied s r st) :
    (BitVec.ofNat s.cfg.latWidth st.lat).toNat = st.lat :=
  Nat.mod_eq_of_lt (lat_lt_two_pow ((h.inv9 r st ho).le.trans (latency_le_max s.cfg st.op)))

/-- IW bits hold a busy station's instruction index (R8, INV5). -/
theorem inst_toNat {s : State} (h : Inv s) {r : Nat} {st : Station} (ho : occupied s r st) :
    (BitVec.ofNat s.cfg.instWidth st.inst).toNat = st.inst :=
  Nat.mod_eq_of_lt (inst_lt_two_pow ((h.inv5Next r st ho).trans_le h.sized.next))

theorem snapTime_eq {s : State} (hs : Sized s) {k : Nat} {t : TimeRec} (h : timeIs s k t) :
    snapTime s (BitVec.ofNat _ k) = some t := by
  rw [snapTime, BitVec.toNat_ofNat, Nat.mod_eq_of_lt (inst_lt_two_pow (hs.ts ▸ timeIs_lt h)), h]

/-- Settles O54: the invariants bound every number shown by what its line holds (R8). -/
theorem snapshotPortsShowTheState : Obligations.SnapshotPortsShowTheState := by
  intro s h
  refine ⟨fun i hi => ⟨snapReg_eq_readReg h.sized.reg hi, snapRstat_eq_readStat h.sized.rstat hi⟩,
    fun r st ho => ?_, fun k t => snapTime_eq h.sized⟩
  obtain ⟨hst, hb⟩ := ho
  exact ⟨_, by rw [snapStation, stationAddr_toNat h.sized hst, hst]; rfl, hb, rfl, rfl, rfl, rfl, rfl,
    lat_toNat h ⟨hst, hb⟩, rfl, rfl, inst_toNat h ⟨hst, hb⟩⟩

/-! ### Missing registers -/

/-- The only stop of `exec` (log 14). -/
theorem exec_fault {i : Instr} {s : State} (h : i.wf s.cfg.r = false) :
    exec i s = .fault .registerIndexOutOfRange := by
  rw [exec_eq_runHead, runHead, h, if_neg Bool.false_ne_true]

/-- Settles O16: every instruction runs as the head of a cycle, which checks its registers first. -/
theorem missingRegisterIsAFault : Obligations.MissingRegisterIsAFault := fun _ _ => exec_fault

end Machine

end Sys2Proof
end

section
/-! The family of 10_state.md: what an edge does to a state with the invariants (R182, R217), the invariants of R40,
DONE (R35), the timestamps (R32), the station fields no rule reads (R27, R29), and the status outputs (R185). -/

namespace Sys2Proof.Machine

/-! ### Status signals and reset -/

theorem done_iff {s : State} : done s = true ↔ ∀ t ∈ s.ts, t.wb ≠ none := by
  simp [done, Option.isSome_iff_ne_none]

theorem halted_iff {s : State} : halted s = true ↔ done s = true ∨ s.fault ≠ none := by
  simp [halted, Option.isSome_iff_ne_none]

@[simp] theorem done_releaseReset (s : State) : done (releaseReset s) = done s := by simp [done]

@[simp] theorem halted_releaseReset (s : State) : halted (releaseReset s) = halted s := by simp [halted]

@[simp] theorem capReached_releaseReset (s : State) : capReached (releaseReset s) = capReached s := by simp [capReached]

theorem releaseReset_of_released {s : State} (h : s.inReset = false) : releaseReset s = s := by
  simp [releaseReset, h]

/-! ### What an edge does, by its reason (R182, R183, R217) -/

/-- An edge without reset at which no cycle runs: refused, halted, or not enabled (R182). -/
def held (s : State) : Prop := (releaseReset s).cfgErr ≠ none ∨ halted s = true ∨ s.pins.en = false

theorem not_held_iff {s : State} :
    ¬ held s ↔ (releaseReset s).cfgErr = none ∧ halted s = false ∧ s.pins.en = true := by
  simp only [held, not_or, not_not, Bool.not_eq_true, Bool.not_eq_false]

theorem step_reset {s : State} (hr : s.pins.rst = true) : step s = .next (resetEdge s) := by
  simp [step, edgeAction, hr]

theorem step_held {s : State} (hr : s.pins.rst = false) (h : held s) : step s = .next (releaseReset s) := by
  have e : edgeAction s = .hold (releaseReset s) := by
    simp only [edgeAction, hr, halted_releaseReset, releaseReset_pins, Option.isSome_iff_ne_none]
    rcases h with h | h | h <;> simp [h, -releaseReset_cfgErr]
  simp [step, e]

theorem step_cap {s : State} (hr : s.pins.rst = false) (h : ¬ held s) (hc : capReached s = true) :
    step s = .next (raiseFault (.cycleCapExceeded s.cycle) (releaseReset s)) := by
  obtain ⟨he, hh, hen⟩ := not_held_iff.1 h
  have e : edgeAction s = .cap (releaseReset s) := by
    simp [edgeAction, hr, he, hh, hen, hc, -releaseReset_cfgErr]
  simp [step, e]

theorem step_cycle {s : State} (hr : s.pins.rst = false) (h : ¬ held s) (hc : capReached s = false) :
    step s = runCycle (releaseReset s) := by
  obtain ⟨he, hh, hen⟩ := not_held_iff.1 h
  have e : edgeAction s = .cycle (releaseReset s) := by
    simp [edgeAction, hr, he, hh, hen, hc, -releaseReset_cfgErr]
  simp [step, e]

/-- The head of an admitted program is an instruction whose registers exist (R9 WF1, WF2). -/
theorem head_of_admitted {s : State} (ha : admission s = none) (hn : s.next < s.cfg.n) :
    ∃ i, progAt s s.next = .instr i ∧ i.wf s.cfg.r = true := by
  obtain ⟨-, -, -, -, -, -, hchecks⟩ := lowestFailingCheckIsReported cycleWidth s.cfg (program s)
  obtain ⟨hwf1, hwf2, -⟩ := hchecks.1 ha
  have hmem : progAt s s.next ∈ program s := List.mem_map_of_mem (List.mem_range.2 hn)
  obtain ⟨i, hi⟩ := hwf2 _ hmem
  exact ⟨i, hi, inRange_iff.2 (hwf1 i (hi ▸ hmem))⟩

theorem AtHead.wf {i : Instr} {s : State} (h : AtHead i s) : i.wf s.cfg.r = true := by
  obtain ⟨j, hj, hw⟩ := head_of_admitted h.admitted h.inProgram
  cases h.head.symm.trans hj
  exact hw

theorem runCycle_atHead {i : Instr} {s : State} (h : AtHead i s) : runCycle s = .next (issueCycle i s) := by
  simp [runCycle, headSlot, h.inProgram, h.head, exec_next h.wf]

theorem runCycle_draining {s : State} (h : Draining s) : runCycle s = .next (drainCycle s) := by
  simp [runCycle, headSlot, h.allIssued]

/-- Where a cycle runs from a state with the invariants, it has a head, or everything has issued (R100, R182). -/
theorem atHead_or_draining {s : State} (h : Inv s) (hh : ¬ held s) :
    (∃ i, AtHead i (releaseReset s)) ∨ Draining (releaseReset s) := by
  obtain ⟨he, hhalt, -⟩ := not_held_iff.1 hh
  have hinv := release_inv h
  have ha : admission (releaseReset s) = none := (hinv.sized.checked (releaseReset_inReset s)).symm.trans he
  have hf : (releaseReset s).fault = none := by
    by_contra hf
    simp [halted_iff.2 (.inr (by simpa using hf))] at hhalt
  rcases hinv.sized.next.lt_or_eq with hn | hn
  · obtain ⟨i, hi, -⟩ := head_of_admitted ha hn
    exact .inl ⟨i, hinv, ha, hn, hi, hf⟩
  · exact .inr ⟨hinv, ha, hn, hf⟩

/-- Everything a step without reset can do from a state with the invariants (R182, R183, R217). -/
theorem step_of_inv {s t : State} (h : Inv s) (hr : s.pins.rst = false) (hst : step s = .next t) :
    t = releaseReset s ∨ t = raiseFault (.cycleCapExceeded s.cycle) (releaseReset s) ∨
      (∃ i, AtHead i (releaseReset s) ∧ t = issueCycle i (releaseReset s)) ∨
      Draining (releaseReset s) ∧ t = drainCycle (releaseReset s) := by
  by_cases hh : held s
  · exact .inl (Host.Outcome.next.inj (hst.symm.trans (step_held hr hh)))
  cases hc : capReached s with
  | true => exact .inr (.inl (Host.Outcome.next.inj (hst.symm.trans (step_cap hr hh hc))))
  | false =>
    rw [step_cycle hr hh hc] at hst
    rcases atHead_or_draining h hh with ⟨i, hi⟩ | hd
    · exact .inr (.inr (.inl ⟨i, hi, Host.Outcome.next.inj (hst.symm.trans (runCycle_atHead hi))⟩))
    · exact .inr (.inr (.inr ⟨hd, Host.Outcome.next.inj (hst.symm.trans (runCycle_draining hd))⟩))

/-- Settles O33: such an edge is a held one, and after the release it evaluates nothing. -/
theorem heldEdgeKeepsTheState : Obligations.HeldEdgeKeepsTheState := by
  intro s hr hin h
  have hheld : held s := by
    rw [held, releaseReset_of_released hin, halted_iff]
    tauto
  rw [step_held hr hheld, releaseReset_of_released hin]

/-! ### The invariants (R40) -/

/-- A fault record touches only INV12, whose exception it leaves (R218). -/
theorem raiseFault_inv {s : State} (f : FaultRecord) (h : Inv s) : Inv (raiseFault f s) := by
  unfold raiseFault
  split
  · next hf =>
    have hdz : ¬ dividedByZero s := by simp [dividedByZero, hf]
    exact { h with
      sized := h.sized.of_eq rfl rfl rfl rfl h.sized.next rfl rfl rfl rfl
      inv12 := fun r st t ho hj hk hr ht =>
        (h.inv12 r st t ho hj hk hr ht).imp_right fun hx => absurd hx.2.1 hdz }
  · exact h

/-- A cycle without a head keeps the invariants (R100, R180). -/
theorem drainCycle_inv {s : State} (h : Draining s) : Inv (drainCycle s) :=
  finishCycle_inv (advance_inv h.inv) (latency_pos h.admitted) h.noFault

/-- Settles O40, by the kinds of edges. -/
theorem stepKeepsTheInvariants : Obligations.StepKeepsTheInvariants := by
  intro s t h hst
  by_cases hr : s.pins.rst = true
  · cases hst.symm.trans (step_reset hr)
    exact reset_inv s h.sized.reg
  rcases step_of_inv h (by simpa using hr) hst with rfl | rfl | ⟨i, hi, rfl⟩ | ⟨hd, rfl⟩
  · exact release_inv h
  · exact raiseFault_inv _ (release_inv h)
  · exact issueCycle_inv hi
  · exact drainCycle_inv hd

/-- Settles O39: State.reset has every station free and nothing issued. -/
theorem invariantsHoldAtReset : Obligations.InvariantsHoldAtReset := by
  refine pristine_inv ?_ rfl ?_ rfl rfl
  · exact ⟨List.length_replicate, List.length_replicate, List.length_replicate, rfl, Nat.zero_le _,
      (fun h => nomatch h), fun _ => rfl⟩
  · intro st hst
    rw [List.eq_of_mem_replicate hst]
    exact ⟨rfl, rfl, rfl, rfl, rfl⟩

/-! ### CFG, PROG and the pins -/

/-- Issue writes none of CFG, PROG, the pins and the reset bit (R113). -/
theorem issue_fixed (i : Instr) (s : State) :
    (issue i s).cfg = s.cfg ∧ (issue i s).prog = s.prog ∧ (issue i s).pins = s.pins ∧
      (issue i s).inReset = s.inReset := by
  rcases issue_cases i s with ⟨e, -⟩ | ⟨r, -, -, e⟩ <;> rw [e] <;> exact ⟨rfl, rfl, rfl, rfl⟩

theorem issue_fault (i : Instr) (s : State) : (issue i s).fault = s.fault := by
  rcases issue_cases i s with ⟨e, -⟩ | ⟨r, -, -, e⟩ <;> simp [e]

theorem issue_cycle (i : Instr) (s : State) : (issue i s).cycle = s.cycle := by
  rcases issue_cases i s with ⟨e, -⟩ | ⟨r, -, -, e⟩ <;> simp [e]

/-- Execute and Writeback write none of them either (R139, R169). -/
theorem finishCycle_fixed (s : State) :
    (finishCycle s).cfg = s.cfg ∧ (finishCycle s).prog = s.prog ∧ (finishCycle s).pins = s.pins ∧
      (finishCycle s).inReset = s.inReset := by
  simp [finishCycle]

theorem issueCycle_fixed (i : Instr) (s : State) :
    (issueCycle i s).cfg = s.cfg ∧ (issueCycle i s).prog = s.prog ∧ (issueCycle i s).pins = s.pins ∧
      (issueCycle i s).inReset = s.inReset := by
  obtain ⟨hcfg, hprog, hpins, hreset⟩ := issue_fixed i (advanceCycle s)
  obtain ⟨hcfg', hprog', hpins', hreset'⟩ := finishCycle_fixed (issue i (advanceCycle s))
  exact ⟨hcfg'.trans hcfg, hprog'.trans hprog, hpins'.trans hpins, hreset'.trans hreset⟩

/-- Settles O38, by the kinds of edges. -/
theorem configurationAndProgramAreFixed : Obligations.ConfigurationAndProgramAreFixed := by
  intro s t hst
  rcases step_cases hst with ⟨hr, rfl⟩ | ⟨-, rfl, -⟩ | ⟨-, -, -, -, ⟨-, rfl⟩ | ⟨-, ⟨-, rfl⟩ | ⟨i, -, -, -, rfl⟩⟩⟩
  · exact ⟨rfl, fun h => by simp [hr] at h⟩
  · simp
  · simp
  · simp [drainCycle, finishCycle_fixed]
  · simp [issueCycle_fixed]

/-! ### Operands at issue -/

theorem mapped_of_readStat {s : State} {i : RegIx} {p : Nat} (h : readStat s i = some p) : mapped s i.toNat p := by
  unfold readStat at h
  cases hi : s.rstat[i.toNat]? with
  | none => simp [hi] at h
  | some t => exact hi.trans (by simpa [hi] using h)

/-! The operand slots of an admitted station: a value clears the tag, a tag leaves the value slot (R104). -/

theorem fill_valJ (op v ok n st) :
    (Station.fill op (.val v) ok n st).vj = v ∧ (Station.fill op (.val v) ok n st).qj = none := by
  cases ok <;> exact ⟨rfl, rfl⟩

theorem fill_waitJ (op p ok n st) :
    (Station.fill op (.wait p) ok n st).vj = st.vj ∧ (Station.fill op (.wait p) ok n st).qj = some p := by
  cases ok <;> exact ⟨rfl, rfl⟩

theorem fill_valK (op oj v n st) :
    (Station.fill op oj (.val v) n st).vk = v ∧ (Station.fill op oj (.val v) n st).qk = none := by
  cases oj <;> exact ⟨rfl, rfl⟩

theorem fill_waitK (op oj p n st) :
    (Station.fill op oj (.wait p) n st).vk = st.vk ∧ (Station.fill op oj (.wait p) n st).qk = some p := by
  cases oj <;> exact ⟨rfl, rfl⟩

theorem issue_of_arbiter {i : Instr} {s : State} {r : Nat} (hn : s.next < s.cfg.n)
    (ha : arbiter s i.op.cls = some r) : issue i s = admitTo i r s := by
  rw [issue, if_neg hn.not_ge, ha]

/-- A pending producer is busy, so it is not the station the arbiter gives (INV1, R101). -/
theorem producer_ne_arbiter {s : State} (h : Inv s) {k : OpClass} {r : Nat} (ha : arbiter s k = some r) {i : RegIx}
    {p : Nat} (hp : readStat s i = some p) : p ≠ r := by
  rintro rfl
  obtain ⟨-, ⟨st, hst, hfree⟩, -⟩ := arbiter_some ha
  obtain ⟨sp, hsp, hbusy⟩ := h.inv1Rstat _ _ (mapped_of_readStat hp)
  rw [stationIs_unique hst hsp, hbusy] at hfree
  cases hfree

/-- Settles O12: the station is filled from the table before the rename, and a producer is busy where it is free. -/
theorem operandsAreResolvedBeforeTheRename : Obligations.OperandsAreResolvedBeforeTheRename := by
  intro i s r st h hn ha hst
  refine ⟨st.fill i.op (resolve s i.rs) (resolve s i.rt) s.next, ?_, ?_, ?_⟩
  · rw [issue_of_arbiter hn ha, stationIs, admitTo_station, hst]
    simp
  · unfold resolve
    cases hj : readStat s i.rs with
    | none => exact fill_valJ ..
    | some p => exact ⟨(fill_waitJ ..).1, (fill_waitJ ..).2, producer_ne_arbiter h ha hj⟩
  · unfold resolve
    cases hk : readStat s i.rt with
    | none => exact fill_valK ..
    | some p => exact ⟨(fill_waitK ..).1, (fill_waitK ..).2, producer_ne_arbiter h ha hk⟩

/-! ### DONE -/

theorem exists_timeIs {s : State} (h : Sized s) {k : Nat} (hk : k < s.cfg.n) : ∃ t, timeIs s k t :=
  ⟨_, List.getElem?_eq_getElem (h.ts ▸ hk)⟩

theorem done_iff_retired {s : State} (h : Sized s) :
    done s = true ↔ ∀ k, k < s.cfg.n → ∃ t, timeIs s k t ∧ t.wb ≠ none := by
  rw [done_iff]
  constructor
  · intro hd k hk
    obtain ⟨t, ht⟩ := exists_timeIs h hk
    exact ⟨t, ht, hd t (List.mem_of_getElem? ht)⟩
  · intro hd t hmem
    obtain ⟨k, hk⟩ := List.mem_iff_getElem?.1 hmem
    obtain ⟨u, hu, hw⟩ := hd k (h.ts ▸ timeIs_lt hk)
    exact timeIs_unique hk hu ▸ hw

theorem done_iff_empty {s : State} (h : Inv s) :
    done s = true ↔ s.next = s.cfg.n ∧ ∀ r st, stationIs s r st → st.busy = false := by
  rw [done_iff]
  constructor
  · intro hd
    have hret : ∀ {k t}, timeIs s k t → t.wb ≠ none := fun ht => hd _ (List.mem_of_getElem? ht)
    refine ⟨h.sized.next.eq_or_lt.resolve_right fun hn => ?_, fun r st hst => ?_⟩
    · obtain ⟨t, ht⟩ := exists_timeIs h.sized hn
      exact hret ht (by rw [h.inv10After _ _ le_rfl ht])
    · by_contra hb
      obtain ⟨t, ht, -, hw⟩ := h.inv5Time r st ⟨hst, by simpa using hb⟩
      exact hret ht hw
  · rintro ⟨hn, hfree⟩ t hmem hw
    obtain ⟨k, hk⟩ := List.mem_iff_getElem?.1 hmem
    obtain ⟨r, st, ⟨hst, hb⟩, -⟩ := h.inFlight k t (hn ▸ h.sized.ts ▸ timeIs_lt hk) hk hw
    simp [hfree r st hst] at hb

/-- Settles O43: an instruction without a writeback is one not yet issued, or in a busy station. -/
theorem doneIsAnEmptyPipeline : Obligations.DoneIsAnEmptyPipeline := fun _ h =>
  ⟨done_iff_retired h.sized, done_iff_empty h,
    fun hn => (done_iff_retired h.sized).2 fun _ hk => absurd hk (by simp [hn])⟩

/-! ### The simulation at both ends of a run -/

theorem not_occupied_of_free {s : State} (hf : ∀ r st, stationIs s r st → st.busy = false) (r : Nat) (st : Station) :
    ¬ occupied s r st := fun ⟨hst, hb⟩ => by
  rw [hf r st hst] at hb
  cases hb

theorem Booted.simulates {s : State} (h : Booted s) : Simulates s.reg s := by
  have hfree : ∀ r st, stationIs s r st → st.busy = false ∧ st.ready = false := fun r st hst =>
    have hf := h.free st (List.mem_of_getElem? hst)
    ⟨hf.1, hf.2.1⟩
  have hno := not_occupied_of_free fun r st hst => (hfree r st hst).1
  have hmap : ∀ i r, ¬ mapped s i r := fun i r hm => by
    simp [mapped, h.rstat, List.getElem?_replicate] at hm
  exact
    { size := h.reg
      settled := fun i _ => by simp [seqUpTo, seqRun, h.next]
      pending := fun i r st hm => absurd hm (hmap i r)
      valueJ := fun a st i ho => absurd ho (hno a st)
      valueK := fun a st i ho => absurd ho (hno a st)
      waitJ := fun a st i p sp ho => absurd ho (hno a st)
      waitK := fun a st i p sp ho => absurd ho (hno a st)
      result := fun r st i hst hr => by simp [(hfree r st hst).2] at hr }

theorem seqUpTo_all (reg0 : List Word) (s : State) : seqUpTo reg0 s s.cfg.n = seqRun reg0 (program s) := by
  rw [seqUpTo, List.take_of_length_le (by simp [program])]

/-- At DONE no station is busy, so no register is mapped and each has settled at the end of the program (R35). -/
theorem reg_of_done {reg0 : List Word} {s : State} (h : Inv s) (hsim : Simulates reg0 s) (hd : done s = true) :
    s.reg = seqRun reg0 (program s) := by
  obtain ⟨hn, hfree⟩ := (done_iff_empty h).1 hd
  refine List.ext_getElem? fun i => ?_
  rw [hsim.settled i, hn, seqUpTo_all]
  intro r hm
  obtain ⟨st, ho⟩ := h.inv1Rstat i r hm
  exact not_occupied_of_free hfree r st ho

/-- Settles O57: a booted state has no station in use, and a state at DONE neither. -/
theorem simulationBeginsAndEnds : Obligations.SimulationBeginsAndEnds :=
  ⟨fun _ h => h.simulates, fun _ _ h hsim hd => reg_of_done h hsim hd⟩

/-! ### The status outputs -/

/-- Settles O53: each line is as wide as what it shows (R8). -/
theorem outputPinsShowTheStatus : Obligations.OutputPinsShowTheStatus := by
  refine ⟨by decide, ?_⟩
  intro s o
  refine ⟨done_iff, ?_, rfl, rfl, fun hn => Nat.mod_eq_of_lt (next_lt_two_pow hn), ?_, ?_, ?_, ?_⟩
  · simp only [o, outputs, Bool.or_eq_true, halted_iff, done_iff, Option.isSome_iff_ne_none, or_assoc]
  · intro hf
    simp [o, outputs, hf, faultCode]
  · intro k r c hf hk hr
    have hk := Nat.mod_eq_of_lt (inst_lt_two_pow hk)
    have hr := Nat.mod_eq_of_lt (station_lt_two_pow hr)
    simp [o, outputs, hf, faultCode, faultInst, faultStation, faultCycle, hk, hr]
  · intro c hf
    simp [o, outputs, hf, faultCode, faultCycle]
  · intro hf
    simp [o, outputs, hf, faultCode]

/-! ### INV12 in R40's own words -/

/-- `ADD R1,R2,R3; DIV R2,R1,R0; DIV R3,R1,R0` with R0 = 0, LA = 2, LD = 1 and two DIV stations: both DIVs wait for the
ADD and expire in the cycle after its broadcast. -/
def twoDivs : State :=
  { State.reset with
    rstat := List.replicate 4 none
    stations := List.replicate 3 Station.atReset
    prog := [some (.instr (.add 1 2 3)), some (.instr (.div 2 1 0)), some (.instr (.div 3 1 0))]
    ts := List.replicate 3 {}
    cfg := { na := 1, nm := 0, nd := 2, la := 2, lm := 1, ld := 1, r := 4, n := 3 } }

theorem twoDivs_booted : Booted twoDivs where
  inReset := rfl
  cfgErr := rfl
  admitted := by decide
  reg := List.length_replicate
  rstat := rfl
  pool := rfl
  free := by
    intro st hst
    rw [List.eq_of_mem_replicate hst]
    exact ⟨rfl, rfl, rfl, rfl, rfl⟩
  next := rfl
  ts := rfl
  cycle := rfl
  fault := rfl
  noCap := rfl
  running := ⟨rfl, rfl⟩

/-- After its four cycles: both DIVs have failed, and FAULT names station 1. -/
def twoDivsFailed : State :=
  drainCycle (issueCycle (.div 3 1 0) (issueCycle (.div 2 1 0) (issueCycle (.add 1 2 3) (releaseReset twoDivs))))

theorem run_twoDivs : run 4 twoDivs = .next twoDivsFailed := rfl

/-- Refutes O41: in `twoDivsFailed` FAULT names station 1, and station 2, which divided by zero in the same cycle, has
begun with its counter at 0. -/
theorem not_inv12AsWrittenHoldsOfEveryRun : ¬ Obligations.Inv12AsWrittenHoldsOfEveryRun := by
  intro h
  have hfault : twoDivsFailed.fault = some (.divideByZero 1 1 4) := by decide
  have hstation : ∃ st, occupied twoDivsFailed 2 st ∧ st.qj = none ∧ st.qk = none ∧ st.ready = false ∧ st.lat = 0 ∧
      st.inst = 2 :=
    ⟨{ busy := true, op := .div, vj := 0, vk := 0, qj := none, qk := none, lat := 0, result := 0, ready := false,
       inst := 2 }, by decide⟩
  have htime : timeIs twoDivsFailed 2 { issue := some 3, ebegin := some 4 } := by decide
  obtain ⟨st, ho, hj, hk, hr, hlat, hinst⟩ := hstation
  rcases h _ _ 4 twoDivs_booted run_twoDivs 2 st _ ho hj hk hr (hinst ▸ htime) with hbegin | ⟨-, k, c, hnamed⟩
  · cases hbegin.1 hlat
  · cases hfault.symm.trans hnamed

/-! ### No rule reads an unspecified field (R27, R29, R187)

Each stage takes stations that agree on the specified fields to stations that agree on them; what a stage reads of a
station it reads of both. -/

namespace SameStation

variable {a b : Station}

/-- Free stations agree when their counters do (R29). -/
theorem of_free (ha : a.busy = false) (hb : b.busy = false) (hra : a.ready = false) (hrb : b.ready = false)
    (hlat : a.lat = b.lat) (hqj : a.qj = b.qj) (hqk : a.qk = b.qk) : SameStation a b := by
  constructor <;> simp_all

theorem eligible (h : SameStation a b) : a.eligible = b.eligible := by
  simp [Station.eligible, h.busy, h.qj, h.qk, h.ready]

/-- Execute reads the operation and the operands of an eligible station, whose fields are specified (R130). -/
theorem execEvent (h : SameStation a b) (c : Cfg) : execEvent c a = execEvent c b := by
  cases he : a.eligible with
  | false => simp [Machine.execEvent, he, ← h.eligible]
  | true =>
    obtain ⟨hb, hj, hk, -⟩ := eligible_iff.1 he
    simp [Machine.execEvent, he, ← h.eligible, h.lat, h.op hb, h.vj hb hj, h.vk hb hk]

theorem execStation (h : SameStation a b) (c : Cfg) : SameStation (execStation c a) (execStation c b) := by
  unfold Machine.execStation
  rw [← h.execEvent c]
  split
  · exact h
  · exact { h with lat := by simp [h.lat] }
  · exact { h with lat := rfl, ready := rfl, result := fun _ => rfl }
  · exact h

/-- An eligible station is busy, so its instruction index is specified. -/
theorem eligible_inst (h : SameStation a b) (k : Nat) :
    (a.eligible && a.inst == k) = (b.eligible && b.inst == k) := by
  rw [← h.eligible]
  cases he : a.eligible with
  | false => rfl
  | true => rw [h.inst (eligible_iff.1 he).1]

end SameStation

theorem eligible_of_event {c : Cfg} {st : Station} (h : execEvent c st ≠ .idle) : st.eligible = true := by
  by_contra he
  simp [execEvent, he] at h

theorem eligible_of_completes {c : Cfg} {st : Station} (h : completes c st = true) : st.eligible = true := by
  obtain ⟨v, hv⟩ := completes_iff.1 h
  exact eligible_of_event (c := c) (by simp [hv])

namespace SameStation

variable {a b : Station}

theorem completes_inst (h : SameStation a b) (c : Cfg) (k : Nat) :
    (completes c a && a.inst == k) = (completes c b && b.inst == k) := by
  have hc : completes c a = completes c b := by simp only [completes, h.execEvent c]
  rw [← hc]
  cases he : completes c a with
  | false => rfl
  | true => rw [h.inst (eligible_iff.1 (eligible_of_completes he)).1]

theorem forwardJ (h : SameStation a b) (bus : List (Option Word)) :
    SameStation (a.forwardJ bus) (b.forwardJ bus) := by
  unfold Station.forwardJ
  rw [← h.qj]
  split
  · exact { h with vj := fun _ _ => rfl, qj := rfl }
  · exact h

theorem forwardK (h : SameStation a b) (bus : List (Option Word)) :
    SameStation (a.forwardK bus) (b.forwardK bus) := by
  unfold Station.forwardK
  rw [← h.qk]
  split
  · exact { h with vk := fun _ _ => rfl, qk := rfl }
  · exact h

/-- Admission writes each operand slot that has a value, so what the free station held there is not specified after it
either (R104). -/
theorem fill (h : SameStation a b) (op : Op) (oj ok : Operand) (n : Nat) :
    SameStation (a.fill op oj ok n) (b.fill op oj ok n) where
  busy := rfl
  ready := by simp [h.ready]
  lat := by simp [h.lat]
  op := fun _ => rfl
  inst := fun _ => rfl
  result := by simpa using h.result
  qj := by
    cases oj with
    | val v => rw [(fill_valJ ..).2, (fill_valJ ..).2]
    | wait p => rw [(fill_waitJ ..).2, (fill_waitJ ..).2]
  qk := by
    cases ok with
    | val v => rw [(fill_valK ..).2, (fill_valK ..).2]
    | wait p => rw [(fill_waitK ..).2, (fill_waitK ..).2]
  vj := by
    intro _ hq
    cases oj with
    | val v => rw [(fill_valJ ..).1, (fill_valJ ..).1]
    | wait p => simp [fill_waitJ] at hq
  vk := by
    intro _ hq
    cases ok with
    | val v => rw [(fill_valK ..).1, (fill_valK ..).1]
    | wait p => simp [fill_waitK] at hq

end SameStation

namespace SameButUnspecified

variable {s t : State}

theorem stationIs_right (h : SameButUnspecified s t) {r : Nat} {a : Station} (ha : stationIs s r a) :
    ∃ b, stationIs t r b ∧ SameStation a b := by
  have hr : r < t.stations.length := h.pool ▸ stationIs_lt ha
  have hb : stationIs t r t.stations[r] := List.getElem?_eq_getElem hr
  exact ⟨_, hb, h.station r a _ ha hb⟩

/-- A list read off the stations, position by position, is the same when each entry is. -/
theorem mapIdx_eq {α : Type} (h : SameButUnspecified s t) {f g : Nat → Station → α}
    (hfg : ∀ r a b, stationIs s r a → stationIs t r b → SameStation a b → f r a = g r b) :
    s.stations.mapIdx f = t.stations.mapIdx g := by
  refine List.ext_getElem (by simp [h.pool]) fun r h1 h2 => ?_
  simp only [List.length_mapIdx] at h1 h2
  have ha : stationIs s r s.stations[r] := List.getElem?_eq_getElem h1
  have hb : stationIs t r t.stations[r] := List.getElem?_eq_getElem h2
  simpa using hfg r _ _ ha hb (h.station r _ _ ha hb)

theorem map_eq {α : Type} (h : SameButUnspecified s t) {f : Station → α}
    (hf : ∀ a b, SameStation a b → f a = f b) : s.stations.map f = t.stations.map f := by
  have hmap := h.mapIdx_eq (f := fun _ => f) (g := fun _ => f) fun _ a b _ _ => hf a b
  simpa [List.mapIdx_eq_ofFn, List.ofFn_getElem_eq_map] using hmap

theorem any_eq (h : SameButUnspecified s t) {f : Station → Bool} (hf : ∀ a b, SameStation a b → f a = f b) :
    s.stations.any f = t.stations.any f := by
  simpa [List.any_map] using congrArg (List.any · id) (h.map_eq hf)

theorem isFree_eq (h : SameButUnspecified s t) : isFree s = isFree t := by
  funext r
  have hb := congrArg (·[r]?) (h.map_eq fun a b hab => hab.busy)
  simp only [List.getElem?_map] at hb
  unfold isFree
  cases hs : s.stations[r]? <;> cases ht : t.stations[r]? <;> simp_all

theorem arbiter_eq (h : SameButUnspecified s t) (k : OpClass) : arbiter s k = arbiter t k := by
  rw [arbiter, arbiter, h.cfg, h.isFree_eq]

theorem resolve_eq (h : SameButUnspecified s t) (i : RegIx) : resolve s i = resolve t i := by
  simp only [resolve, readStat, readReg, h.rstat, h.reg]

theorem broadcasts_eq (h : SameButUnspecified s t) : broadcasts s = broadcasts t := by
  funext r
  have hb := congrArg (·[r]?) (h.map_eq fun a b hab => hab.ready)
  simp only [List.getElem?_map] at hb
  unfold broadcasts
  cases hs : s.stations[r]? <;> cases ht : t.stations[r]? <;> simp_all

theorem done_eq (h : SameButUnspecified s t) : done s = done t := by rw [done, done, h.ts]

theorem capReached_eq (h : SameButUnspecified s t) : capReached s = capReached t := by
  simp only [capReached, h.cfg, h.cycle]

theorem admission_eq (h : SameButUnspecified s t) : admission s = admission t := admission_congr h.prog h.cfg

/-! Each operation keeps the agreement. -/

theorem advanceCycle (h : SameButUnspecified s t) : SameButUnspecified (advanceCycle s) (advanceCycle t) :=
  { h with cycle := by simp [h.cycle] }

theorem releaseReset (h : SameButUnspecified s t) : SameButUnspecified (releaseReset s) (releaseReset t) := by
  unfold Machine.releaseReset
  rw [← h.inReset]
  split
  · exact { h with cfgErr := h.admission_eq, inReset := rfl }
  · exact h

theorem raiseFault (h : SameButUnspecified s t) (f : FaultRecord) :
    SameButUnspecified (raiseFault f s) (raiseFault f t) := by
  unfold Machine.raiseFault
  rw [← h.fault]
  split
  · exact { h with fault := rfl }
  · exact h

theorem resetEdge (h : SameButUnspecified s t) : SameButUnspecified (resetEdge s) (resetEdge t) where
  reg := by simp [h.pins, h.reg]
  rstat := by simp [h.pins]
  pool := by simp [h.pins]
  station := by
    intro r a b ha hb
    simp only [stationIs, resetEdge_stations, List.getElem?_map, Option.map_eq_some_iff] at ha hb
    obtain ⟨_, -, rfl⟩ := ha
    obtain ⟨_, -, rfl⟩ := hb
    exact .of_free rfl rfl rfl rfl rfl rfl rfl
  prog := by simp [h.pins, h.prog]
  next := rfl
  ts := by simp [h.pins]
  cycle := rfl
  fault := rfl
  cfg := by simp [h.pins]
  cfgErr := rfl
  inReset := rfl
  pins := h.pins

theorem admitTo (h : SameButUnspecified s t) (i : Instr) (r : Nat) :
    SameButUnspecified (admitTo i r s) (admitTo i r t) where
  reg := h.reg
  rstat := by simp [h.rstat]
  pool := by simp [h.pool]
  station := by
    intro q a b ha hb
    simp only [stationIs, admitTo_station, Option.map_eq_some_iff, h.resolve_eq, h.next] at ha hb
    obtain ⟨a, ha, rfl⟩ := ha
    obtain ⟨b, hb, rfl⟩ := hb
    have hab := h.station q a b ha hb
    split
    · exact hab.fill ..
    · exact hab
  prog := h.prog
  next := by simp [h.next]
  ts := by simp [h.ts, h.next, h.cycle]
  cycle := h.cycle
  fault := h.fault
  cfg := h.cfg
  cfgErr := h.cfgErr
  inReset := h.inReset
  pins := h.pins

theorem issue (h : SameButUnspecified s t) (i : Instr) : SameButUnspecified (issue i s) (issue i t) := by
  unfold Machine.issue
  rw [← h.arbiter_eq, ← h.cfg, ← h.next]
  split
  · exact h
  · split
    · exact h
    · exact h.admitTo i _

theorem execTime_eq (h : SameButUnspecified s t) (c : Cfg) (cyc : CycleNo) :
    execTime c s.stations cyc = execTime c t.stations cyc := by
  funext k tm
  simp only [execTime, h.any_eq fun a b hab => hab.eligible_inst k, h.any_eq fun a b hab => hab.completes_inst c k]

theorem divFault_eq (h : SameButUnspecified s t) (c : Cfg) (cyc : CycleNo) :
    divFault c s.stations cyc = divFault c t.stations cyc := by
  have hidx : s.stations.findIdx? (fun st => execEvent c st == .divideByZero) =
      t.stations.findIdx? (fun st => execEvent c st == .divideByZero) := by
    have hmap := congrArg (List.findIdx? (· == ExecEvent.divideByZero)) (h.map_eq fun a b hab => hab.execEvent c)
    simpa [List.findIdx?_map, Function.comp_def] using hmap
  unfold divFault
  rw [hidx]
  cases hr : t.stations.findIdx? (fun st => execEvent c st == .divideByZero) with
  | none => rfl
  | some r =>
    obtain ⟨hlen, hev, -⟩ := List.findIdx?_eq_some_iff_getElem.1 (hidx.trans hr)
    have ha : stationIs s r s.stations[r] := List.getElem?_eq_getElem hlen
    obtain ⟨b, hb, hab⟩ := h.stationIs_right ha
    have hbusy := (eligible_iff.1 (eligible_of_event (c := c) (st := s.stations[r]) (by simp_all))).1
    simp [ha, hb, hab.inst hbusy]

theorem execute (h : SameButUnspecified s t) : SameButUnspecified (execute s) (execute t) where
  reg := by simp [h.reg]
  rstat := by simp [h.rstat]
  pool := by simp [h.pool]
  station := by
    intro r a b ha hb
    simp only [stationIs, execute_station, Option.map_eq_some_iff] at ha hb
    obtain ⟨a, ha, rfl⟩ := ha
    obtain ⟨b, hb, rfl⟩ := hb
    rw [h.cfg]
    exact (h.station r a b ha hb).execStation _
  prog := by simp [h.prog]
  next := by simp [h.next]
  ts := by rw [execute_ts, execute_ts, h.execTime_eq, h.ts, h.cfg, h.cycle]
  cycle := by simp [h.cycle]
  fault := by rw [execute_fault, execute_fault, h.divFault_eq, h.fault, h.cfg, h.cycle]
  cfg := by simp [h.cfg]
  cfgErr := by simp [h.cfgErr]
  inReset := by simp [h.inReset]
  pins := by simp [h.pins]

/-- A broadcasting station is ready, so its result is specified (R160, R161). -/
theorem cdb_eq {s1 t1 s2 t2 : State} (h1 : SameButUnspecified s1 t1) (h2 : SameButUnspecified s2 t2) (w : WB s1 s2) :
    cdb s1 s2 = cdb t1 t2 := by
  refine h2.mapIdx_eq fun r a b ha hb hab => ?_
  rw [← h1.broadcasts_eq]
  split
  · next hbr =>
    obtain ⟨st, ⟨hst, -⟩, hready, -⟩ := w.b r hbr
    rw [hab.result (stationIs_unique ha hst ▸ hready)]
  · rfl

/-- A broadcasting station is busy, so its instruction index is specified (R162). -/
theorem retires_eq {s1 t1 s2 t2 : State} (h1 : SameButUnspecified s1 t1) (h2 : SameButUnspecified s2 t2)
    (w : WB s1 s2) (k : Nat) : retires s1 s2 k = retires t1 t2 k := by
  refine congrArg (List.any · id) (h2.mapIdx_eq fun r a b ha hb hab => ?_)
  rw [← h1.broadcasts_eq]
  cases hbr : broadcasts s1 r with
  | false => rfl
  | true =>
    obtain ⟨st, ⟨hst, hbusy⟩, -⟩ := w.b r hbr
    rw [hab.inst (stationIs_unique ha hst ▸ hbusy)]

theorem writeback {s1 t1 s2 t2 : State} (h1 : SameButUnspecified s1 t1) (h2 : SameButUnspecified s2 t2)
    (w : WB s1 s2) : SameButUnspecified (writeback s1 s2) (writeback t1 t2) where
  reg := by simp only [Machine.writeback, h1.cdb_eq h2 w, h2.rstat, h2.reg]
  rstat := by simp only [Machine.writeback, h1.cdb_eq h2 w, h2.rstat]
  pool := by simp [Machine.writeback, h2.pool]
  station := by
    intro r a b ha hb
    simp only [stationIs, writeback_station, Option.map_eq_some_iff] at ha hb
    obtain ⟨a, ha, rfl⟩ := ha
    obtain ⟨b, hb, rfl⟩ := hb
    have hab := h2.station r a b ha hb
    rw [wbStation, wbStation, ← h1.broadcasts_eq, ← h1.cdb_eq h2 w]
    split
    · exact .of_free rfl rfl rfl rfl hab.lat rfl rfl
    · exact (hab.forwardJ _).forwardK _
  prog := h2.prog
  next := h2.next
  ts := by
    have htime : wbTime s1 s2 = wbTime t1 t2 := by
      funext k tm
      simp only [wbTime, h1.retires_eq h2 w, h2.cycle]
    simp only [Machine.writeback, htime, h2.ts]
  cycle := h2.cycle
  fault := h2.fault
  cfg := h2.cfg
  cfgErr := h2.cfgErr
  inReset := h2.inReset
  pins := h2.pins

theorem finishCycle (h : SameButUnspecified s t) (w : WB s (Machine.execute s)) :
    SameButUnspecified (finishCycle s) (finishCycle t) := h.writeback h.execute w

end SameButUnspecified

/-- The state after Issue of a cycle with a head has the invariants (R114). -/
theorem atHead_issue_inv {i : Instr} {s : State} (h : AtHead i s) : Inv (issue i (advanceCycle s)) :=
  issue_inv (advance_inv h.inv) (latency_pos h.admitted _) h.head

/-! What Writeback needs of a cycle's stages holds of every cycle that runs (R168). -/

theorem atHead_wb {i : Instr} {s : State} (h : AtHead i s) :
    WB (issue i (advanceCycle s)) (execute (issue i (advanceCycle s))) := by
  refine wb_of (execute_inv (atHead_issue_inv h) ?_ ?_)
  · rw [(issue_fixed i _).1]
    exact latency_pos h.admitted
  · rw [issue_fault]
    exact h.noFault

theorem draining_wb {s : State} (h : Draining s) : WB (advanceCycle s) (execute (advanceCycle s)) :=
  wb_of (execute_inv (advance_inv h.inv) (latency_pos h.admitted) h.noFault)

theorem SameButUnspecified.held_iff {s t : State} (h : SameButUnspecified s t) : held s ↔ held t := by
  rw [held, held, h.releaseReset.cfgErr, halted, halted, h.done_eq, h.fault, h.pins]

/-- States that agree have the same head instruction. -/
theorem SameButUnspecified.atHead {s t : State} {i : Instr} (h : SameButUnspecified s t) (ht : Inv t) (hs : AtHead i s) :
    AtHead i t where
  inv := ht
  admitted := h.admission_eq ▸ hs.admitted
  inProgram := h.next ▸ h.cfg ▸ hs.inProgram
  head := by rw [← progAt_congr h.prog, ← h.next, hs.head]
  noFault := h.fault ▸ hs.noFault

theorem SameButUnspecified.draining {s t : State} (h : SameButUnspecified s t) (ht : Inv t) (hs : Draining s) : Draining t where
  inv := ht
  admitted := h.admission_eq ▸ hs.admitted
  allIssued := h.next ▸ h.cfg ▸ hs.allIssued
  noFault := h.fault ▸ hs.noFault

/-- Settles O47: the two edges have the same reason, and every operation keeps the agreement. -/
theorem unspecifiedFieldsAreNeverRead : Obligations.UnspecifiedFieldsAreNeverRead := by
  intro s t hs ht h
  by_cases hr : s.pins.rst = true
  · exact ⟨_, _, step_reset hr, step_reset (h.pins ▸ hr), h.resetEdge⟩
  have hr : s.pins.rst = false := by simpa using hr
  by_cases hh : held s
  · exact ⟨_, _, step_held hr hh, step_held (h.pins ▸ hr) (h.held_iff.1 hh), h.releaseReset⟩
  have hht : ¬ held t := mt h.held_iff.2 hh
  cases hc : capReached s with
  | true =>
    refine ⟨_, _, step_cap hr hh hc, step_cap (h.pins ▸ hr) hht (h.capReached_eq ▸ hc), ?_⟩
    rw [h.cycle]
    exact h.releaseReset.raiseFault _
  | false =>
    rw [step_cycle hr hh hc, step_cycle (h.pins ▸ hr) hht (h.capReached_eq ▸ hc)]
    rcases atHead_or_draining hs hh with ⟨i, hi⟩ | hd
    · exact ⟨_, _, runCycle_atHead hi, runCycle_atHead (h.releaseReset.atHead (release_inv ht) hi),
        (h.releaseReset.advanceCycle.issue i).finishCycle (atHead_wb hi)⟩
    · exact ⟨_, _, runCycle_draining hd, runCycle_draining (h.releaseReset.draining (release_inv ht) hd),
        h.releaseReset.advanceCycle.finishCycle (draining_wb hd)⟩

/-! ### What a cycle does to the timestamps (R108, R131, R134, R162) -/

/-- What cycle `c`, run from `s`, can do to the timestamps of instruction k: `issue` is recorded for the head alone;
`ebegin` once, of an issued instruction; `eend` of one that has begun and not retired, the head or one in a station
without a result; `wb` once, of one whose execute-end stands from before the cycle. -/
structure TimeStep (s : State) (c : CycleNo) (k : Nat) (a b : TimeRec) : Prop where
  issue : b.issue = a.issue ∨ k = s.next ∧ a = {} ∧ b.issue = some c
  ebegin : b.ebegin = a.ebegin ∨ a.ebegin = none ∧ b.issue ≠ none ∧ b.ebegin = some c
  eend : b.eend = a.eend ∨ (a = {} ∨ ∃ r st, occupied s r st ∧ st.ready = false ∧ st.inst = k) ∧
    a.wb = none ∧ b.ebegin ≠ none ∧ b.eend = some c
  wb : b.wb = a.wb ∨ a.wb = none ∧ a.eend ≠ none ∧ b.eend = a.eend ∧ b.wb = some c

/-- Only the stations and NEXT of the state at the start count. -/
theorem TimeStep.congr {s u : State} {c : CycleNo} {k : Nat} {a b : TimeRec} (h : TimeStep s c k a b)
    (hst : u.stations = s.stations) (hn : u.next = s.next) : TimeStep u c k a b where
  issue := hn ▸ h.issue
  ebegin := h.ebegin
  eend := by simpa only [occupied, stationIs, hst] using h.eend
  wb := h.wb

/-- A cycle number in the record stood there before, or is the cycle's. -/
theorem TimeStep.recorded {s : State} {c : CycleNo} {k : Nat} {a b : TimeRec} (h : TimeStep s c k a b) {x : CycleNo}
    (hx : b.issue = some x ∨ b.ebegin = some x ∨ b.eend = some x ∨ b.wb = some x) :
    (a.issue = some x ∨ a.ebegin = some x ∨ a.eend = some x ∨ a.wb = some x) ∨ x = c := by
  rcases hx with hx | hx | hx | hx
  · rcases h.issue with hold | ⟨-, -, hnew⟩
    · exact .inl (.inl (hold ▸ hx))
    · exact .inr (Option.some.inj (hx.symm.trans hnew))
  · rcases h.ebegin with hold | ⟨-, -, hnew⟩
    · exact .inl (.inr (.inl (hold ▸ hx)))
    · exact .inr (Option.some.inj (hx.symm.trans hnew))
  · rcases h.eend with hold | ⟨-, -, -, hnew⟩
    · exact .inl (.inr (.inr (.inl (hold ▸ hx))))
    · exact .inr (Option.some.inj (hx.symm.trans hnew))
  · rcases h.wb with hold | ⟨-, -, -, hnew⟩
    · exact .inl (.inr (.inr (.inr (hold ▸ hx))))
    · exact .inr (Option.some.inj (hx.symm.trans hnew))

theorem exists_occupied_of_any_eligible {s : State} {k : Nat}
    (h : s.stations.any (fun st => st.eligible && st.inst == k) = true) :
    ∃ r st, occupied s r st ∧ st.eligible = true ∧ st.inst = k := by
  simp only [List.any_eq_true, Bool.and_eq_true, beq_iff_eq] at h
  obtain ⟨st, hmem, he, hk⟩ := h
  obtain ⟨r, hr⟩ := List.mem_iff_getElem?.1 hmem
  exact ⟨r, st, ⟨hr, (eligible_iff.1 he).1⟩, he, hk⟩

/-- An instruction that completes is eligible. -/
theorem any_eligible_of_any_completes {c : Cfg} {sts : List Station} {k : Nat}
    (h : sts.any (fun st => completes c st && st.inst == k) = true) :
    sts.any (fun st => st.eligible && st.inst == k) = true := by
  simp only [List.any_eq_true, Bool.and_eq_true] at h ⊢
  obtain ⟨st, hmem, hc, hk⟩ := h
  exact ⟨st, hmem, eligible_of_completes hc, hk⟩

/-- The instructions Writeback retires are those of the stations ready after Issue (R160, R162). -/
theorem ready_of_retires {s1 : State} {k : Nat} (h : retires s1 (execute s1) k = true) :
    ∃ r st, stationIs s1 r st ∧ st.ready = true ∧ st.inst = k := by
  obtain ⟨r, u, hu, hb, hk⟩ := retires_iff.1 h
  obtain ⟨st, hst, hr⟩ := broadcasts_iff.1 hb
  simp only [stationIs, execute_station, Option.map_eq_some_iff] at hu
  obtain ⟨st', hst', rfl⟩ := hu
  cases stationIs_unique hst hst'
  exact ⟨r, st, hst, hr, by simpa using hk⟩

/-- A retiring instruction does not complete in the cycle: it is in one station, and that is ready (INV4, R168). -/
theorem not_completes_of_retires {s1 : State} (h : Inv s1) {k : Nat} (hr : retires s1 (execute s1) k = true) :
    s1.stations.any (fun st => completes s1.cfg st && st.inst == k) = false := by
  by_contra hc
  obtain ⟨r, st, hst, hready, hk⟩ := ready_of_retires hr
  obtain ⟨q, sq, ho, he, hq⟩ :=
    exists_occupied_of_any_eligible (any_eligible_of_any_completes (by simpa using hc))
  obtain rfl := h.inv4 r q st sq ⟨hst, (h.inv7 r st hst hready).1⟩ ho (hk.trans hq.symm)
  obtain ⟨-, -, -, hnot⟩ := eligible_iff.1 he
  rw [stationIs_unique ho.1 hst, hready] at hnot
  cases hnot

theorem finishCycle_timeIs {s1 : State} {k : Nat} {a b : TimeRec} (ha : timeIs s1 k a)
    (hb : timeIs (finishCycle s1) k b) :
    b = wbTime s1 (execute s1) k (execTime s1.cfg s1.stations s1.cycle k a) := by
  rw [timeIs, finishCycle, writeback_time, execute_time, ha] at hb
  exact (Option.some.inj hb).symm

/-- Execute and Writeback record no issue. -/
theorem finishCycle_issue {s1 : State} {k : Nat} {a b : TimeRec} (ha : timeIs s1 k a)
    (hb : timeIs (finishCycle s1) k b) : b.issue = a.issue := by
  rw [finishCycle_timeIs ha hb]
  rfl

theorem finishCycle_time {s1 : State} (h : Inv s1) {k : Nat} {a b : TimeRec} (ha : timeIs s1 k a)
    (hb : timeIs (finishCycle s1) k b) : TimeStep s1 s1.cycle k a b := by
  obtain rfl := finishCycle_timeIs ha hb
  refine ⟨.inl rfl, ?ebegin, ?eend, ?wb⟩
  case ebegin =>
    simp only [wbTime, execTime]
    split
    · next hnew =>
      obtain ⟨hnone, hany⟩ := Bool.and_eq_true_iff.1 hnew
      obtain ⟨r, st, ho, -, rfl⟩ := exists_occupied_of_any_eligible hany
      obtain ⟨t, ht, hissue, -⟩ := h.inv5Time r st ho
      exact .inr ⟨by simpa using hnone, timeIs_unique ht ha ▸ hissue, rfl⟩
    · exact .inl rfl
  case eend =>
    simp only [wbTime, execTime]
    split
    · next hnew =>
      have hany := any_eligible_of_any_completes hnew
      obtain ⟨r, st, ho, he, rfl⟩ := exists_occupied_of_any_eligible hany
      obtain ⟨-, -, -, hready⟩ := eligible_iff.1 he
      obtain ⟨t, ht, -, hwb⟩ := h.inv5Time r st ho
      refine .inr ⟨.inr ⟨r, st, ho, hready, rfl⟩, timeIs_unique ht ha ▸ hwb, ?_, rfl⟩
      cases a.ebegin <;> simp [hany]
    · exact .inl rfl
  case wb =>
    by_cases hret : (a.wb.isNone && retires s1 (execute s1) k) = true
    · obtain ⟨hnone, hr⟩ := Bool.and_eq_true_iff.1 hret
      obtain ⟨r, st, hst, hready, rfl⟩ := ready_of_retires hr
      obtain ⟨t, ht, heend⟩ := h.inv7Time r st hst hready
      refine .inr ⟨by simpa using hnone, timeIs_unique ht ha ▸ heend, ?_, ?_⟩
      · simp [wbTime, execTime, not_completes_of_retires h hr]
      · simp [wbTime, execTime, hret]
    · exact .inl (if_neg hret)

/-- A cycle without a head (R100). -/
theorem drainCycle_time {s : State} (h : Inv s) {k : Nat} {a b : TimeRec} (ha : timeIs s k a)
    (hb : timeIs (drainCycle s) k b) : TimeStep s (s.cycle + 1) k a b :=
  (finishCycle_time (advance_inv h) ha hb).congr rfl rfl

/-- After admission a station that holds no result held none before, or holds the head (R102). -/
theorem admitTo_running {i : Instr} {s : State} {r q k : Nat} {st : Station} (ho : occupied (admitTo i r s) q st)
    (hready : st.ready = false) (hk : st.inst = k) (hne : k ≠ s.next) :
    ∃ q st, occupied s q st ∧ st.ready = false ∧ st.inst = k := by
  obtain ⟨hst, hbusy⟩ := ho
  simp only [stationIs, admitTo_station, Option.map_eq_some_iff] at hst
  obtain ⟨st0, hst0, rfl⟩ := hst
  split at hk
  · exact absurd (by simpa using hk.symm) hne
  · next hq =>
    simp only [if_neg hq] at hbusy hready
    exact ⟨q, st0, ⟨hst0, hbusy⟩, hready, hk⟩

/-- A cycle with a head: what Issue records, then the rest of the cycle (R108). -/
theorem issueCycle_time {i : Instr} {s : State} (h : AtHead i s) {k : Nat} {a b : TimeRec} (ha : timeIs s k a)
    (hb : timeIs (issueCycle i s) k b) : TimeStep s (s.cycle + 1) k a b := by
  have hinv := atHead_issue_inv h
  rw [issueCycle] at hb
  rcases issue_cases i (advanceCycle s) with ⟨e, -⟩ | ⟨r, -, -, e⟩
  · rw [e] at hinv hb
    exact (finishCycle_time hinv ha hb).congr rfl rfl
  rw [e] at hinv hb
  by_cases hk : k = s.next
  · subst hk
    obtain rfl := h.inv.inv10After _ a le_rfl ha
    have ha1 : timeIs (admitTo i r (advanceCycle s)) s.next { issue := some (s.cycle + 1) } := by
      rw [timeIs, admitTo_time, advanceCycle_ts, ha]
      simp
    have hstep := finishCycle_time hinv ha1 hb
    refine ⟨.inr ⟨rfl, rfl, finishCycle_issue ha1 hb⟩, hstep.ebegin, ?_, hstep.wb⟩
    exact hstep.eend.imp_right fun ⟨_, hrest⟩ => ⟨.inl rfl, hrest⟩
  · have ha1 : timeIs (admitTo i r (advanceCycle s)) k a := by
      rw [timeIs, admitTo_time, advanceCycle_ts, ha]
      simp [Ne.symm hk]
    have hstep := finishCycle_time hinv ha1 hb
    refine ⟨.inl (finishCycle_issue ha1 hb), hstep.ebegin, ?_, hstep.wb⟩
    refine hstep.eend.imp_right fun ⟨hwhere, hrest⟩ => ⟨hwhere.imp_right ?_, hrest⟩
    rintro ⟨q, st, ho, hready, hinst⟩
    exact admitTo_running (s := advanceCycle s) ho hready hinst hk

/-- A step without reset runs no cycle and leaves every timestamp, or runs the next cycle (R182). -/
theorem step_times {s t : State} (h : Inv s) (hr : s.pins.rst = false) (hst : step s = .next t) :
    t.ts = s.ts ∧ t.cycle = s.cycle ∨
      t.cycle = s.cycle + 1 ∧ ∀ k a b, timeIs s k a → timeIs t k b → TimeStep s (s.cycle + 1) k a b := by
  have hts : ∀ {k a}, timeIs s k a → timeIs (releaseReset s) k a := fun ha => by rwa [timeIs, releaseReset_ts]
  rcases step_of_inv h hr hst with rfl | rfl | ⟨i, hi, rfl⟩ | ⟨hd, rfl⟩
  · exact .inl (by simp)
  · exact .inl (by simp)
  · refine .inr ⟨by simp [issueCycle, finishCycle, issue_cycle], fun k a b ha hb => ?_⟩
    simpa using (issueCycle_time hi (hts ha) hb).congr (u := s) (by simp) (by simp)
  · refine .inr ⟨by simp [drainCycle, finishCycle], fun k a b ha hb => ?_⟩
    simpa using (drainCycle_time hd.inv (hts ha) hb).congr (u := s) (by simp) (by simp)

/-- The records before and after a step without reset are those of the same instructions. -/
theorem step_ts_length {s t : State} (h : Inv s) (hr : s.pins.rst = false) (hst : step s = .next t) :
    t.ts.length = s.ts.length := by
  rw [(stepKeepsTheInvariants s t h hst).sized.ts, h.sized.ts,
    ((configurationAndProgramAreFixed s t hst).2 hr).1]

theorem timeIs_of_lt {s : State} {k : Nat} (h : k < s.ts.length) : ∃ a, timeIs s k a :=
  ⟨_, List.getElem?_eq_getElem h⟩

/-- Settles O46: a cycle records a field that is none; for execute-end, by `Timing`, since the station has no result. -/
theorem timestampsAreWrittenOnce : Obligations.TimestampsAreWrittenOnce := by
  intro s t h htiming hr hst k a ha
  obtain ⟨b, hb⟩ := timeIs_of_lt (step_ts_length h hr hst ▸ timeIs_lt ha)
  refine ⟨b, hb, ?_⟩
  rcases step_times h hr hst with ⟨hts, -⟩ | ⟨-, htime⟩
  · rw [timeIs, hts, ha] at hb
    cases hb
    exact ⟨fun _ => rfl, fun _ => rfl, fun _ => rfl, fun _ => rfl⟩
  have hstep := htime k a b ha hb
  have hnoEnd : (a = {} ∨ ∃ r st, occupied s r st ∧ st.ready = false ∧ st.inst = k) → a.eend = none := by
    rintro (rfl | ⟨r, st, ho, hready, rfl⟩)
    · rfl
    · exact htiming.noEnd r st a ho hready ha
  exact
    ⟨fun hne => hstep.issue.resolve_right fun hx => hne (by simp [hx.2.1]),
      fun hne => hstep.ebegin.resolve_right fun hx => hne hx.1,
      fun hne => hstep.eend.resolve_right fun hx => hne (hnoEnd hx.1),
      fun hne => hstep.wb.resolve_right fun hx => hne hx.1⟩

/-! ### The order of the timestamps (R110, R249) -/

theorem resetEdge_timeIs {s : State} {k : Nat} {a : TimeRec} (h : timeIs (resetEdge s) k a) : a = {} := by
  simp only [timeIs, resetEdge_ts] at h
  exact List.eq_of_mem_replicate (List.mem_of_getElem? h)

theorem resetEdge_ordered (s : State) : Ordered (resetEdge s) where
  past := by
    intro k a c ha hc
    obtain rfl := resetEdge_timeIs ha
    simp at hc
  begins := by
    intro k a c ha hc
    obtain rfl := resetEdge_timeIs ha
    cases hc
  ends := by
    intro k a c ha hc
    obtain rfl := resetEdge_timeIs ha
    cases hc
  retires := by
    intro k a c ha hc
    obtain rfl := resetEdge_timeIs ha
    cases hc
  inOrder := by
    intro j k aj ak cj ck _ ha _ hc
    obtain rfl := resetEdge_timeIs ha
    cases hc

/-- The order reads nothing but TS and CYCLE. -/
theorem Ordered.congr {s t : State} (h : Ordered s) (hts : t.ts = s.ts) (hc : t.cycle = s.cycle) : Ordered t := by
  have htime : ∀ {k a}, timeIs t k a → timeIs s k a := fun ha => by rwa [timeIs, ← hts]
  exact
    { past := fun k a c ha => hc ▸ h.past k a c (htime ha)
      begins := fun k a c ha => h.begins k a c (htime ha)
      ends := fun k a c ha => h.ends k a c (htime ha)
      retires := fun k a c ha => h.retires k a c (htime ha)
      inOrder := fun j k aj ak cj ck hjk hj hk => h.inOrder j k aj ak cj ck hjk (htime hj) (htime hk) }

/-- A cycle keeps the order: what it records is its own number, which is past every recorded one. -/
theorem Ordered.cycle {s t : State} (h : Ordered s) (hinv : Inv s) (hlen : t.ts.length = s.ts.length)
    (hc : t.cycle.toNat = s.cycle.toNat + 1)
    (htime : ∀ k a b, timeIs s k a → timeIs t k b → TimeStep s t.cycle k a b) : Ordered t := by
  have hback : ∀ {k b}, timeIs t k b → ∃ a, timeIs s k a ∧ TimeStep s t.cycle k a b := fun hb => by
    obtain ⟨a, ha⟩ := timeIs_of_lt (hlen ▸ timeIs_lt hb)
    exact ⟨a, ha, htime _ a _ ha hb⟩
  have hpast : ∀ k b c, timeIs t k b → b.issue = some c ∨ b.ebegin = some c ∨ b.eend = some c ∨ b.wb = some c →
      c.toNat ≤ t.cycle.toNat := by
    intro k b c hb hrec
    obtain ⟨a, ha, hstep⟩ := hback hb
    rcases hstep.recorded hrec with hold | rfl
    · have hle := h.past k a c ha hold
      omega
    · exact le_rfl
  exact
  { past := hpast
    begins := by
      intro k b c hb hrec
      obtain ⟨a, ha, hstep⟩ := hback hb
      rcases hstep.ebegin with hold | ⟨-, hissued, hnew⟩
      · obtain ⟨i, hi, hle⟩ := h.begins k a c ha (hold ▸ hrec)
        exact ⟨i, (hstep.issue.resolve_right fun hx => by simp [hx.2.1] at hi).trans hi, hle⟩
      · obtain ⟨i, hi⟩ := Option.ne_none_iff_exists'.1 hissued
        cases hnew.symm.trans hrec
        exact ⟨i, hi, hpast k b i hb (.inl hi)⟩
    ends := by
      intro k b c hb hrec
      obtain ⟨a, ha, hstep⟩ := hback hb
      rcases hstep.eend with hold | ⟨-, -, hbegun, hnew⟩
      · obtain ⟨e, he, hle⟩ := h.ends k a c ha (hold ▸ hrec)
        exact ⟨e, (hstep.ebegin.resolve_right fun hx => by simp [hx.1] at he).trans he, hle⟩
      · obtain ⟨e, he⟩ := Option.ne_none_iff_exists'.1 hbegun
        cases hnew.symm.trans hrec
        exact ⟨e, he, hpast k b e hb (.inr (.inl he))⟩
    retires := by
      intro k b c hb hrec
      obtain ⟨a, ha, hstep⟩ := hback hb
      rcases hstep.wb with hold | ⟨-, hended, hkeep, hnew⟩
      · have hw : a.wb = some c := hold ▸ hrec
        obtain ⟨e, he, hlt⟩ := h.retires k a c ha hw
        exact ⟨e, (hstep.eend.resolve_right fun hx => by simp [hx.2.1] at hw).trans he, hlt⟩
      · obtain ⟨e, he⟩ := Option.ne_none_iff_exists'.1 hended
        have hle := h.past k a e ha (.inr (.inr (.inl he)))
        cases hnew.symm.trans hrec
        exact ⟨e, hkeep.trans he, by omega⟩
    inOrder := by
      intro j k bj bk cj ck hjk hj hk hrecj hreck
      obtain ⟨aj, haj, hstepj⟩ := hback hj
      obtain ⟨ak, hak, hstepk⟩ := hback hk
      rcases hstepk.issue with holdk | ⟨rfl, -, hnewk⟩
      · have hik : ak.issue = some ck := holdk ▸ hreck
        rcases hstepj.issue with holdj | ⟨rfl, -, -⟩
        · exact h.inOrder j k aj ak cj ck hjk haj hak (holdj ▸ hrecj) hik
        · simp [hinv.inv10After k ak hjk.le hak] at hik
      · have hij : aj.issue = some cj := (hstepj.issue.resolve_right fun hx => hjk.ne hx.1) ▸ hrecj
        have hle := h.past j aj cj haj (.inl hij)
        cases hnewk.symm.trans hreck
        omega }

/-- Settles O45, by the kinds of edges. -/
theorem stepKeepsTheOrderOfTimestamps : Obligations.StepKeepsTheOrderOfTimestamps := by
  intro s t h hord hwrap hst
  by_cases hr : s.pins.rst = true
  · cases hst.symm.trans (step_reset hr)
    exact resetEdge_ordered s
  have hr : s.pins.rst = false := by simpa using hr
  rcases step_times h hr hst with ⟨hts, hc⟩ | ⟨hc, htime⟩
  · exact hord.congr hts hc
  · refine hord.cycle h (step_ts_length h hr hst) ?_ (hc ▸ htime)
    rw [hc, BitVec.toNat_add]
    exact Nat.mod_eq_of_lt hwrap

end Sys2Proof.Machine
end

section
/-! The family of 20_memory.md: the registers and the status table in a cycle that renames a register while its old
producer broadcasts (R65, R107, R163, R167). -/

namespace Sys2Proof.Machine

/-- A register mapped to a station outside B keeps its value and its mapping through Execute and Writeback (R163). -/
theorem finishCycle_mapped_of_silent {s : State} {j r : Nat} (hm : mapped s j r) (hb : broadcasts s r = false) :
    (finishCycle s).reg[j]? = s.reg[j]? ∧ mapped (finishCycle s) j r := by
  have hbus : busAt (cdb s (execute s)) (some r) = none := by simp [busAt_cdb, hb]
  have hstat : (execute s).rstat[j]? = some (some r) := by rwa [execute_rstat]
  constructor
  · rw [finishCycle, writeback_reg, hstat, Option.getD_some, hbus]
    simp
  · rw [mapped, finishCycle, writeback_stat, hstat, Option.map_some, clearTag_some.2 ⟨rfl, hbus⟩]

/-- Admission maps a destination that exists to the station (R107). -/
theorem admitTo_mapped {i : Instr} {s : State} (r : Nat) (hd : i.rd.toNat < s.rstat.length) :
    mapped (admitTo i r s) i.rd.toNat r := by
  rw [mapped, admitTo_rstat, List.getElem?_set_self hd]

/-- The station of a newly admitted instruction was free, so it has no result to broadcast in that cycle (INV11, R106). -/
theorem admitTo_silent {s : State} (h : Inv s) {k : OpClass} {r : Nat} (ha : arbiter s k = some r) (i : Instr) :
    broadcasts (admitTo i r s) r = false := by
  obtain ⟨-, ⟨st, hst, hfree⟩, -⟩ := arbiter_some ha
  obtain ⟨hready, -⟩ := h.inv11 r st hst hfree
  rw [broadcasts, admitTo_station, hst]
  simpa using hready

/-- Settles O24: Writeback matches the table after the rename, which names the new, silent station, whatever the old
producer broadcasts. -/
theorem renameBeatsTheOldProducersBroadcast : Obligations.RenameBeatsTheOldProducersBroadcast := by
  intro i s r p sp h ha hmap _ _
  have hd : i.rd.toNat < s.rstat.length := (List.getElem?_eq_some_iff.1 hmap).1
  have hissue : issue i (advanceCycle s) = admitTo i r (advanceCycle s) := issue_of_arbiter h.inProgram ha
  refine ⟨issueCycle i s, exec_next h.wf, ?_⟩
  rw [issueCycle, hissue]
  exact finishCycle_mapped_of_silent (admitTo_mapped r hd) (admitTo_silent (advance_inv h.inv) ha i)

end Sys2Proof.Machine
end

section
/-! The family of 30_encoding.md: the instruction word and its decoder (R82 to R85), what a program with an illegal word
gets (R210), the two assembler forms (R87), and that no admitted run meets an illegal word (R85). -/

namespace Sys2Proof

/-! ### The record of an instruction (R80) -/

@[simp] theorem ofRecord_fields (i : Instr) : Instr.ofRecord i.op i.rd i.rs i.rt = i := by
  cases i <;> rfl

@[simp] theorem op_ofRecord (op : Op) (rd rs rt : RegIx) : (Instr.ofRecord op rd rs rt).op = op := by
  cases op <;> rfl

@[simp] theorem rd_ofRecord (op : Op) (rd rs rt : RegIx) : (Instr.ofRecord op rd rs rt).rd = rd := by
  cases op <;> rfl

@[simp] theorem rs_ofRecord (op : Op) (rd rs rt : RegIx) : (Instr.ofRecord op rd rs rt).rs = rs := by
  cases op <;> rfl

@[simp] theorem rt_ofRecord (op : Op) (rd rs rt : RegIx) : (Instr.ofRecord op rd rs rt).rt = rt := by
  cases op <;> rfl

/-! ### The fields of a word (R82, R83) -/

/-- An operation code has an operation exactly below 4 (R83, R85 a). -/
theorem opOfField_eq_none_iff {f : BitVec 4} : opOfField f = none ↔ 4 ≤ f.toNat := by
  revert f; decide

theorem opOfField_eq_some_iff {f : BitVec 4} {op : Op} : opOfField f = some op ↔ f = op.field := by
  revert f; cases op <;> decide

theorem fields_encode (i : Instr) : Laws.EncodingFields.Statement i := by
  cases i with
  | add => exact Laws.EncodingFields.add ..
  | sub => exact Laws.EncodingFields.sub ..
  | mult => exact Laws.EncodingFields.mult ..
  | div => exact Laws.EncodingFields.div ..

/-- A word is the concatenation of its five fields (R82). -/
theorem append_fields (w : InstrWord) :
    wordOp w ++ (wordZ w ++ (wordRd w ++ (wordRs w ++ wordRt w))) = w := by
  unfold wordOp wordZ wordRd wordRs wordRt
  iterate 4 rw [BitVec.extractLsb'_append_extractLsb'_eq_extractLsb' (by rfl)]
  exact BitVec.extractLsb'_eq_self

theorem toNat_wordOp (w : InstrWord) : (wordOp w).toNat = w.toNat / 2 ^ 28 := by
  rw [wordOp, BitVec.extractLsb'_toNat, Nat.shiftRight_eq_div_pow]
  omega

theorem toNat_wordZ (w : InstrWord) : (wordZ w).toNat = w.toNat / 2 ^ 24 % 2 ^ 4 := by
  rw [wordZ, BitVec.extractLsb'_toNat, Nat.shiftRight_eq_div_pow]

theorem toNat_wordRd (w : InstrWord) : (wordRd w).toNat = w.toNat / 2 ^ 16 % 2 ^ 8 := by
  rw [wordRd, BitVec.extractLsb'_toNat, Nat.shiftRight_eq_div_pow]

theorem toNat_wordRs (w : InstrWord) : (wordRs w).toNat = w.toNat / 2 ^ 8 % 2 ^ 8 := by
  rw [wordRs, BitVec.extractLsb'_toNat, Nat.shiftRight_eq_div_pow]

theorem toNat_wordRt (w : InstrWord) : (wordRt w).toNat = w.toNat % 2 ^ 8 := by
  rw [wordRt, BitVec.extractLsb'_toNat, Nat.shiftRight_zero]

/-! ### The decoder (R85) -/

/-- The decoder gives an instruction exactly when the word's code is one of an operation and its reserved bits are 0. -/
theorem decodeWord_eq_instr_iff_fields {w : InstrWord} {i : Instr} :
    decodeWord w = .instr i ↔
      opOfField (wordOp w) = some i.op ∧ wordZ w = 0#4 ∧
        wordRd w = i.rd ∧ wordRs w = i.rs ∧ wordRt w = i.rt := by
  unfold decodeWord
  cases hop : opOfField (wordOp w) with
  | none => simp
  | some op =>
    by_cases hz : wordZ w = 0#4
    · simp only [hz, if_true, Decoded.instr.injEq, Option.some.injEq, true_and]
      constructor
      · rintro rfl; simp
      · rintro ⟨rfl, hd, hs, ht⟩; rw [hd, hs, ht, ofRecord_fields]
    · simp [hz]

/-- The words that decode to an instruction are exactly its encoding: decoder and encoder are inverse (R82, R83). -/
theorem decodeWord_eq_instr_iff {w : InstrWord} {i : Instr} : decodeWord w = .instr i ↔ encode i = w := by
  rw [decodeWord_eq_instr_iff_fields, opOfField_eq_some_iff]
  constructor
  · rintro ⟨hop, hz, hd, hs, ht⟩
    rw [encode, ← hop, ← hz, ← hd, ← hs, ← ht, append_fields]
  · rintro rfl
    exact fields_encode i

theorem decodeWord_encode (i : Instr) : decodeWord (encode i) = .instr i := decodeWord_eq_instr_iff.2 rfl

/-- For R registers an instruction word stays legal exactly when its registers exist (R85 c). -/
theorem decode_of_instr {r : Nat} {w : InstrWord} {i : Instr} (h : decodeWord w = .instr i) :
    decode r w = if i.wf r then .instr i else .illegal .registerRange := by
  simp only [decode, h]
  rfl

/-- A word illegal by its code or reserved bits is illegal for every R (R85 a, b). -/
theorem decode_of_illegal {r : Nat} {w : InstrWord} {why : Illegal} (h : decodeWord w = .illegal why) :
    decode r w = .illegal why := by
  simp only [decode, h]

theorem decode_eq_instr_iff {r : Nat} {w : InstrWord} {i : Instr} :
    decode r w = .instr i ↔ decodeWord w = .instr i ∧ i.wf r = true := by
  cases hw : decodeWord w with
  | illegal why => simp [decode_of_illegal hw]
  | instr j =>
    rw [decode_of_instr hw]
    by_cases hj : j.wf r = true
    · simp only [hj, if_true, Decoded.instr.injEq]
      exact ⟨by rintro rfl; exact ⟨rfl, hj⟩, And.left⟩
    · simp only [hj, Bool.false_eq_true, if_false, reduceCtorEq, Decoded.instr.injEq, false_iff]
      rintro ⟨rfl, hi⟩
      exact hj hi

/-- Settles O1: the encoding is a word that decodes to the instruction, and (c) is the one reason left. -/
theorem encodedInstructionDecodesBack : Obligations.EncodedInstructionDecodesBack :=
  fun i => ⟨decodeWord_encode i, fun _ => decode_of_instr (decodeWord_encode i)⟩

/-- Settles O2, by the inverse of the decoder. -/
theorem legalWordIsTheEncodingOfItsInstruction : Obligations.LegalWordIsTheEncodingOfItsInstruction := by
  intro r w i h
  obtain ⟨hdec, hwf⟩ := decode_eq_instr_iff.1 h
  exact ⟨decodeWord_eq_instr_iff.1 hdec, hwf⟩

/-- Settles O4, by running the decoder on the seven words. -/
theorem sampleWordsDecode : Obligations.SampleWordsDecode := by
  unfold Obligations.SampleWordsDecode
  decide

/-! ### Station codes (R26, R83) -/

theorem ofCode_code (op : Op) : Op.ofCode op.code = op := by
  cases op <;> rfl

/-- A station's code is the low half of the operation code field (R83). -/
theorem code_eq_extractLsb'_field (op : Op) : op.code = op.field.extractLsb' 0 2 := by
  cases op <;> rfl

theorem extractLsb'_wordOp (w : InstrWord) : (wordOp w).extractLsb' 0 2 = w.extractLsb' 28 2 := by
  ext k hk
  have hk4 : k < 4 := by omega
  simp [wordOp, hk4]

/-- Settles O5: bits 29:28 are the low half of the field, which holds the operation's code. -/
theorem stationCodeIsTheWordsOpBits : Obligations.StationCodeIsTheWordsOpBits := by
  refine ⟨fun w i h => ?_, ofCode_code⟩
  obtain ⟨hop, -⟩ := decodeWord_eq_instr_iff_fields.1 h
  rw [code_eq_extractLsb'_field, ← opOfField_eq_some_iff.1 hop, extractLsb'_wordOp]

/-! ### Illegal words (R85, R210) -/

theorem not_wf_iff {r : Nat} {i : Instr} :
    ¬ i.wf r = true ↔ r ≤ i.rd.toNat ∨ r ≤ i.rs.toNat ∨ r ≤ i.rt.toNat := by
  rw [Instr.wf, inRange_iff]
  omega

/-- The word of an instruction is illegal by (c) alone. -/
theorem exists_decode_illegal_iff_of_instr {r : Nat} {w : InstrWord} {i : Instr} (h : decodeWord w = .instr i) :
    (∃ why, decode r w = .illegal why) ↔ r ≤ i.rd.toNat ∨ r ≤ i.rs.toNat ∨ r ≤ i.rt.toNat := by
  rw [← not_wf_iff, decode_of_instr h]
  split <;> simp_all

/-- The reasons (a), (b), (c) on the word's fields. -/
theorem exists_decode_illegal_iff {r : Nat} {w : InstrWord} :
    (∃ why, decode r w = .illegal why) ↔
      opOfField (wordOp w) = none ∨ wordZ w ≠ 0#4 ∨
        r ≤ (wordRd w).toNat ∨ r ≤ (wordRs w).toNat ∨ r ≤ (wordRt w).toNat := by
  cases hop : opOfField (wordOp w) with
  | none => simp [decode, decodeWord, hop]
  | some op =>
    by_cases hz : wordZ w = 0#4
    · have hw : decodeWord w = .instr (.ofRecord op (wordRd w) (wordRs w) (wordRt w)) :=
        decodeWord_eq_instr_iff_fields.2 (by simp [hop, hz])
      simp [exists_decode_illegal_iff_of_instr hw, hz]
    · simp [decode, decodeWord, hop, hz]

namespace Machine

theorem checkConfig_of_not_wf1 {cw : Nat} {c : Cfg} {p : List Decoded} (h : ¬ wf1 c.r p = true) :
    checkConfig cw c p = some .registerIndex := by
  simp [checkConfig, h]

theorem checkConfig_of_not_wf2 {cw : Nat} {c : Cfg} {p : List Decoded} (h : ¬ wf2 p = true) :
    checkConfig cw c p = some .registerIndex ∨ checkConfig cw c p = some .operation := by
  by_cases h1 : wf1 c.r p = true
  · exact .inr (by simp [checkConfig, h1, h])
  · exact .inl (checkConfig_of_not_wf1 h1)

/-- A word that is illegal for the machine's registers fails WF1 or WF2 (R9, R85). -/
theorem checkConfig_of_illegal {cw : Nat} {c : Cfg} {p : List Decoded} {w : InstrWord} {why : Illegal}
    (hmem : decodeWord w ∈ p) (h : decode c.r w = .illegal why) :
    checkConfig cw c p = some .registerIndex ∨ checkConfig cw c p = some .operation := by
  cases hw : decodeWord w with
  | illegal why' =>
    refine checkConfig_of_not_wf2 fun hwf2 => ?_
    obtain ⟨i, hi⟩ := wf2_iff.1 hwf2 _ hmem
    cases hw.symm.trans hi
  | instr i =>
    refine .inl (checkConfig_of_not_wf1 fun hwf1 => ?_)
    have hi : i.wf c.r = true := inRange_iff.2 (wf1_iff.1 hwf1 i (hw ▸ hmem))
    cases h.symm.trans (decode_eq_instr_iff.2 ⟨hw, hi⟩)

/-- Settles O3: the reasons on the fields, read as parts of the word's unsigned value; and WF1 and WF2. -/
theorem illegalWordsAreRefused : Obligations.IllegalWordsAreRefused := by
  refine ⟨fun r w => ?_, fun cw c ws w why hmem h => checkConfig_of_illegal (List.mem_map_of_mem hmem) h⟩
  rw [exists_decode_illegal_iff, opOfField_eq_none_iff, toNat_wordOp, toNat_wordRd, toNat_wordRs, toNat_wordRt,
    ← toNat_wordZ, ne_eq, ← BitVec.toNat_inj]
  rfl

/-! ### Decimal indices of the assembler (R87) -/

/-- The digits `indexChars` prints (R87). -/
def indexDigits (n : Nat) : List Nat :=
  if n < 10 then [n] else if n < 100 then [n / 10, n % 10] else [n / 100, n / 10 % 10, n % 10]

theorem indexChars_eq_map (n : Nat) : indexChars n = (indexDigits n).map digitChar := by
  unfold indexChars indexDigits
  split_ifs <;> rfl

theorem lt_ten_of_mem_indexDigits {n : Nat} (hn : n < 1000) {d : Nat} (h : d ∈ indexDigits n) : d < 10 := by
  unfold indexDigits at h
  split_ifs at h <;> simp at h <;> omega

theorem digitValue_digitChar {d : Nat} (h : d < 10) : digitValue (digitChar d) = some d := by
  decide +revert

/-- Printed digits are read up to where the rest of the line begins. -/
theorem takeDigits_map_append {ds : List Nat} (h : ∀ d ∈ ds, d < 10) {rest : List Char}
    (hrest : takeDigits rest = ([], rest)) : takeDigits (ds.map digitChar ++ rest) = (ds, rest) := by
  induction ds with
  | nil => exact hrest
  | cons d ds ih =>
    obtain ⟨hd, hds⟩ := List.forall_mem_cons.1 h
    simp [takeDigits, digitValue_digitChar hd, ih hds]

/-- The printed digits of an index read as that index: no leading zero, and at most 255 (R82). -/
theorem readIndex_indexDigits (i : RegIx) : readIndex (indexDigits i.toNat) = some i := by
  have hlt : i.toNat < 256 := i.isLt
  unfold indexDigits
  split_ifs with h10 h100
  · simp [readIndex]
  · obtain ⟨a, ha⟩ := Nat.exists_eq_add_one_of_ne_zero (show i.toNat / 10 ≠ 0 by omega)
    have hv : 10 * (a + 1) + i.toNat % 10 = i.toNat := by omega
    simp [readIndex, ha, hv, hlt]
  · obtain ⟨a, ha⟩ := Nat.exists_eq_add_one_of_ne_zero (show i.toNat / 100 ≠ 0 by omega)
    have hv : 10 * (10 * (a + 1) + i.toNat / 10 % 10) + i.toNat % 10 = i.toNat := by omega
    simp [readIndex, ha, hv, hlt]

/-! ### Parts of an assembler line (R87) -/

/-- A register name is read back where no digit follows it. -/
theorem readReg?_regChars_append (i : RegIx) {rest : List Char} (hrest : takeDigits rest = ([], rest)) :
    readReg? (regChars i ++ rest) = some (i, rest) := by
  have hlt : i.toNat < 1000 := by omega
  have hds := takeDigits_map_append (fun _ => lt_ten_of_mem_indexDigits hlt) hrest
  simp [readReg?, regChars, indexChars_eq_map, hds, readIndex_indexDigits]

theorem readReg?_regChars (i : RegIx) : readReg? (regChars i) = some (i, []) := by
  simpa using readReg?_regChars_append i (rest := []) rfl

theorem readMnemonic_mnemonic (op : Op) (rest : List Char) :
    readMnemonic (Op.mnemonic op ++ ' ' :: rest) = some (op, rest) := by
  cases op <;> rfl

/-- No mnemonic begins like a register name. -/
theorem readMnemonic_regChars_append (i : RegIx) (rest : List Char) : readMnemonic (regChars i ++ rest) = none := rfl

@[simp] theorem readSymbol_symbol (op : Op) : readSymbol (Op.symbol op) = some op := by
  cases op <;> rfl

theorem takeDigits_symbol (op : Op) (rest : List Char) :
    takeDigits (Op.symbol op :: rest) = ([], Op.symbol op :: rest) := by
  cases op <;> rfl

/-! ### Both assembler forms (R87) -/

theorem readMnemonicLine_mnemonicLine (i : Instr) : readMnemonicLine (mnemonicLine i) = some i := by
  have hd (rest : List Char) := readReg?_regChars_append i.rd (rest := ',' :: rest) rfl
  have hs (rest : List Char) := readReg?_regChars_append i.rs (rest := ',' :: rest) rfl
  simp [readMnemonicLine, mnemonicLine, readMnemonic_mnemonic, dropPrefix, hd, hs, readReg?_regChars]

theorem readAlgebraicLine_algebraicLine (i : Instr) : readAlgebraicLine (algebraicLine i) = some i := by
  have hd (rest : List Char) := readReg?_regChars_append i.rd (rest := '=' :: rest) rfl
  have hs (rest : List Char) := readReg?_regChars_append i.rs (takeDigits_symbol i.op rest)
  simp [readAlgebraicLine, algebraicLine, dropPrefix, hd, hs, readReg?_regChars]

theorem readMnemonicLine_algebraicLine (i : Instr) : readMnemonicLine (algebraicLine i) = none := by
  simp [readMnemonicLine, algebraicLine, readMnemonic_regChars_append]

/-- Settles O7: the mnemonic line is read as such, and the algebraic one is no mnemonic line. -/
theorem bothAssemblerFormsDenoteTheRecord : Obligations.BothAssemblerFormsDenoteTheRecord := by
  intro r i hwf
  simp [assembleLine, readMnemonicLine_mnemonicLine, readMnemonicLine_algebraicLine, readAlgebraicLine_algebraicLine,
    hwf]

/-! ### No step stops (R85, R215) -/

/-- Settles O42: a cycle that runs has a head the checks let through, or none. -/
theorem noStepStops : Obligations.NoStepStops := by
  intro s h
  by_cases hr : s.pins.rst = true
  · exact ⟨_, step_reset hr⟩
  have hr : s.pins.rst = false := by simpa using hr
  by_cases hh : held s
  · exact ⟨_, step_held hr hh⟩
  cases hc : capReached s with
  | true => exact ⟨_, step_cap hr hh hc⟩
  | false =>
    rw [step_cycle hr hh hc]
    rcases atHead_or_draining h hh with ⟨i, hi⟩ | hd
    · exact ⟨_, runCycle_atHead hi⟩
    · exact ⟨_, runCycle_draining hd⟩

end Machine

end Sys2Proof
end

section
/-! The family of 40_issue.md: the arbiter (R101 to R103), admission (R104 to R109), the order of issue (R110), a tag
copied while its producer broadcasts (R112), and what a cycle with or without a head retires and leaves alone (R100,
R135, R160 to R165). -/

namespace Sys2Proof.Machine

/-! ### The arbiter -/

theorem arbiter_eq_some_iff {s : State} {k : OpClass} {r : Nat} :
    arbiter s k = some r ↔
      classOf s.cfg r = some k ∧ isFree s r = true ∧ ∀ a, a < r → classOf s.cfg a = some k → isFree s a = false := by
  constructor
  · intro h
    obtain ⟨hcls, hfree, hlow⟩ := arbiter_some h
    exact ⟨hcls, isFree_iff.2 hfree, hlow⟩
  · rintro ⟨hcls, hfree, hlow⟩
    cases h : arbiter s k with
    | none => cases hfree.symm.trans (arbiter_none.1 h r hcls)
    | some q =>
      obtain ⟨hclsq, hfreeq, hlowq⟩ := arbiter_some h
      rcases lt_trichotomy q r with hlt | rfl | hlt
      · cases (isFree_iff.2 hfreeq).symm.trans (hlow q hlt hclsq)
      · rfl
      · cases hfree.symm.trans (hlowq r hlt hcls)

/-- Settles O11: two stations that are each the lowest free one of the class are the same. -/
theorem arbiterTakesTheLowestFreeStation : Obligations.ArbiterTakesTheLowestFreeStation :=
  fun _ _ => ⟨fun _ => arbiter_eq_some_iff, arbiter_none⟩

/-- The arbiter gives no busy station (R101). -/
theorem arbiter_ne_of_busy {s : State} {a : Nat} {st : Station} (h : occupied s a st) (k : OpClass) :
    arbiter s k ≠ some a := by
  intro ha
  obtain ⟨-, ⟨sa, hsa, hfree⟩, -⟩ := arbiter_some ha
  rw [stationIs_unique hsa h.1, h.2] at hfree
  cases hfree

/-! ### What Issue writes (R104 to R109) -/

/-- Settles O13, field by field. -/
theorem admissionRenamesTheDestination : Obligations.AdmissionRenamesTheDestination := by
  intro i s r st hn ha hst
  rw [issue_of_arbiter hn ha]
  refine ⟨⟨st.fill i.op (resolve s i.rs) (resolve s i.rt) s.next, ?station, rfl, rfl, rfl,
    fill_lat .., fill_ready .., fill_result ..⟩, ?others, rfl, ?time, rfl, rfl, rfl⟩
  case station => simp [stationIs, hst]
  case others =>
    intro a hne
    simp [hne.symm]
  case time =>
    intro k t ht
    rw [timeIs, admitTo_time, ht]
    simp [eq_comm]

/-- The tag of an operand is the status entry it was resolved from (R104). -/
@[simp] theorem fill_qj_resolve (op : Op) (s : State) (i : RegIx) (ok : Operand) (n : Nat) (st : Station) :
    (Station.fill op (resolve s i) ok n st).qj = readStat s i := by
  unfold resolve
  cases readStat s i with
  | none => exact (fill_valJ ..).2
  | some p => exact (fill_waitJ ..).2

@[simp] theorem fill_qk_resolve (op : Op) (s : State) (i : RegIx) (oj : Operand) (n : Nat) (st : Station) :
    (Station.fill op oj (resolve s i) n st).qk = readStat s i := by
  unfold resolve
  cases readStat s i with
  | none => exact (fill_valK ..).2
  | some p => exact (fill_waitK ..).2

@[simp] theorem issue_reg (i : Instr) (s : State) : (issue i s).reg = s.reg := by
  rcases issue_cases i s with ⟨e, -⟩ | ⟨r, -, -, e⟩ <;> simp [e]

theorem issue_cfgErr (i : Instr) (s : State) : (issue i s).cfgErr = s.cfgErr := by
  rcases issue_cases i s with ⟨e, -⟩ | ⟨r, -, -, e⟩ <;> simp [e]

theorem issue_rstat_of_ne {i : Instr} {s : State} {j : Nat} (hj : j ≠ i.rd.toNat) :
    (issue i s).rstat[j]? = s.rstat[j]? := by
  rcases issue_cases i s with ⟨e, -⟩ | ⟨r, -, -, e⟩ <;> simp [e, List.getElem?_set_ne hj.symm]

theorem issue_ts_of_ne {i : Instr} {s : State} {k : Nat} (hk : k ≠ s.next) : (issue i s).ts[k]? = s.ts[k]? := by
  rcases issue_cases i s with ⟨e, -⟩ | ⟨r, -, -, e⟩
  · rw [e]
  · simp [e, hk.symm]

/-- Issue writes no station but the one the arbiter gives (R102). -/
theorem issue_station_of_ne {i : Instr} {s : State} {a : Nat} (ha : arbiter s i.op.cls ≠ some a) :
    (issue i s).stations[a]? = s.stations[a]? := by
  rcases issue_cases i s with ⟨e, -⟩ | ⟨r, -, har, e⟩
  · rw [e]
  · have hne : r ≠ a := fun hr => ha (hr ▸ har)
    simp [e, hne]

/-- A station that Issue leaves or makes busy was busy before, or holds the head (R106). -/
theorem occupied_of_issue {i : Instr} {s : State} {a : Nat} {st : Station} (h : occupied (issue i s) a st) :
    occupied s a st ∨ st.op = i.op ∧ st.inst = s.next := by
  rcases issue_cases i s with ⟨e, -⟩ | ⟨r, -, -, e⟩
  · exact .inl (e ▸ h)
  obtain ⟨hst, hbusy⟩ := h
  simp only [e, stationIs, admitTo_station, Option.map_eq_some_iff] at hst
  obtain ⟨st0, hst0, rfl⟩ := hst
  split
  · exact .inr ⟨rfl, rfl⟩
  · next hne =>
    rw [if_neg hne] at hbusy
    exact .inl ⟨hst0, hbusy⟩

/-- Issue does not touch `ready`, so B is fixed by the stations at the start of the cycle (R106, R160). -/
@[simp] theorem broadcasts_issue (i : Instr) (s : State) (q : Nat) : broadcasts (issue i s) q = broadcasts s q := by
  rcases issue_cases i s with ⟨e, -⟩ | ⟨r, -, -, e⟩
  · rw [e]
  · rw [e, broadcasts, admitTo_station, broadcasts]
    cases s.stations[q]? with
    | none => rfl
    | some st => by_cases hr : r = q <;> simp [hr]

@[simp] theorem broadcasts_advanceCycle (s : State) (q : Nat) : broadcasts (advanceCycle s) q = broadcasts s q := rfl

theorem broadcasts_eq_false_iff {s : State} {r : Nat} :
    broadcasts s r = false ↔ ∀ st, stationIs s r st → st.ready = false := by
  simp [← Bool.not_eq_true, broadcasts_iff]

/-- A register Issue maps is mapped as before, or is the destination, mapped to a station that was free. -/
theorem mapped_of_issue {i : Instr} {s : State} (h : Inv s) {j r : Nat} (hm : mapped (issue i s) j r) :
    mapped s j r ∨ broadcasts s r = false := by
  rcases issue_cases i s with ⟨e, -⟩ | ⟨q, -, ha, e⟩
  · exact .inl (e ▸ hm)
  rw [mapped, e, admitTo_rstat, List.getElem?_set] at hm
  split at hm
  · split at hm
    · obtain rfl : q = r := by simpa using hm
      rw [← broadcasts_issue i, e]
      exact .inr (admitTo_silent h ha i)
    · cases hm
  · exact .inl hm

/-! ### What Execute and Writeback do with a station (R130 to R135, R160 to R165) -/

theorem not_eligible_of_ready {st : Station} (h : st.ready = true) : st.eligible = false := by
  simp [Station.eligible, h]

theorem not_eligible_of_free {st : Station} (h : st.busy = false) : st.eligible = false := by
  simp [Station.eligible, h]

theorem not_eligible_of_waiting {st : Station} {q : Nat} (h : st.qj = some q ∨ st.qk = some q) :
    st.eligible = false := by
  rcases h with h | h <;> simp [Station.eligible, h]

/-- Execute writes nothing of a station that is not eligible (R135). -/
theorem execStation_of_not_eligible (c : Cfg) {st : Station} (h : st.eligible = false) : execStation c st = st := by
  simp [execStation, execEvent, h]

/-- A result comes from completion alone (R134). -/
theorem completes_of_execStation_ready {c : Cfg} {st : Station} (h : (execStation c st).ready = true)
    (hr : st.ready = false) : completes c st = true := by
  rcases execStation_cases c st with ⟨-, -, e⟩ | ⟨-, -, -, e⟩ | ⟨v, -, -, -, hev, -⟩ | ⟨-, -, -, -, e⟩
  · simp [e, hr] at h
  · simp [e, hr] at h
  · exact completes_iff.2 ⟨v, hev⟩
  · simp [e, hr] at h

@[simp] theorem finishCycle_next (s : State) : (finishCycle s).next = s.next := by simp [finishCycle]

@[simp] theorem finishCycle_cycle (s : State) : (finishCycle s).cycle = s.cycle := by simp [finishCycle]

@[simp] theorem finishCycle_cfgErr (s : State) : (finishCycle s).cfgErr = s.cfgErr := by simp [finishCycle]

@[simp] theorem issueCycle_cycle (i : Instr) (s : State) : (issueCycle i s).cycle = s.cycle + 1 := by
  simp [issueCycle, issue_cycle]

@[simp] theorem drainCycle_next (s : State) : (drainCycle s).next = s.next := by simp [drainCycle]

theorem finishCycle_station (s : State) (r : Nat) :
    (finishCycle s).stations[r]? =
      (s.stations[r]?).map fun st => wbStation s (execute s) r (execStation s.cfg st) := by
  rw [finishCycle, writeback_station, execute_station, Option.map_map]
  rfl

/-- A station ready after Issue is freed (R165). -/
theorem finishCycle_station_of_ready {s : State} {r : Nat} {st : Station} (h : stationIs s r st)
    (hr : st.ready = true) : stationIs (finishCycle s) r (st.release s.cfg s.draws r) := by
  have hb : broadcasts s r = true := broadcasts_iff.2 ⟨st, h, hr⟩
  rw [stationIs, finishCycle_station, h, Option.map_some, execStation_of_not_eligible _ (not_eligible_of_ready hr),
    wbStation, if_pos hb, execute_cfg, execute_draws]

/-- Any other station executes, then takes what the buses carry for it (R139, R164). -/
theorem finishCycle_station_of_not_ready {s : State} {r : Nat} {st : Station} (h : stationIs s r st)
    (hr : st.ready = false) :
    stationIs (finishCycle s) r
      (((execStation s.cfg st).forwardJ (cdb s (execute s))).forwardK (cdb s (execute s))) := by
  have hb : broadcasts s r = false := broadcasts_eq_false_iff.2 fun u hu => stationIs_unique h hu ▸ hr
  rw [stationIs, finishCycle_station, h, Option.map_some, wbStation, hb, if_neg Bool.false_ne_true]

/-- The bus of a ready station carries its result (R161). -/
theorem busAt_of_ready {s : State} {p : Nat} {sp : Station} (h : stationIs s p sp) (hr : sp.ready = true) :
    busAt (cdb s (execute s)) (some p) = some sp.result := by
  have hb : broadcasts s p = true := broadcasts_iff.2 ⟨sp, h, hr⟩
  rw [busAt_cdb, if_pos hb, execute_station, h]
  simp [execStation_of_not_eligible _ (not_eligible_of_ready hr)]

/-- A tag of a station outside B finds no bus (R161). -/
theorem busAt_of_silent {s1 s2 : State} {t : Tag} (h : ∀ q, t = some q → broadcasts s1 q = false) :
    busAt (cdb s1 s2) t = none := by
  cases t with
  | none => rfl
  | some q => simp [busAt_cdb, h q rfl]

/-- A station with nothing to execute, no result and no broadcast to take stays as it is (R135, R164). -/
theorem finishCycle_station_of_idle {s : State} {a : Nat} {st : Station} (h : stationIs s a st)
    (he : st.eligible = false) (hr : st.ready = false)
    (hq : ∀ q, st.qj = some q ∨ st.qk = some q → broadcasts s q = false) : stationIs (finishCycle s) a st := by
  have hj : busAt (cdb s (execute s)) st.qj = none := busAt_of_silent fun q hq' => hq q (.inl hq')
  have hk : busAt (cdb s (execute s)) st.qk = none := busAt_of_silent fun q hq' => hq q (.inr hq')
  have hst := finishCycle_station_of_not_ready h hr
  rwa [execStation_of_not_eligible _ he, Station.forwardJ, hj, Station.forwardK, hk] at hst

/-- A test that only busy stations pass, asked of the stations with a busy station's instruction, is asked of that
station alone (INV4). -/
theorem any_and_inst_eq {s : State} (h : Inv s) {r : Nat} {st : Station} (ho : occupied s r st) (f : Station → Bool)
    (hf : ∀ u, f u = true → u.busy = true) : s.stations.any (fun u => f u && u.inst == st.inst) = f st := by
  rw [Bool.eq_iff_iff, List.any_eq_true]
  constructor
  · rintro ⟨u, hmem, hu⟩
    simp only [Bool.and_eq_true, beq_iff_eq] at hu
    obtain ⟨hfu, hinst⟩ := hu
    obtain ⟨q, hq⟩ := List.mem_iff_getElem?.1 hmem
    obtain rfl := h.inv4 q r u st ⟨hq, hf u hfu⟩ ho hinst
    exact stationIs_unique hq ho.1 ▸ hfu
  · exact fun hfst => ⟨st, List.mem_of_getElem? ho.1, by simp [hfst]⟩

/-- The instruction of a busy station retires exactly when the station was ready (R162, INV4). -/
theorem retires_eq_ready {s : State} (h : Inv s) {r : Nat} {st : Station} (ho : occupied s r st) :
    retires s (execute s) st.inst = st.ready := by
  rw [Bool.eq_iff_iff]
  constructor
  · intro hret
    obtain ⟨q, sq, hq, hready, hinst⟩ := ready_of_retires hret
    obtain rfl := h.inv4 q r sq st ⟨hq, (h.inv7 q sq hq hready).1⟩ ho hinst
    exact stationIs_unique hq ho.1 ▸ hready
  · intro hready
    refine retires_iff.2 ⟨r, execStation s.cfg st, ?_, broadcasts_iff.2 ⟨st, ho.1, hready⟩, by simp⟩
    simp only [stationIs, execute_station, ho.1, Option.map_some]

theorem timeIs_finishCycle {s : State} {k : Nat} {a : TimeRec} (ha : timeIs s k a) :
    timeIs (finishCycle s) k (wbTime s (execute s) k (execTime s.cfg s.stations s.cycle k a)) := by
  rw [timeIs, finishCycle, writeback_time, execute_time, ha]
  rfl

/-- The timestamps of the instruction in a busy station, by what its station does (R131, R134, R162). -/
theorem finishCycle_time_of_occupied {s : State} (h : Inv s) {r : Nat} {st : Station} {a : TimeRec}
    (ho : occupied s r st) (ha : timeIs s st.inst a) :
    timeIs (finishCycle s) st.inst
      { issue := a.issue
        ebegin := if a.ebegin.isNone && st.eligible then some s.cycle else a.ebegin
        eend := if completes s.cfg st then some s.cycle else a.eend
        wb := if a.wb.isNone && st.ready then some s.cycle else a.wb } := by
  have he := any_and_inst_eq h ho Station.eligible fun u hu => (eligible_iff.1 hu).1
  have hc := any_and_inst_eq h ho (completes s.cfg) fun u hu => (eligible_iff.1 (eligible_of_completes hu)).1
  simpa [wbTime, execTime, he, hc, retires_eq_ready h ho] using timeIs_finishCycle ha

/-! ### What Execute and Writeback leave alone -/

/-- A register mapped to no station in B keeps its value and its entry (R163). -/
theorem finishCycle_register_of_silent {s : State} {j : Nat} (h : ∀ r, mapped s j r → broadcasts s r = false) :
    (finishCycle s).reg[j]? = s.reg[j]? ∧ (finishCycle s).rstat[j]? = s.rstat[j]? := by
  have hbus : busAt (cdb s (execute s)) (s.rstat[j]?.getD none) = none := busAt_of_silent fun q hq => by
    refine h q ?_
    cases hj : s.rstat[j]? with
    | none => simp [hj] at hq
    | some t => exact hj.trans (by simpa [hj] using hq)
  constructor
  · rw [finishCycle, writeback_reg, execute_rstat, hbus, execute_reg]
    simp
  · rw [finishCycle, writeback_stat, execute_rstat]
    cases hj : s.rstat[j]? with
    | none => rfl
    | some t =>
      rw [hj, Option.getD_some] at hbus
      simp [clearTag, hbus]

/-- The timestamps of an instruction that is in no station stay (R131, R134, R162). -/
theorem finishCycle_ts_of_absent {s : State} (h : Inv s) {k : Nat} (hk : ∀ a st, occupied s a st → st.inst ≠ k) :
    (finishCycle s).ts[k]? = s.ts[k]? := by
  have he : s.stations.any (fun st => st.eligible && st.inst == k) = false := by
    by_contra hany
    obtain ⟨r, st, ho, -, hinst⟩ := exists_occupied_of_any_eligible (by simpa using hany)
    exact hk r st ho hinst
  have hc : s.stations.any (fun st => completes s.cfg st && st.inst == k) = false := by
    by_contra hany
    rw [any_eligible_of_any_completes (by simpa using hany)] at he
    cases he
  have hret : retires s (execute s) k = false := by
    by_contra hret
    obtain ⟨r, st, hst, hready, hinst⟩ := ready_of_retires (by simpa using hret)
    exact hk r st ⟨hst, (h.inv7 r st hst hready).1⟩ hinst
  rw [finishCycle, writeback_time, execute_time, Option.map_map]
  cases s.ts[k]? <;> simp [wbTime, execTime, he, hc, hret]

/-- Only DIV has operands without a result (R147). -/
theorem op_of_fOp_eq_none {op : Op} {a b : Word} (h : fOp op a b = none) : op = .div := by
  cases op <;> simp [fOp] at h ⊢

/-- With no DIV in a station Execute records no fault (R147, R212). -/
theorem finishCycle_fault_of_no_div {s : State} (h : ∀ a st, occupied s a st → st.op ≠ .div) :
    (finishCycle s).fault = s.fault := by
  have hnone : divFault s.cfg s.stations s.cycle = none := by
    have hidx : s.stations.findIdx? (fun st => execEvent s.cfg st == .divideByZero) = none := by
      rw [List.findIdx?_eq_none_iff]
      intro st hmem
      obtain ⟨a, ha⟩ := List.mem_iff_getElem?.1 hmem
      rcases execStation_cases s.cfg st with ⟨-, hev, -⟩ | ⟨-, -, hev, -⟩ | ⟨v, -, -, -, hev, -⟩ | ⟨he, -, hf, -, -⟩
      · simp [hev]
      · simp [hev]
      · simp [hev]
      · exact absurd (op_of_fOp_eq_none hf) (h a st ⟨ha, (eligible_iff.1 he).1⟩)
    rw [divFault, hidx]
  simp [finishCycle, hnone]

/-! ### The cycle of a stalled head, and the edge that runs a cycle (R103, R182) -/

/-- On a structural stall the cycle is the one without a head (R103). -/
theorem issueCycle_of_stall {i : Instr} {s : State} (h : arbiter s i.op.cls = none) :
    issueCycle i s = drainCycle s := by
  rcases issue_cases i (advanceCycle s) with ⟨e, -⟩ | ⟨r, -, ha, -⟩
  · rw [issueCycle, e, drainCycle]
  · cases h.symm.trans ha

/-- Settles O14: Issue is the identity on a stall. -/
theorem stalledHeadChangesNothing : Obligations.StalledHeadChangesNothing := by
  intro i s hwf h
  refine ⟨?_, ?_, drainCycle_next s⟩
  · rcases issue_cases i s with ⟨e, -⟩ | ⟨r, -, ha, -⟩
    · exact e
    · cases h.symm.trans ha
  · rw [exec_next hwf, issueCycle_of_stall h]

theorem progAt_of_loaded {s : State} {k : Nat} {d : Decoded} (h : s.prog[k]? = some (some d)) : progAt s k = d := by
  simp [progAt, h]

/-- Settles O31: such an edge runs a cycle, and its head is the loaded word's instruction. -/
theorem stepRunsTheHeadInstruction : Obligations.StepRunsTheHeadInstruction := by
  intro s hr hen hcfg hhalt hcap
  rw [step_cycle hr (not_held_iff.2 ⟨hcfg, hhalt, hen⟩) hcap]
  constructor
  · intro w i hn hprog hw
    have hhead : progAt (releaseReset s) s.next = .instr i := by
      rw [progAt_congr (releaseReset_prog s), progAt_of_loaded hprog, hw]
    simp [runCycle, headSlot, hn, hhead]
  · intro hn
    simp [runCycle, headSlot, hn.not_gt]

/-! ### The cycle of an admitted instruction (R102 to R112) -/

/-- What Issue leaves of an admitted instruction: a busy station with its operation, index and tags, which was free and
so has counter 0 and no result, and its issue timestamp (R104, R106, R108, INV10, INV11). -/
theorem admitted_station {i : Instr} {s : State} {r : Nat} (h : AtHead i s) (ha : arbiter s i.op.cls = some r) :
    ∃ st, occupied (issue i (advanceCycle s)) r st ∧ st.op = i.op ∧ st.inst = s.next ∧ st.lat = 0 ∧
      st.ready = false ∧ st.qj = readStat s i.rs ∧ st.qk = readStat s i.rt ∧
      timeIs (issue i (advanceCycle s)) s.next { issue := some (s.cycle + 1) } := by
  have hissue : issue i (advanceCycle s) = admitTo i r (advanceCycle s) := issue_of_arbiter h.inProgram ha
  obtain ⟨-, ⟨st, hst, hfree⟩, -⟩ := arbiter_some ha
  obtain ⟨hready, hlat, -, -⟩ := h.inv.inv11 r st hst hfree
  obtain ⟨a, hts⟩ := exists_timeIs h.inv.sized h.inProgram
  obtain rfl := h.inv.inv10After _ a le_rfl hts
  refine ⟨st.fill i.op (resolve (advanceCycle s) i.rs) (resolve (advanceCycle s) i.rt) s.next, ⟨?_, rfl⟩, rfl, rfl,
    by simpa using hlat, by simpa using hready, fill_qj_resolve .., fill_qk_resolve .., ?_⟩
  · rw [hissue, stationIs, admitTo_station, advanceCycle_stations, hst]
    simp
  · rw [hissue, timeIs, admitTo_time, advanceCycle_ts, hts]
    simp

/-- Settles O15: the station is eligible in its first cycle exactly when it has no tag, and it does not broadcast. -/
theorem headInstructionIsAdmitted : Obligations.HeadInstructionIsAdmitted := by
  intro i s r h ha
  obtain ⟨st, ho, hop, hinst, -, hready, hqj, hqk, htime⟩ := admitted_station h ha
  have hissue : issue i (advanceCycle s) = admitTo i r (advanceCycle s) := issue_of_arbiter h.inProgram ha
  have hd : i.rd.toNat < s.rstat.length := h.inv.sized.rstat ▸ (inRange_iff.1 h.wf).1
  have hmap : mapped (issueCycle i s) i.rd.toNat r := by
    have hsilent := admitTo_silent (advance_inv h.inv) ha i
    rw [issueCycle, hissue]
    exact (finishCycle_mapped_of_silent (admitTo_mapped (s := advanceCycle s) r hd) hsilent).2
  have heligible : st.eligible = true ↔ readStat s i.rs = none ∧ readStat s i.rt = none := by
    rw [eligible_iff, hqj, hqk]
    simp [ho.2, hready]
  have htime' := finishCycle_time_of_occupied (atHead_issue_inv h) ho (hinst.symm ▸ htime)
  rw [hinst] at htime'
  refine ⟨issueCycle i s, _, _, exec_next h.wf, ⟨finishCycle_station_of_not_ready ho.1 hready, ?_⟩, ?_, ?_, hmap,
    htime', rfl, ?_, ?_, ?_, ?_⟩
  · simpa using ho.2
  · simpa using hop
  · simpa using hinst
  · simp [hready]
  · simp [heligible, issue_cycle]
  · simp [issueCycle, hissue]
  · simp

/-- A register's producer that is ready at the start of the cycle is busy, so Issue leaves it, and its bus carries the
result that the tag copied by Issue waits for (R112, R161). -/
theorem busAt_readStat_of_ready {i : Instr} {s : State} (h : AtHead i s) {reg : RegIx} {p : Nat} {sp : Station}
    (hp : readStat s reg = some p) (hsp : stationIs s p sp) (hr : sp.ready = true) :
    busAt (cdb (issue i (advanceCycle s)) (execute (issue i (advanceCycle s)))) (readStat s reg) = some sp.result := by
  have hbusy : occupied (advanceCycle s) p sp := ⟨hsp, (h.inv.inv7 p sp hsp hr).1⟩
  rw [hp]
  refine busAt_of_ready ?_ hr
  rw [stationIs, issue_station_of_ne (arbiter_ne_of_busy hbusy _)]
  exact hsp

/-- Settles O23: the producer is another station, ready before and after Issue, and a station with a tag is not
eligible. -/
theorem tagIssuedDuringItsBroadcastIsResolved : Obligations.TagIssuedDuringItsBroadcastIsResolved := by
  intro i s r h ha
  obtain ⟨st, ho, -, -, hlat, hready, hqj, hqk, -⟩ := admitted_station h ha
  refine ⟨issueCycle i s, _, exec_next h.wf, ⟨finishCycle_station_of_not_ready ho.1 hready, ?_⟩, ?_, ?_⟩
  · simpa using ho.2
  · intro p sp hp hsp hr
    have hbus := busAt_readStat_of_ready h hp hsp hr
    rw [execStation_of_not_eligible _ (not_eligible_of_waiting (.inl (hqj.trans hp)))]
    simp [hqj, clearTag, hbus, hlat, hready]
  · intro p sp hp hsp hr
    have hbus := busAt_readStat_of_ready h hp hsp hr
    rw [execStation_of_not_eligible _ (not_eligible_of_waiting (.inr (hqk.trans hp)))]
    simp [hqk, clearTag, hbus, hlat, hready]

/-! ### The order of issue (R110) -/

/-- A cycle with a head stalls, or admits it: NEXT advances and the cycle is recorded as its issue, and no other issue
timestamp changes (R103, R108, R109). -/
theorem issueCycle_issue (i : Instr) (s : State) :
    (issueCycle i s).next = s.next ∧
        (∀ k a b, timeIs s k a → timeIs (issueCycle i s) k b → b.issue = a.issue) ∨
      (issueCycle i s).next = s.next + 1 ∧
        ∀ k a b, timeIs s k a → timeIs (issueCycle i s) k b →
          b.issue = if k = s.next then some (s.cycle + 1) else a.issue := by
  rw [issueCycle]
  rcases issue_cases i (advanceCycle s) with ⟨e, -⟩ | ⟨r, -, -, e⟩ <;> rw [e]
  · exact .inl ⟨by simp, fun k a b ha hb => finishCycle_issue (s1 := advanceCycle s) ha hb⟩
  · refine .inr ⟨by simp, fun k a b ha hb => ?_⟩
    have ha1 : timeIs (admitTo i r (advanceCycle s)) k
        (if s.next = k then { a with issue := some (s.cycle + 1) } else a) := by
      rw [timeIs, admitTo_time, advanceCycle_ts, ha]
      rfl
    rw [finishCycle_issue ha1 hb]
    by_cases hk : k = s.next
    · simp [hk]
    · simp [hk, Ne.symm hk]

/-- A step without reset leaves NEXT and every issue timestamp, or issues the head (R110). -/
theorem step_issue {s t : State} (h : Inv s) (hr : s.pins.rst = false) (hst : step s = .next t) :
    t.next = s.next ∧ (∀ k a b, timeIs s k a → timeIs t k b → b.issue = a.issue) ∨
      s.next < s.cfg.n ∧ t.next = s.next + 1 ∧
        ∀ k a b, timeIs s k a → timeIs t k b → b.issue = if k = s.next then some t.cycle else a.issue := by
  have hts : ∀ {k a}, timeIs s k a → timeIs (releaseReset s) k a := fun ha => by rwa [timeIs, releaseReset_ts]
  rcases step_of_inv h hr hst with rfl | rfl | ⟨i, hi, rfl⟩ | ⟨-, rfl⟩
  · refine .inl ⟨releaseReset_next s, fun k a b ha hb => ?_⟩
    rw [timeIs_unique (hts ha) hb]
  · refine .inl ⟨by simp, fun k a b ha hb => ?_⟩
    rw [timeIs, raiseFault_ts] at hb
    rw [timeIs_unique (hts ha) hb]
  · rw [issueCycle_cycle]
    rcases issueCycle_issue i (releaseReset s) with ⟨hn, hissue⟩ | ⟨hn, hissue⟩
    · exact .inl ⟨by simpa using hn, fun k a b ha hb => hissue k a b (hts ha) hb⟩
    · exact .inr ⟨by simpa using hi.inProgram, by simpa using hn,
        fun k a b ha hb => by simpa using hissue k a b (hts ha) hb⟩
  · exact .inl ⟨by simp,
      fun k a b ha hb => finishCycle_issue (s1 := advanceCycle (releaseReset s)) (hts ha) hb⟩

/-- Settles O17, by whether the step issues. -/
theorem oneInstructionIssuesInOrder : Obligations.OneInstructionIssuesInOrder := by
  intro s t h hr hst
  have hlen := step_ts_length h hr hst
  have hback : ∀ {k b}, timeIs t k b → ∃ a, timeIs s k a := fun hb => timeIs_of_lt (hlen ▸ timeIs_lt hb)
  rcases step_issue h hr hst with ⟨hn, hissue⟩ | ⟨hlt, hn, hissue⟩
  · refine ⟨.inl hn, fun hn' => by omega, fun k b hb hne => ?_⟩
    obtain ⟨a, ha⟩ := hback hb
    rw [ha] at hne
    exact absurd (hissue k a b ha hb) hne
  · obtain ⟨a, ha⟩ := exists_timeIs h.sized hlt
    refine ⟨.inr hn, fun _ => ?_, fun k b hb hne => ?_⟩
    · obtain ⟨b, hb⟩ := timeIs_of_lt (s := t) (hlen ▸ timeIs_lt ha)
      exact ⟨b, hb, by simpa using hissue _ a b ha hb⟩
    · obtain ⟨a, ha⟩ := hback hb
      rw [ha] at hne
      have hb' := hissue k a b ha hb
      by_cases hk : k = s.next
      · exact ⟨hk, hn, by simpa [hk] using hb'⟩
      · exact absurd (by simpa [hk] using hb') hne

/-! ### The frame of a cycle (R107, R135, R163, R164, R180, R212) -/

/-- A station with a tag has no result (INV7). -/
theorem not_ready_of_waiting {s : State} (h : Inv s) {a q : Nat} {st : Station} (hst : stationIs s a st)
    (hq : st.qj = some q ∨ st.qk = some q) : st.ready = false := by
  by_contra hr
  obtain ⟨-, hj, hk, -⟩ := h.inv7 a st hst (by simpa using hr)
  simp [hj, hk] at hq

/-- A station that waits for producers none of which broadcasts stays as it is. -/
theorem finishCycle_station_of_waiting {s : State} (h : Inv s) {a p : Nat} {st : Station} (hst : stationIs s a st)
    (hp : st.qj = some p ∨ st.qk = some p)
    (hq : ∀ q, st.qj = some q ∨ st.qk = some q → broadcasts s q = false) : stationIs (finishCycle s) a st :=
  finishCycle_station_of_idle hst (not_eligible_of_waiting hp) (not_ready_of_waiting h hst hp) hq

/-- A free station stays as it is, its unspecified fields too (INV11). -/
theorem finishCycle_station_of_free {s : State} (h : Inv s) {a : Nat} {st : Station} (hst : stationIs s a st)
    (hfree : st.busy = false) : stationIs (finishCycle s) a st := by
  obtain ⟨hready, -, hj, hk⟩ := h.inv11 a st hst hfree
  exact finishCycle_station_of_idle hst (not_eligible_of_free hfree) hready fun q hq => by simp [hj, hk] at hq

/-- Settles O25: the frame of Execute and Writeback, from the state after Issue. -/
theorem headCycleFrame : Obligations.HeadCycleFrame := by
  intro i s h
  have hinv := atHead_issue_inv h
  refine ⟨issueCycle i s, exec_next h.wf, ?fixed, ?registers, ?waiting, ?free, ?time, ?fault⟩
  case fixed =>
    obtain ⟨hcfg, hprog, hpins, hreset⟩ := issueCycle_fixed i s
    exact ⟨hcfg, hprog, by simp [issueCycle, issue_cfgErr], hreset, hpins,
      issueCycle_cycle i s⟩
  case registers =>
    intro j hj
    have hsilent : ∀ r, mapped (issue i (advanceCycle s)) j r → broadcasts (issue i (advanceCycle s)) r = false := by
      intro r hm
      rw [broadcasts_issue]
      rcases mapped_of_issue (advance_inv h.inv) hm with hm | hb
      · exact broadcasts_eq_false_iff.2 (hj r · hm)
      · exact hb
    obtain ⟨hreg, hstat⟩ := finishCycle_register_of_silent hsilent
    exact ⟨hreg.trans (by simp), fun hne => hstat.trans (issue_rstat_of_ne hne)⟩
  case waiting =>
    intro a st p sp ho hp _ _ hq
    have hst : stationIs (issue i (advanceCycle s)) a st :=
      (issue_station_of_ne (arbiter_ne_of_busy (s := advanceCycle s) ho _)).trans ho.1
    refine finishCycle_station_of_waiting hinv hst hp fun q hq' => ?_
    rw [broadcasts_issue]
    exact broadcasts_eq_false_iff.2 fun sq hsq => hq q sq hq' hsq
  case free =>
    intro a st hst hfree ha
    exact finishCycle_station_of_free hinv ((issue_station_of_ne (s := advanceCycle s) ha).trans hst) hfree
  case time =>
    intro k hk habsent
    refine (finishCycle_ts_of_absent hinv fun a st ho => ?_).trans (issue_ts_of_ne (s := advanceCycle s) hk)
    rcases occupied_of_issue ho with ho | ⟨-, hinst⟩
    · exact habsent a st ho
    · exact hinst ▸ hk.symm
  case fault =>
    intro hop hdiv
    refine (finishCycle_fault_of_no_div fun a st ho => ?_).trans (issue_fault i _)
    rcases occupied_of_issue ho with ho | ⟨hst, -⟩
    · exact hdiv a st ho
    · exact hst ▸ hop

/-- Settles O51: the frame of Execute and Writeback, from the state at the edge. -/
theorem cycleWithoutHeadFrame : Obligations.CycleWithoutHeadFrame := by
  rintro s _ h rfl
  have hinv := advance_inv h.inv
  refine ⟨by simp [drainCycle, finishCycle_fixed], ?registers, ?waiting, ?free, ?time, ?fault⟩
  case registers =>
    exact fun j hj => finishCycle_register_of_silent (s := advanceCycle s) fun r hm =>
      broadcasts_eq_false_iff.2 fun st => hj r st hm
  case waiting =>
    exact fun a st p sp ho hp _ _ hq => finishCycle_station_of_waiting hinv ho.1 hp fun q hq' =>
      broadcasts_eq_false_iff.2 fun sq hsq => hq q sq hq' hsq
  case free => exact fun a st => finishCycle_station_of_free hinv
  case time => exact fun k => finishCycle_ts_of_absent hinv
  case fault => exact finishCycle_fault_of_no_div (s := advanceCycle s)

/-! ### What a cycle retires (R160, R162, R165) -/

/-- A station ready after Issue is free without tags at the end of the cycle, its counter 0 (INV7), and its instruction
has retired. -/
theorem finishCycle_retires {s : State} (h : Inv s) {r : Nat} {st : Station} (hst : stationIs s r st)
    (hr : st.ready = true) :
    (∃ u, stationIs (finishCycle s) r u ∧ u.busy = false ∧ u.ready = false ∧ u.lat = 0 ∧ u.qj = none ∧ u.qk = none) ∧
      ∃ tm, timeIs (finishCycle s) st.inst tm ∧ tm.wb = some s.cycle := by
  obtain ⟨hbusy, -, -, hlat⟩ := h.inv7 r st hst hr
  obtain ⟨a, ha, -, hwb⟩ := h.inv5Time r st ⟨hst, hbusy⟩
  exact ⟨⟨_, finishCycle_station_of_ready hst hr, rfl, rfl, hlat, rfl, rfl⟩,
    _, finishCycle_time_of_occupied h ⟨hst, hbusy⟩ ha, by simp [hwb, hr]⟩

/-- A busy station without a result stays busy with its instruction; if it has one at the end of the cycle it has
completed in it, and its instruction has not retired. -/
theorem finishCycle_of_not_ready {s : State} (h : Inv s) {r : Nat} {st u : Station} (hst : stationIs s r st)
    (hr : st.ready = false) (hu : stationIs (finishCycle s) r u) :
    (st.busy = true → u.busy = true ∧ u.inst = st.inst) ∧
      (u.ready = true → u.busy = true ∧
        ∃ tm, timeIs (finishCycle s) u.inst tm ∧ tm.eend = some s.cycle ∧ tm.wb = none) := by
  obtain rfl := stationIs_unique (finishCycle_station_of_not_ready hst hr) hu
  simp only [forwardK_busy, forwardJ_busy, execStation_busy, forwardK_inst, forwardJ_inst, execStation_inst,
    forwardK_ready, forwardJ_ready]
  refine ⟨fun hbusy => ⟨hbusy, trivial⟩, fun hready => ?_⟩
  have hc := completes_of_execStation_ready hready hr
  obtain ⟨hbusy, -⟩ := eligible_iff.1 (eligible_of_completes hc)
  obtain ⟨a, ha, -, hwb⟩ := h.inv5Time r st ⟨hst, hbusy⟩
  exact ⟨hbusy, _, finishCycle_time_of_occupied h ⟨hst, hbusy⟩ ha, by simp [hc], by simp [hr, hwb]⟩

/-- Settles O50: with no head the stations after Issue are those at the start. -/
theorem cycleWithoutHeadRetiresReadyStations : Obligations.CycleWithoutHeadRetiresReadyStations := fun _ h =>
  ⟨fun _ _ => finishCycle_retires (advance_inv h.inv), fun _ _ _ => finishCycle_of_not_ready (advance_inv h.inv)⟩

end Sys2Proof.Machine
end

section
/-! The family of 41_execute.md: the four functions (R140 to R147), one cycle of Execute (R130 to R139), division by
zero and its record (R147, R211, R214), the timing of a cycle (R249), and the whole life of the last instruction of a
program (R249, R250). -/

namespace Sys2Proof.Machine

/-! ### The four functions (R140 to R147) -/

theorem fAdd_eq (a b : Word) : fAdd a b = a + b := by simp [fAdd, truncW, BitVec.ofInt_add]

theorem fSub_eq (a b : Word) : fSub a b = a - b := by
  simp [fSub, truncW, Int.sub_eq_add_neg, BitVec.ofInt_add, BitVec.ofInt_neg, BitVec.sub_eq_add_neg]

theorem fMult_eq (a b : Word) : fMult a b = a * b := by simp [fMult, truncW, BitVec.ofInt_mul]

/-- The quotient of R143 is the library's quotient truncated toward zero. -/
theorem tdiv_eq (x y : Int) : tdiv x y = x.tdiv y := by
  rw [tdiv, ← Int.sign_mul_natAbs (x.tdiv y), Int.natAbs_tdiv, Int.sign_tdiv, Int.sign_mul]
  split
  · next hlt => simp [Nat.div_eq_of_lt hlt]
  · rfl

theorem fDiv_of_ne {a b : Word} (hb : b ≠ 0#32) :
    fDiv a b = some (BitVec.ofInt 32 (a.toInt.tdiv b.toInt)) := by
  have hne : b.toNat ≠ 0 := fun h => hb (BitVec.eq_of_toNat_eq h)
  rw [fDiv, if_neg hne, tdiv_eq, truncW]

/-- Wrapped to W bits, the quotient is signed division of words (R146). -/
theorem ofInt_tdiv (a b : Word) : BitVec.ofInt 32 (a.toInt.tdiv b.toInt) = a.sdiv b := by
  apply BitVec.eq_of_toInt_eq
  rw [BitVec.toInt_ofInt, BitVec.toInt_sdiv]

/-- Settles O10: DIV tests the divisor, and the other three always answer. -/
theorem onlyDivisionByZeroHasNoResult : Obligations.OnlyDivisionByZeroHasNoResult := by
  intro op a b
  cases op with
  | div => simp [fOp, fDiv]
  | add | sub | mult => simp [fOp]

/-- Settles O8: wrapping to W bits commutes with sum, difference and product. -/
theorem sumDifferenceAndProductWrap : Obligations.SumDifferenceAndProductWrap := by
  intro a b
  refine ⟨?add, ?sub, ?mult⟩
  case add => simp [fOp, fAdd_eq, BitVec.ofNat_add]
  case sub => rw [fOp, fSub_eq, BitVec.sub_def, Nat.add_comm]
  case mult => simp [fOp, fMult_eq, BitVec.ofNat_mul]

theorem natAbs_tmod_lt (x : Int) {y : Int} (hy : y ≠ 0) : (x.tmod y).natAbs < y.natAbs := by
  rw [Int.natAbs_tmod]
  exact Nat.mod_lt _ (Int.natAbs_pos.2 hy)

theorem tmod_eq_zero_or_sign (x y : Int) : x.tmod y = 0 ∨ (x.tmod y).sign = x.sign := by
  rw [Int.sign_tmod]
  split
  · next hdvd => exact .inl (Int.tmod_eq_zero_of_dvd hdvd)
  · exact .inr rfl

/-- Settles O9: short of −2^31 / −1 the quotient fits a word, and what remains is the truncated remainder. -/
theorem quotientIsTruncatedTowardZero : Obligations.QuotientIsTruncatedTowardZero := by
  intro a b hb
  refine ⟨a.sdiv b, (fDiv_of_ne hb).trans (congrArg some (ofInt_tdiv a b)), ?_⟩
  split
  case isTrue hmin =>
    obtain ⟨rfl, rfl⟩ := hmin
    decide
  case isFalse hmin =>
    have hfit : (a.sdiv b).toInt = a.toInt.tdiv b.toInt :=
      BitVec.toInt_sdiv_of_ne_or_ne a b (not_and_or.1 hmin)
    have hne : b.toInt ≠ 0 := fun h => hb (BitVec.eq_of_toInt_eq h)
    refine ⟨a.toInt.tmod b.toInt, ?_, natAbs_tmod_lt _ hne, tmod_eq_zero_or_sign _ _⟩
    rw [hfit, Int.mul_comm, Int.mul_tdiv_add_tmod]

/-! ### One cycle of Execute (R130 to R139, R147) -/

/-! The event of an eligible station, by its counter and its operands. -/

theorem execEvent_of_running {c : Cfg} {st : Station} (he : st.eligible = true) (hl : st.lat + 1 < latency c st.op) :
    execEvent c st = .advance := by
  simp [execEvent, he, hl]

theorem execEvent_of_result {c : Cfg} {st : Station} {v : Word} (he : st.eligible = true)
    (hl : latency c st.op ≤ st.lat + 1) (hv : fOp st.op st.vj st.vk = some v) : execEvent c st = .complete v := by
  rw [execEvent, if_pos he, if_neg hl.not_gt, hv]

theorem execEvent_of_no_result {c : Cfg} {st : Station} (he : st.eligible = true)
    (hl : latency c st.op ≤ st.lat + 1) (hv : fOp st.op st.vj st.vk = none) : execEvent c st = .divideByZero := by
  rw [execEvent, if_pos he, if_neg hl.not_gt, hv]

theorem completes_of_running {c : Cfg} {st : Station} (he : st.eligible = true)
    (hl : st.lat + 1 < latency c st.op) : completes c st = false := by
  simp [completes, execEvent_of_running he hl]

theorem completes_of_result {c : Cfg} {st : Station} {v : Word} (he : st.eligible = true)
    (hl : latency c st.op ≤ st.lat + 1) (hv : fOp st.op st.vj st.vk = some v) : completes c st = true :=
  completes_iff.2 ⟨v, execEvent_of_result he hl hv⟩

theorem not_completes_of_divides {c : Cfg} {st : Station} (h : execEvent c st = .divideByZero) :
    completes c st = false := by
  simp [completes, h]

theorem not_completes_of_ready {c : Cfg} {st : Station} (hr : st.ready = true) : completes c st = false := by
  simp [completes, execEvent, not_eligible_of_ready hr]

theorem execStation_of_running {c : Cfg} {st : Station} (he : st.eligible = true)
    (hl : st.lat + 1 < latency c st.op) : execStation c st = { st with lat := st.lat + 1 } := by
  simp [execStation, execEvent_of_running he hl]

theorem execStation_of_result {c : Cfg} {st : Station} {v : Word} (he : st.eligible = true)
    (hl : latency c st.op ≤ st.lat + 1) (hv : fOp st.op st.vj st.vk = some v) :
    execStation c st = { st with result := v, ready := true, lat := 0 } := by
  simp [execStation, execEvent_of_result he hl hv]

theorem execStation_of_no_result {c : Cfg} {st : Station} (he : st.eligible = true)
    (hl : latency c st.op ≤ st.lat + 1) (hv : fOp st.op st.vj st.vk = none) : execStation c st = st := by
  simp [execStation, execEvent_of_no_result he hl hv]

theorem stationIs_execute {s : State} {r : Nat} {st : Station} (h : stationIs s r st) :
    stationIs (execute s) r (execStation s.cfg st) := by
  rw [stationIs, execute_station, h, Option.map_some]

theorem timeIs_execute {s : State} {k : Nat} {t : TimeRec} (h : timeIs s k t) :
    timeIs (execute s) k (execTime s.cfg s.stations s.cycle k t) := by
  rw [timeIs, execute_time, h, Option.map_some]

/-- A station that passes a test is found by its instruction. -/
theorem any_inst_of_stationIs {s : State} {r : Nat} {st : Station} (h : stationIs s r st) {f : Station → Bool}
    (hf : f st = true) : s.stations.any (fun u => f u && u.inst == st.inst) = true :=
  List.any_eq_true.2 ⟨st, List.mem_of_getElem? h, by simp [hf]⟩

/-- Execute-begin of the instruction in an eligible station is recorded once (R131). -/
theorem execTime_ebegin_of_eligible {s : State} {r : Nat} {st : Station} (h : stationIs s r st)
    (he : st.eligible = true) (t : TimeRec) :
    (execTime s.cfg s.stations s.cycle st.inst t).ebegin = t.ebegin.or (some s.cycle) := by
  rw [execTime, any_inst_of_stationIs h he]
  cases t.ebegin <;> rfl

/-- Execute-end of the instruction in a busy station is recorded exactly when the station completes (R134, INV4). -/
theorem execTime_eend_of_occupied {s : State} (h : Inv s) {r : Nat} {st : Station} (ho : occupied s r st)
    (t : TimeRec) :
    (execTime s.cfg s.stations s.cycle st.inst t).eend = if completes s.cfg st then some s.cycle else t.eend := by
  rw [execTime, any_and_inst_eq h ho (completes s.cfg) fun u hu => (eligible_iff.1 (eligible_of_completes hu)).1]

/-- Settles O18: the event of the station, case by case. -/
theorem counterAdvancesOrCompletes : Obligations.CounterAdvancesOrCompletes := by
  intro s r st hst
  refine ⟨eligible_iff, ?waits, ?advances, ?completes, ?begins⟩
  case waits =>
    intro he
    simpa [execStation_of_not_eligible _ he] using stationIs_execute hst
  case advances =>
    intro he hl
    refine ⟨execStation_of_running he hl ▸ stationIs_execute hst, fun h t ht => ⟨_, timeIs_execute ht, ?_⟩⟩
    rw [execTime_eend_of_occupied h ⟨hst, (eligible_iff.1 he).1⟩, completes_of_running he hl, if_neg Bool.false_ne_true]
  case completes =>
    intro v he hl hv
    refine ⟨execStation_of_result he hl.ge hv ▸ stationIs_execute hst, fun t ht => ⟨_, timeIs_execute ht, ?_⟩⟩
    rw [execTime, any_inst_of_stationIs hst (completes_of_result he hl.ge hv), if_pos rfl]
  case begins =>
    exact fun he t ht => ⟨_, timeIs_execute ht, execTime_ebegin_of_eligible hst he t, rfl, rfl⟩

/-! ### Division by zero (R147, R211, R214) -/

/-- What a station that divides by zero is (R147). -/
theorem divides_by_zero {c : Cfg} {st : Station} (h : execEvent c st = .divideByZero) :
    st.eligible = true ∧ st.op = .div ∧ st.vk.toNat = 0 ∧ execStation c st = st := by
  rcases execStation_cases c st with ⟨-, hev, -⟩ | ⟨-, -, hev, -⟩ | ⟨v, -, -, -, hev, -⟩ | ⟨he, -, hv, -, hst⟩
  · simp [hev] at h
  · simp [hev] at h
  · simp [hev] at h
  · obtain ⟨hop, hk⟩ := (onlyDivisionByZeroHasNoResult _ _ _).1 hv
    exact ⟨he, hop, hk, hst⟩

/-- FAULT names the lowest station that divides by zero, its instruction and the cycle (R214). -/
theorem divFault_of_lowest {s : State} {r : Nat} {st : Station} (h : stationIs s r st)
    (hev : execEvent s.cfg st = .divideByZero)
    (hlow : ∀ a sa, a < r → stationIs s a sa → execEvent s.cfg sa ≠ .divideByZero) :
    divFault s.cfg s.stations s.cycle = some (.divideByZero st.inst r s.cycle) := by
  obtain ⟨hlt, rfl⟩ := List.getElem?_eq_some_iff.1 h
  have hidx : s.stations.findIdx? (fun st => execEvent s.cfg st == .divideByZero) = some r :=
    List.findIdx?_eq_some_iff_getElem.2 ⟨hlt, by simpa using hev, fun a ha =>
      by simpa using hlow a _ ha (List.getElem?_eq_getElem (ha.trans hlt))⟩
  simp [divFault, hidx, hlt]

/-- A record comes from a station that divides by zero. -/
theorem divides_of_divFault {s : State} {f : FaultRecord} (h : divFault s.cfg s.stations s.cycle = some f) :
    ∃ r st, stationIs s r st ∧ execEvent s.cfg st = .divideByZero ∧ f = .divideByZero st.inst r s.cycle := by
  unfold divFault at h
  split at h
  · cases h
  · next r hidx =>
    obtain ⟨hlt, hev, -⟩ := List.findIdx?_eq_some_iff_getElem.1 hidx
    refine ⟨r, s.stations[r], List.getElem?_eq_getElem hlt, by simpa using hev, ?_⟩
    simpa [hlt] using h.symm

theorem divFault_eq_none_iff {s : State} :
    divFault s.cfg s.stations s.cycle = none ↔ ∀ r st, stationIs s r st → execEvent s.cfg st ≠ .divideByZero := by
  constructor
  · intro h r st hst hev
    have hidx : s.stations.findIdx? (fun st => execEvent s.cfg st == .divideByZero) = none := by
      unfold divFault at h
      split at h
      · assumption
      · cases h
    simpa [hev] using List.findIdx?_eq_none_iff.1 hidx st (List.mem_of_getElem? hst)
  · intro h
    by_contra hne
    obtain ⟨f, hf⟩ := Option.ne_none_iff_exists'.1 hne
    obtain ⟨r, st, hst, hev, -⟩ := divides_of_divFault hf
    exact h r st hst hev

/-- Settles O19: its event is `divideByZero`, which writes nothing of the station and is no completion. -/
theorem divisionByZeroIsRecorded : Obligations.DivisionByZeroIsRecorded := by
  intro s r st h hf hst he hop hk hl
  have ho : occupied s r st := ⟨hst, (eligible_iff.1 he).1⟩
  have hexp : latency s.cfg st.op ≤ st.lat + 1 := by rw [hop, hl]; exact le_rfl
  have hv : fOp st.op st.vj st.vk = none := (onlyDivisionByZeroHasNoResult _ _ _).2 ⟨hop, hk⟩
  have hev : execEvent s.cfg st = .divideByZero := execEvent_of_no_result he hexp hv
  refine ⟨?station, ?time, ?fault, fun a sa => stationIs_execute⟩
  case station => exact execStation_of_no_result he hexp hv ▸ stationIs_execute hst
  case time =>
    obtain ⟨t, ht, -⟩ := h.inv5Time r st ho
    refine ⟨_, timeIs_execute ht, ?_, fun t' ht' => ?_⟩
    · rw [execTime_ebegin_of_eligible hst he]
      cases t.ebegin <;> simp
    · rw [execTime_eend_of_occupied h ho, not_completes_of_divides hev, timeIs_unique ht ht']
      rfl
  case fault =>
    intro hlow
    rw [execute_fault, hf, divFault_of_lowest hst hev hlow, Option.none_or]

/-! ### The timing of a cycle (R138, R160, R249)

Issue, Execute and Writeback run with the clock already advanced. `Timing` after Issue is said with the clock set back
to the boundary. -/

/-- The state with the clock at the boundary before its cycle. -/
def setBack (s : State) : State := { s with cycle := s.cycle - 1 }

theorem setBack_advanceCycle (s : State) : setBack (advanceCycle s) = s := by
  simp [setBack, advanceCycle]

/-- Issue writes no timestamp but `issue` (R108). -/
theorem timeIs_of_issue {i : Instr} {s : State} {k : Nat} {t : TimeRec} (ht : timeIs (issue i s) k t) :
    ∃ a, timeIs s k a ∧ t = { a with issue := t.issue } := by
  rcases issue_cases i s with ⟨e, -⟩ | ⟨r, -, -, e⟩ <;> rw [e] at ht
  · exact ⟨t, ht, rfl⟩
  · rw [timeIs, admitTo_time, Option.map_eq_some_iff] at ht
    obtain ⟨a, ha, rfl⟩ := ht
    refine ⟨a, ha, ?_⟩
    split <;> rfl

/-- Issue keeps the timing: the head has begun nothing (R102, R108). -/
theorem issue_timing {i : Instr} {s : State} (h : AtHead i s) (ht : Timing s) :
    Timing (setBack (issue i (advanceCycle s))) := by
  have hinv := atHead_issue_inv h
  have htime : ∀ {k t}, timeIs (issue i (advanceCycle s)) k t →
      ∃ a, timeIs s k a ∧ t = { a with issue := t.issue } := timeIs_of_issue
  have hcycle : (setBack (issue i (advanceCycle s))).cycle = s.cycle := by simp [setBack, issue_cycle]
  have hhead : ∀ {a}, timeIs s s.next a → a = {} := h.inv.inv10After _ _ le_rfl
  have hocc : ∀ {r st}, occupied (issue i (advanceCycle s)) r st → occupied s r st ∨ st.inst = s.next :=
    fun ho => (occupied_of_issue ho).imp_right And.right
  obtain ⟨hcfg, hprog, -⟩ := issue_fixed i (advanceCycle s)
  exact
    { span := by
        intro k t ins e hk hins he
        obtain ⟨a, ha, hta⟩ := htime hk
        rw [hta] at he ⊢
        have hspan := ht.span k a ins e ha ((progAt_congr hprog k).symm.trans hins) he
        simpa [setBack, hcfg] using hspan
      retired := by
        intro k t w hk hw
        obtain ⟨a, ha, hta⟩ := htime hk
        rw [hta] at hw ⊢
        exact ht.retired k a w ha hw
      counting := by
        intro r st t b ho hr hk hb hf
        obtain ⟨a, ha, hta⟩ := htime hk
        rw [hta] at hb
        rw [hcycle]
        rcases hocc ho with ho | hinst
        · exact ht.counting r st a b ho hr ha hb h.noFault
        · rw [hinst] at ha
          rw [hhead ha] at hb
          cases hb
      noEnd := by
        intro r st t ho hr hk
        obtain ⟨a, ha, hta⟩ := htime hk
        rw [hta]
        rcases hocc ho with ho | hinst
        · exact ht.noEnd r st a ho hr ha
        · rw [hinst] at ha
          rw [hhead ha]
      fresh := by
        intro r st t ho hr hk
        obtain ⟨a, ha, hta⟩ := htime hk
        rw [hcycle]
        rcases hocc ho with ho | hinst
        · rw [hta]
          exact ht.fresh r st a ho hr ha
        · obtain ⟨t', hk', hend⟩ := hinv.inv7Time r st ho.1 hr
          rw [← timeIs_unique hk hk', hta] at hend
          rw [hinst] at ha
          simp [hhead ha] at hend }

theorem stationIs_of_finishCycle {s : State} {a : Nat} {u : Station} (hu : stationIs (finishCycle s) a u) :
    ∃ st, stationIs s a st := by
  rw [stationIs, finishCycle_station, Option.map_eq_some_iff] at hu
  obtain ⟨st, hst, -⟩ := hu
  exact ⟨st, hst⟩

/-- A busy station at the end of a cycle was busy without a result, executed, and took what the buses carried (R139,
R164, R165). -/
theorem running_of_finishCycle {s : State} {r : Nat} {u : Station} (h : occupied (finishCycle s) r u) :
    ∃ st, occupied s r st ∧ st.ready = false ∧
      u = ((execStation s.cfg st).forwardJ (cdb s (execute s))).forwardK (cdb s (execute s)) := by
  obtain ⟨hu, hbusy⟩ := h
  obtain ⟨st, hst⟩ := stationIs_of_finishCycle hu
  cases hr : st.ready with
  | true =>
    rw [← stationIs_unique (finishCycle_station_of_ready hst hr) hu] at hbusy
    cases hbusy
  | false =>
    obtain rfl := stationIs_unique (finishCycle_station_of_not_ready hst hr) hu
    exact ⟨st, ⟨hst, by simpa using hbusy⟩, hr, rfl⟩

/-- The timestamps of the instruction in station `st` after cycle `c` (R131, R134, R162). -/
def Station.timeAfter (cfg : Cfg) (c : CycleNo) (st : Station) (a : TimeRec) : TimeRec where
  issue := a.issue
  ebegin := if a.ebegin.isNone && st.eligible then some c else a.ebegin
  eend := if completes cfg st then some c else a.eend
  wb := if a.wb.isNone && st.ready then some c else a.wb

theorem timeAfter_of_eligible {cfg : Cfg} {c : CycleNo} {st : Station} (he : st.eligible = true) (a : TimeRec) :
    st.timeAfter cfg c a =
      { a with ebegin := a.ebegin.or (some c), eend := if completes cfg st then some c else a.eend } := by
  obtain ⟨-, -, -, hr⟩ := eligible_iff.1 he
  cases hb : a.ebegin <;> simp [Station.timeAfter, he, hr, hb]

theorem timeAfter_of_ready {cfg : Cfg} {c : CycleNo} {st : Station} (hr : st.ready = true) (a : TimeRec) :
    st.timeAfter cfg c a = { a with wb := a.wb.or (some c) } := by
  cases hb : a.wb <;> simp [Station.timeAfter, not_eligible_of_ready hr, not_completes_of_ready hr, hr, hb]

theorem timeAfter_ebegin {cfg : Cfg} {c : CycleNo} {st : Station} (he : st.eligible = true) (a : TimeRec) :
    (st.timeAfter cfg c a).ebegin = a.ebegin.or (some c) := by
  rw [timeAfter_of_eligible he]

/-- The timestamps after a cycle stand from before it, or are those of a busy station's instruction. -/
theorem time_of_finishCycle {s : State} (h : Inv s) {k : Nat} {t : TimeRec} (ht : timeIs (finishCycle s) k t) :
    timeIs s k t ∨ ∃ r st a, occupied s r st ∧ st.inst = k ∧ timeIs s k a ∧ t = st.timeAfter s.cfg s.cycle a := by
  by_cases hk : ∃ r st, occupied s r st ∧ st.inst = k
  · obtain ⟨r, st, ho, rfl⟩ := hk
    obtain ⟨a, ha, -⟩ := h.inv5Time r st ho
    exact .inr ⟨r, st, a, ho, rfl, ha, timeIs_unique ht (finishCycle_time_of_occupied h ho ha)⟩
  · refine .inl ?_
    rwa [timeIs, finishCycle_ts_of_absent h fun r st ho hinst => hk ⟨r, st, ho, hinst⟩] at ht

theorem time_of_finishCycle_occupied {s : State} (h : Inv s) {r : Nat} {st : Station} (ho : occupied s r st)
    {t : TimeRec} (ht : timeIs (finishCycle s) st.inst t) :
    ∃ a, timeIs s st.inst a ∧ t = st.timeAfter s.cfg s.cycle a := by
  obtain ⟨a, ha, -⟩ := h.inv5Time r st ho
  exact ⟨a, ha, timeIs_unique ht (finishCycle_time_of_occupied h ho ha)⟩

/-- A station gets a result by completing alone (R134). -/
theorem execStation_ready (c : Cfg) (st : Station) : (execStation c st).ready = (st.ready || completes c st) := by
  unfold execStation completes
  split <;> simp_all

/-- The counter of an eligible station, this cycle counted, has counted every cycle from its execute-begin (INV12). -/
theorem counted_of_eligible {s : State} (h : Inv s) (ht : Timing (setBack s)) (hf : s.fault = none) {r : Nat}
    {st : Station} {a : TimeRec} (ho : occupied s r st) (he : st.eligible = true) (ha : timeIs s st.inst a) :
    ∃ b, a.ebegin.or (some s.cycle) = some b ∧ b + BitVec.ofNat 32 (st.lat + 1) = s.cycle + 1 := by
  obtain ⟨-, hj, hk, hr⟩ := eligible_iff.1 he
  cases hb : a.ebegin with
  | none =>
    have hlat : st.lat = 0 := by
      rcases h.inv12 r st a ho hj hk hr ha with hiff | ⟨-, hdz, -⟩
      · exact hiff.2 hb
      · simp [dividedByZero, hf] at hdz
    exact ⟨s.cycle, rfl, by rw [hlat]; rfl⟩
  | some b =>
    have hcount : b + BitVec.ofNat 32 st.lat = s.cycle :=
      (ht.counting r st a b ho hr ha hb hf).trans (by simp [setBack])
    exact ⟨b, rfl, by rw [BitVec.ofNat_add, ← BitVec.add_assoc, hcount]; rfl⟩

/-- The instruction of a busy station without a result that is not eligible has not begun (INV8). -/
theorem not_begun_of_waiting {s : State} (h : Inv s) {r : Nat} {st : Station} {a : TimeRec} (ho : occupied s r st)
    (hr : st.ready = false) (he : st.eligible = false) (ha : timeIs s st.inst a) : a.ebegin = none := by
  have hq : st.qj ≠ none ∨ st.qk ≠ none := by
    by_contra hnot
    obtain ⟨hj, hk⟩ : st.qj = none ∧ st.qk = none := by simpa [not_or] using hnot
    simp [eligible_iff.2 ⟨ho.2, hj, hk, hr⟩] at he
  obtain ⟨-, a', ha', hb⟩ := h.inv8 r st ho hq
  exact timeIs_unique ha ha' ▸ hb

/-- Execute and Writeback keep the timing (R249). -/
theorem finishCycle_timing {s : State} (h : Inv s) (ht : Timing (setBack s)) (hf : s.fault = none) :
    Timing (finishCycle s) where
  span := by
    intro k t ins e hk hins he
    obtain ⟨hcfg, hprog, -⟩ := finishCycle_fixed s
    rw [progAt_congr hprog] at hins
    rw [hcfg]
    rcases time_of_finishCycle h hk with hk | ⟨r, st, a, ho, rfl, ha, rfl⟩
    · exact ht.span k t ins e hk hins he
    cases hc : completes s.cfg st with
    | false =>
      obtain ⟨b, hb, hspan⟩ := ht.span _ a ins e ha hins (by simpa [Station.timeAfter, hc] using he)
      exact ⟨b, by simp [Station.timeAfter, hb], hspan⟩
    | true =>
      have hel := eligible_of_completes hc
      obtain ⟨b, hb, hcount⟩ := counted_of_eligible h ht hf ho hel ha
      obtain rfl : s.cycle = e := by simpa [Station.timeAfter, hc] using he
      have hlat : st.lat + 1 = latency s.cfg ins.op := by
        obtain ⟨ins', hins', hop, -⟩ := h.inv5Op r st ho
        cases hins.symm.trans hins'
        have hlt := h.inv9 r st ho
        have hge : latency s.cfg st.op ≤ st.lat + 1 := by
          by_contra hlt'
          simp [completes_of_running hel (not_le.1 hlt')] at hc
        rw [← hop]
        omega
      exact ⟨b, (timeAfter_ebegin hel a).trans hb, hlat ▸ hcount.symm⟩
  retired := by
    intro k t w hk hw
    rcases time_of_finishCycle h hk with hk | ⟨r, st, a, ho, rfl, ha, rfl⟩
    · exact ht.retired k t w hk hw
    obtain ⟨a', ha', -, hwb⟩ := h.inv5Time r st ho
    cases timeIs_unique ha ha'
    cases hr : st.ready with
    | false => simp [Station.timeAfter, hwb, hr] at hw
    | true =>
      obtain rfl : s.cycle = w := by simpa [Station.timeAfter, hwb, hr] using hw
      refine ⟨s.cycle - 1, ?_, by simp⟩
      rw [Station.timeAfter, not_completes_of_ready hr, if_neg Bool.false_ne_true]
      exact ht.fresh r st a ho hr ha
  counting := by
    intro r u t b hu hr hk hb hf'
    obtain ⟨st, ho, hr0, rfl⟩ := running_of_finishCycle hu
    simp only [forwardK_inst, forwardJ_inst, execStation_inst] at hk
    obtain ⟨a, ha, rfl⟩ := time_of_finishCycle_occupied h ho hk
    simp only [forwardK_ready, forwardJ_ready] at hr
    simp only [forwardK_lat, forwardJ_lat, finishCycle_cycle]
    rcases execStation_cases s.cfg st with ⟨he, -, -⟩ | ⟨he, -, -, hst⟩ | ⟨v, -, -, -, -, hst⟩ | ⟨-, -, -, hev, -⟩
    · simp [Station.timeAfter, he, not_begun_of_waiting h ho hr0 he ha] at hb
    · obtain ⟨b', hb', hcount⟩ := counted_of_eligible h ht hf ho he ha
      cases hb'.symm.trans ((timeAfter_ebegin he a).symm.trans hb)
      rw [hst, hcount]
    · simp [hst] at hr
    · have hnone : divFault s.cfg s.stations s.cycle = none := by simpa [finishCycle, hf] using hf'
      exact absurd hev (divFault_eq_none_iff.1 hnone r st ho.1)
  noEnd := by
    intro r u t hu hr hk
    obtain ⟨st, ho, hr0, rfl⟩ := running_of_finishCycle hu
    simp only [forwardK_inst, forwardJ_inst, execStation_inst] at hk
    obtain ⟨a, ha, rfl⟩ := time_of_finishCycle_occupied h ho hk
    have hc : completes s.cfg st = false := by simpa [execStation_ready, hr0] using hr
    simpa [Station.timeAfter, hc] using ht.noEnd r st a ho hr0 ha
  fresh := by
    intro r u t hu hr hk
    obtain ⟨st, ho, hr0, rfl⟩ := running_of_finishCycle hu
    simp only [forwardK_inst, forwardJ_inst, execStation_inst] at hk
    obtain ⟨a, ha, rfl⟩ := time_of_finishCycle_occupied h ho hk
    have hc : completes s.cfg st = true := by simpa [execStation_ready, hr0] using hr
    simp [Station.timeAfter, hc]

/-- With no instruction begun there is nothing to time. -/
theorem timing_of_pristine {s : State} (ht : ∀ k t, timeIs s k t → t = {}) (hf : ∀ r st, ¬ occupied s r st) :
    Timing s where
  span := by
    intro k t ins e hk _ he
    cases ht k t hk ▸ he
  retired := by
    intro k t w hk hw
    cases ht k t hk ▸ hw
  counting := fun r st _ _ ho => absurd ho (hf r st)
  noEnd := fun r st _ ho => absurd ho (hf r st)
  fresh := fun r st _ ho => absurd ho (hf r st)

theorem resetEdge_not_occupied (s : State) (r : Nat) (st : Station) : ¬ occupied (resetEdge s) r st := by
  refine not_occupied_of_free (fun r st hst => ?_) r st
  simp only [stationIs, resetEdge_stations, List.getElem?_map, Option.map_eq_some_iff] at hst
  obtain ⟨_, -, rfl⟩ := hst
  rfl

theorem reset_not_occupied (r : Nat) (st : Station) : ¬ occupied State.reset r st := by
  refine not_occupied_of_free (fun r st hst => ?_) r st
  rw [List.eq_of_mem_replicate (List.mem_of_getElem? hst)]
  rfl

/-- The timing reads nothing that the release of rst writes, and a fault record only stops counters. -/
theorem Timing.releaseReset {s : State} (h : Timing s) : Timing (releaseReset s) := by
  unfold Machine.releaseReset
  split
  · exact { h with }
  · exact h

theorem Timing.raiseFault {s : State} (h : Timing s) (f : FaultRecord) : Timing (raiseFault f s) := by
  unfold Machine.raiseFault
  split
  · exact { h with counting := fun _ _ _ _ _ _ _ _ hf => nomatch hf }
  · exact h

/-- Settles O44, by the kinds of edges. -/
theorem stepKeepsTheTiming : Obligations.StepKeepsTheTiming := by
  refine ⟨timing_of_pristine (fun k t ht => absurd (timeIs_lt ht) (Nat.not_lt_zero k)) reset_not_occupied, ?_⟩
  intro s t h ht hst
  by_cases hr : s.pins.rst = true
  · cases hst.symm.trans (step_reset hr)
    exact timing_of_pristine (fun _ _ => resetEdge_timeIs) (resetEdge_not_occupied s)
  have ht := ht.releaseReset
  rcases step_of_inv h (by simpa using hr) hst with rfl | rfl | ⟨i, hi, rfl⟩ | ⟨hd, rfl⟩
  · exact ht
  · exact ht.raiseFault _
  · exact finishCycle_timing (atHead_issue_inv hi) (issue_timing hi ht) ((issue_fault i _).trans hi.noFault)
  · exact finishCycle_timing (advance_inv hd.inv) ((setBack_advanceCycle _).symm ▸ ht) hd.noFault

/-! ### The truth of a fault record (R147, R182, R213, R214) -/

/-- A station that divides by zero is the same after the cycle: it has no tag and does not broadcast (R147). -/
theorem finishCycle_station_of_divides {s : State} {r : Nat} {st : Station} (h : stationIs s r st)
    (hev : execEvent s.cfg st = .divideByZero) : stationIs (finishCycle s) r st := by
  obtain ⟨he, -, -, hsame⟩ := divides_by_zero hev
  obtain ⟨-, hj, hk, hr⟩ := eligible_iff.1 he
  have hst := finishCycle_station_of_not_ready h hr
  rwa [hsame, Station.forwardJ, hj, busAt_none, Station.forwardK, hk, busAt_none] at hst

theorem not_done_of_timeIs {s : State} {k : Nat} {t : TimeRec} (ht : timeIs s k t) (hw : t.wb = none) :
    done s = false := by
  by_contra hd
  exact done_iff.1 (by simpa using hd) t (List.mem_of_getElem? ht) hw

/-- What a cycle records in FAULT is so (R147, R213). -/
theorem finishCycle_faultRecordTrue {s : State} (h : Inv s) (ht : Timing (setBack s)) (hf : s.fault = none) :
    FaultRecordTrue (finishCycle s) := by
  intro k r c hrec
  have hdiv : divFault s.cfg s.stations s.cycle = some (.divideByZero k r c) := by
    simpa [finishCycle, hf] using hrec
  obtain ⟨q, st, hst, hev, heq⟩ := divides_of_divFault hdiv
  cases heq
  obtain ⟨he, hop, hdivisor, -⟩ := divides_by_zero hev
  obtain ⟨hbusy, hj, hk, hr⟩ := eligible_iff.1 he
  have ho : occupied s r st := ⟨hst, hbusy⟩
  obtain ⟨a, ha, -, hwb⟩ := h.inv5Time r st ho
  have htime : timeIs (finishCycle s) st.inst (st.timeAfter s.cfg s.cycle a) := finishCycle_time_of_occupied h ho ha
  have hw : (st.timeAfter s.cfg s.cycle a).wb = none := by simp [Station.timeAfter, hwb, hr]
  refine ⟨⟨st, ⟨finishCycle_station_of_divides hst hev, hbusy⟩, rfl, hop, hr, hj, hk, hdivisor⟩,
    ⟨_, htime, ?_, ?_, hw⟩, (finishCycle_cycle s).symm, not_done_of_timeIs htime hw⟩
  · rw [timeAfter_ebegin he]
    cases a.ebegin <;> simp
  · rw [Station.timeAfter, not_completes_of_divides hev, if_neg Bool.false_ne_true]
    exact ht.noEnd r st a ho hr ha

theorem faultRecordTrue_of_no_fault {s : State} (h : s.fault = none) : FaultRecordTrue s := by
  intro k r c hrec
  cases h.symm.trans hrec

theorem FaultRecordTrue.releaseReset {s : State} (h : FaultRecordTrue s) : FaultRecordTrue (releaseReset s) := by
  unfold Machine.releaseReset
  split <;> exact h

/-- The cycle cap leaves a record there is, and its own is no DivideByZero (R183, R214). -/
theorem FaultRecordTrue.raiseCap {s : State} (h : FaultRecordTrue s) (c : CycleNo) :
    FaultRecordTrue (raiseFault (.cycleCapExceeded c) s) := by
  unfold raiseFault
  split
  · exact fun _ _ _ hrec => nomatch hrec
  · exact h

/-- Settles O55, by the kinds of edges. -/
theorem stepKeepsTheFaultRecordTrue : Obligations.StepKeepsTheFaultRecordTrue := by
  refine ⟨faultRecordTrue_of_no_fault rfl, ?_⟩
  intro s t h ht htrue hst
  by_cases hr : s.pins.rst = true
  · cases hst.symm.trans (step_reset hr)
    exact faultRecordTrue_of_no_fault rfl
  have ht := ht.releaseReset
  rcases step_of_inv h (by simpa using hr) hst with rfl | rfl | ⟨i, hi, rfl⟩ | ⟨hd, rfl⟩
  · exact htrue.releaseReset
  · exact htrue.releaseReset.raiseCap _
  · exact finishCycle_faultRecordTrue (atHead_issue_inv hi) (issue_timing hi ht) ((issue_fault i _).trans hi.noFault)
  · exact finishCycle_faultRecordTrue (advance_inv hd.inv) ((setBack_advanceCycle _).symm ▸ ht) hd.noFault

/-! ### A station alone in the pool

A cycle in which a single station is busy and the others are free without tags (R29). -/

/-- Station r holds `st`, and every other station is free. -/
structure OnlyBusy (s : State) (r : Nat) (st : Station) : Prop where
  here : occupied s r st
  others : ∀ a sa, a ≠ r → stationIs s a sa → sa.busy = false ∧ sa.ready = false ∧ sa.qj = none ∧ sa.qk = none

namespace OnlyBusy

variable {s : State} {r : Nat} {st : Station}

theorem eq_of_busy (h : OnlyBusy s r st) {a : Nat} {sa : Station} (hsa : stationIs s a sa) (hb : sa.busy = true) :
    a = r ∧ sa = st := by
  by_cases ha : a = r
  · subst ha
    exact ⟨rfl, stationIs_unique hsa h.here.1⟩
  · obtain ⟨hfree, -⟩ := h.others a sa ha hsa
    cases hb.symm.trans hfree

/-- A test that only busy stations pass is asked of the one station. -/
theorem any_inst_eq (h : OnlyBusy s r st) (k : Nat) (f : Station → Bool) (hf : ∀ u, f u = true → u.busy = true) :
    s.stations.any (fun u => f u && u.inst == k) = (f st && st.inst == k) := by
  rw [Bool.eq_iff_iff, List.any_eq_true]
  constructor
  · rintro ⟨u, hmem, hu⟩
    obtain ⟨a, ha⟩ := List.mem_iff_getElem?.1 hmem
    obtain ⟨-, rfl⟩ := h.eq_of_busy ha (hf u (Bool.and_eq_true_iff.1 hu).1)
    exact hu
  · exact fun hst => ⟨st, List.mem_of_getElem? h.here.1, hst⟩

theorem broadcasts_eq (h : OnlyBusy s r st) (a : Nat) : broadcasts s a = (a == r && st.ready) := by
  rw [Bool.eq_iff_iff, broadcasts_iff, Bool.and_eq_true, beq_iff_eq]
  constructor
  · rintro ⟨sa, hsa, hready⟩
    by_cases ha : a = r
    · subst ha
      exact ⟨rfl, stationIs_unique hsa h.here.1 ▸ hready⟩
    · obtain ⟨-, hnot, -⟩ := h.others a sa ha hsa
      cases hready.symm.trans hnot
  · rintro ⟨rfl, hready⟩
    exact ⟨st, h.here.1, hready⟩

theorem retires_eq (h : OnlyBusy s r st) (k : Nat) : retires s (execute s) k = (st.ready && st.inst == k) := by
  rw [Bool.eq_iff_iff, retires_iff, Bool.and_eq_true, beq_iff_eq]
  have hst := stationIs_execute h.here.1
  constructor
  · rintro ⟨a, u, hu, hb, rfl⟩
    rw [h.broadcasts_eq, Bool.and_eq_true, beq_iff_eq] at hb
    obtain ⟨rfl, hready⟩ := hb
    exact ⟨hready, by simp [stationIs_unique hu hst]⟩
  · rintro ⟨hready, rfl⟩
    exact ⟨r, _, hst, by simp [h.broadcasts_eq, hready], by simp⟩

/-- Only the timestamps of the station's instruction are written (R131, R134, R162). -/
theorem finishCycle_ts (h : OnlyBusy s r st) :
    (finishCycle s).ts = s.ts.modify st.inst (st.timeAfter s.cfg s.cycle) := by
  refine List.ext_getElem? fun k => ?_
  have he := h.any_inst_eq k Station.eligible fun u hu => (eligible_iff.1 hu).1
  have hc := h.any_inst_eq k (completes s.cfg) fun u hu => (eligible_iff.1 (eligible_of_completes hu)).1
  rw [finishCycle, writeback_time, execute_time, List.getElem?_modify, Option.map_map]
  cases s.ts[k]? with
  | none => rfl
  | some a =>
    by_cases hk : st.inst = k
    · simp [wbTime, execTime, he, hc, h.retires_eq, hk, Station.timeAfter]
    · simp [wbTime, execTime, he, hc, h.retires_eq, hk]

/-- A station that has its operands and no result executes, and no bus has a value (R132, R134, R161). -/
theorem finishCycle (h : OnlyBusy s r st) (he : st.eligible = true) :
    OnlyBusy (finishCycle s) r (execStation s.cfg st) := by
  obtain ⟨hbusy, hj, hk, hr⟩ := eligible_iff.1 he
  have hst := finishCycle_station_of_not_ready h.here.1 hr
  refine ⟨⟨?_, by simpa using hbusy⟩, fun a sa ha hsa => ?_⟩
  · rwa [Station.forwardJ, execStation_qj, hj, busAt_none, Station.forwardK, execStation_qk, hk, busAt_none] at hst
  · obtain ⟨sb, hsb⟩ := stationIs_of_finishCycle hsa
    obtain ⟨hbusy', hr', hj', hk'⟩ := h.others a sb ha hsb
    have hidle := finishCycle_station_of_idle hsb (not_eligible_of_free hbusy') hr' fun q hq => by simp [hj', hk'] at hq
    exact stationIs_unique hidle hsa ▸ h.others a sb ha hsb

theorem not_divides (h : OnlyBusy s r st) {a : Nat} {sa : Station} (ha : a ≠ r) (hsa : stationIs s a sa) :
    execEvent s.cfg sa ≠ .divideByZero := by
  obtain ⟨hfree, -⟩ := h.others a sa ha hsa
  simp [execEvent, not_eligible_of_free hfree]

theorem finishCycle_fault (h : OnlyBusy s r st) (hev : execEvent s.cfg st ≠ .divideByZero) :
    (Machine.finishCycle s).fault = s.fault := by
  have hnone : divFault s.cfg s.stations s.cycle = none := by
    refine divFault_eq_none_iff.2 fun a sa hsa => ?_
    by_cases ha : a = r
    · subst ha
      exact stationIs_unique hsa h.here.1 ▸ hev
    · exact h.not_divides ha hsa
  simp [Machine.finishCycle, hnone]

theorem finishCycle_fault_of_divides (h : OnlyBusy s r st) (hev : execEvent s.cfg st = .divideByZero)
    (hf : s.fault = none) : (Machine.finishCycle s).fault = some (.divideByZero st.inst r s.cycle) := by
  have hsome := divFault_of_lowest h.here.1 hev fun _ _ ha => h.not_divides ha.ne
  simp [Machine.finishCycle, hf, hsome]

end OnlyBusy

/-- A register mapped to a station in B takes its result, and its entry is cleared (R163). -/
theorem finishCycle_register_of_ready {s : State} {j r : Nat} {st : Station} (hm : mapped s j r)
    (hst : stationIs s r st) (hr : st.ready = true) :
    (finishCycle s).reg[j]? = (s.reg[j]?).map (fun _ => st.result) ∧ (finishCycle s).rstat[j]? = some none := by
  have hbus := busAt_of_ready hst hr
  have hstat : (execute s).rstat[j]? = some (some r) := by rwa [execute_rstat]
  constructor
  · rw [finishCycle, writeback_reg, hstat, Option.getD_some, hbus, execute_reg]
    rfl
  · rw [finishCycle, writeback_stat, hstat, Option.map_some, clearTag, hbus]
    rfl

/-! ### The last instruction of a program, alone (R140 to R147, R249, R250) -/

/-- `t` is a state after Issue of `i`, the last instruction of `s`, which is alone in station r: the station holds `st`,
the timestamps of the instruction are `tm`, and the other elements are those of `s` but for the renamed destination. -/
structure Alone (i : Instr) (s : State) (r : Nat) (st : Station) (tm : TimeRec) (t : State) : Prop where
  running : t.pins.rst = false ∧ t.pins.en = true ∧ t.inReset = false ∧ t.cfgErr = none
  cfg : t.cfg = s.cfg
  allIssued : t.next = s.cfg.n
  only : OnlyBusy t r st
  inst : st.inst = s.next
  reg : t.reg = s.reg
  rstat : t.rstat = s.rstat.set i.rd.toNat (some r)
  ts : t.ts = s.ts.set s.next tm

theorem modify_set_self {α : Type} (l : List α) (n : Nat) (a : α) (f : α → α) :
    (l.set n a).modify n f = l.set n (f a) := by
  rw [List.set_eq_modify, List.modify_modify_eq, List.set_eq_modify]
  rfl

namespace Alone

variable {i : Instr} {s t : State} {r : Nat} {st : Station} {tm : TimeRec}

theorem advanceCycle (h : Alone i s r st tm t) : Alone i s r st tm (advanceCycle t) :=
  { h with only := ⟨h.only.here, h.only.others⟩ }

theorem finishCycle_ts (h : Alone i s r st tm t) :
    (finishCycle t).ts = s.ts.set s.next (st.timeAfter s.cfg t.cycle tm) := by
  rw [h.only.finishCycle_ts, h.inst, h.ts, h.cfg, modify_set_self]

/-- The rest of a cycle in which the station executes. -/
theorem finishCycle (h : Alone i s r st tm t) (he : st.eligible = true) :
    Alone i s r (execStation s.cfg st) (st.timeAfter s.cfg t.cycle tm) (finishCycle t) := by
  obtain ⟨hcfg, -, hpins, hreset⟩ := finishCycle_fixed t
  obtain ⟨-, -, -, hr⟩ := eligible_iff.1 he
  have hsilent : ∀ j q, Machine.mapped t j q → broadcasts t q = false := fun j q _ => by simp [h.only.broadcasts_eq, hr]
  exact
    { running := by simpa [hpins, hreset] using h.running
      cfg := hcfg.trans h.cfg
      allIssued := (finishCycle_next t).trans h.allIssued
      only := h.cfg ▸ h.only.finishCycle he
      inst := (execStation_inst ..).trans h.inst
      reg := h.reg ▸ List.ext_getElem? fun j => (finishCycle_register_of_silent (hsilent j)).1
      rstat := h.rstat ▸ List.ext_getElem? fun j => (finishCycle_register_of_silent (hsilent j)).2
      ts := h.finishCycle_ts }

theorem timeIs (h : Alone i s r st tm t) (hs : LastAlone i s) : timeIs t s.next tm := by
  rw [Machine.timeIs, h.ts, List.getElem?_set_self (timeIs_lt hs.head.2)]

theorem mapped (h : Alone i s r st tm t) (hs : LastAlone i s) : mapped t i.rd.toNat r := by
  have hd : i.rd.toNat < s.rstat.length := by simpa [hs.rstat] using (inRange_iff.1 hs.wf).1
  rw [Machine.mapped, h.rstat, List.getElem?_set_self hd]

/-- While the instruction has not retired and FAULT is empty, a step is a cycle without a head. -/
theorem step (h : Alone i s r st tm t) (hs : LastAlone i s) (hw : tm.wb = none) (hf : t.fault = none) :
    step t = .next (drainCycle t) := by
  obtain ⟨hrst, hen, hreset, herr⟩ := h.running
  have hhalt : halted t = false := by simp [halted, not_done_of_timeIs (h.timeIs hs) hw, hf]
  have hcap : capReached t = false := by simp [capReached, h.cfg, hs.noFault.2]
  have hrelease := releaseReset_of_released hreset
  have hstep := stepRunsTheHeadInstruction t hrst hen (hrelease.symm ▸ herr) hhalt hcap
  rw [hrelease] at hstep
  exact hstep.2 (by rw [h.cfg, h.allIssued])

/-- The rest of the cycle in which the station broadcasts. -/
theorem retires (h : Alone i s r st tm t) (hs : LastAlone i s) (hr : st.ready = true) :
    (Machine.finishCycle t).reg = s.reg.set i.rd.toNat st.result ∧ (Machine.finishCycle t).rstat = s.rstat := by
  obtain ⟨hreg, hstat⟩ := finishCycle_register_of_ready (h.mapped hs) h.only.here.1 hr
  have hother : ∀ j, j ≠ i.rd.toNat → ∀ q, Machine.mapped t j q → broadcasts t q = false := by
    intro j hj q hm
    rw [Machine.mapped, h.rstat, List.getElem?_set_ne hj.symm, hs.rstat] at hm
    cases List.eq_of_mem_replicate (List.mem_of_getElem? hm)
  refine ⟨List.ext_getElem? fun j => ?_, List.ext_getElem? fun j => ?_⟩
  · by_cases hj : j = i.rd.toNat
    · rw [hj, hreg, h.reg, List.getElem?_set_self']
      rfl
    · rw [(finishCycle_register_of_silent (hother j hj)).1, h.reg, List.getElem?_set_ne (Ne.symm hj)]
  · by_cases hj : j = i.rd.toNat
    · rw [hj, hstat, hs.rstat, List.getElem?_replicate, if_pos (inRange_iff.1 hs.wf).1]
    · rw [(finishCycle_register_of_silent (hother j hj)).2, h.rstat, List.getElem?_set_ne (Ne.symm hj)]

end Alone

/-- The station of `i`, with both operands, when its counter is at `lat`; `res` is what its result field holds, which
no rule reads before completion (R29). -/
def countingStation (i : Instr) (s : State) (res : Word) (lat : Nat) : Station where
  busy := true
  op := i.op
  vj := readReg s i.rs
  vk := readReg s i.rt
  qj := none
  qk := none
  lat := lat
  result := res
  ready := false
  inst := s.next

theorem countingStation_eligible (i : Instr) (s : State) (res : Word) (lat : Nat) :
    (countingStation i s res lat).eligible = true := rfl

/-- `t` is the state after Issue of the cycle in which `i`, alone in station r, counts from `lat` (R132): its
execute-begin is the issue cycle. -/
structure Counting (i : Instr) (s : State) (r lat : Nat) (t : State) : Prop where
  alone : ∃ res b, Alone i s r (countingStation i s res lat) { issue := some (s.cycle + 1), ebegin := b } t ∧
    b.or (some t.cycle) = some (s.cycle + 1)
  cycle : t.cycle = s.cycle + BitVec.ofNat 32 (lat + 1)
  noFault : t.fault = none

namespace Counting

variable {i : Instr} {s t : State} {r lat : Nat}

/-- Until the counter expires a step is one more count (R132). -/
theorem count (h : Counting i s r lat t) (hs : LastAlone i s) (hl : lat + 1 < latency s.cfg i.op) :
    Counting i s r (lat + 1) (advanceCycle (finishCycle t)) ∧
      step (finishCycle t) = .next (finishCycle (advanceCycle (finishCycle t))) := by
  obtain ⟨res, b, halone, hb⟩ := h.alone
  have he := countingStation_eligible i s res lat
  have hnext := halone.finishCycle he
  rw [execStation_of_running he hl, timeAfter_of_eligible he, completes_of_running he hl, hb] at hnext
  have hev : execEvent t.cfg (countingStation i s res lat) ≠ .divideByZero := by
    rw [halone.cfg, execEvent_of_running he hl]
    exact nofun
  have hfault : (finishCycle t).fault = none := (halone.only.finishCycle_fault hev).trans h.noFault
  refine ⟨⟨⟨res, _, hnext.advanceCycle, rfl⟩, ?_, hfault⟩, hnext.step hs rfl hfault⟩
  rw [advanceCycle_cycle, finishCycle_cycle, h.cycle, BitVec.ofNat_add (lat + 1) 1, ← BitVec.add_assoc]
  rfl

/-- The steps up to the cycle in which the counter expires. -/
theorem run_to_expiry (hs : LastAlone i s) {n : Nat} (hn : lat + n + 1 = latency s.cfg i.op)
    (h : Counting i s r lat t) :
    ∃ t', Counting i s r (lat + n) t' ∧ ∀ k, run (n + k) (finishCycle t) = run k (finishCycle t') := by
  induction n generalizing lat t with
  | zero => exact ⟨t, h, fun k => by rw [Nat.zero_add]⟩
  | succ n ih =>
    obtain ⟨hcount, hstep⟩ := h.count hs (by omega)
    obtain ⟨t', ht', hrun⟩ := ih (lat := lat + 1) (by omega) hcount
    refine ⟨t', by rwa [Nat.add_right_comm, Nat.add_assoc] at ht', fun k => ?_⟩
    rw [Nat.add_right_comm, run, hstep]
    exact hrun k

end Counting

theorem exists_classOf {c : Cfg} {k : OpClass} (h : 1 ≤ stationCount c k) : ∃ r, r < c.nrs ∧ classOf c r = some k := by
  simp only [Cfg.nrs, ← mem_partition]
  cases k with
  | add =>
    have hna : 1 ≤ c.na := h
    exact ⟨0, by omega, List.mem_range'_1.2 (by omega)⟩
  | mult =>
    have hnm : 1 ≤ c.nm := h
    exact ⟨c.na, by omega, List.mem_range'_1.2 (by omega)⟩
  | div =>
    have hnd : 1 ≤ c.nd := h
    exact ⟨c.na + c.nm, by omega, List.mem_range'_1.2 (by omega)⟩

/-- Of free stations the arbiter gives one (R101, R102). -/
theorem exists_arbiter_of_free {s : State} {k : OpClass} (hpool : s.stations.length = s.cfg.nrs)
    (hfree : ∀ st ∈ s.stations, st.busy = false) (h : 1 ≤ stationCount s.cfg k) : ∃ r, arbiter s k = some r := by
  refine Option.ne_none_iff_exists'.1 fun hnone => ?_
  obtain ⟨r, hr, hcls⟩ := exists_classOf h
  have hst : stationIs s r s.stations[r] := List.getElem?_eq_getElem (hpool ▸ hr)
  have hrfree := isFree_iff.2 ⟨_, hst, hfree _ (List.mem_of_getElem? hst)⟩
  cases hrfree.symm.trans (arbiter_none.1 hnone r hcls)

namespace LastAlone

variable {i : Instr} {s : State}

theorem resolve_eq (h : LastAlone i s) (x : RegIx) : resolve s x = .val (readReg s x) := by
  have hstat : readStat s x = none := by
    rw [readStat, h.rstat, List.getElem?_replicate]
    split <;> rfl
  rw [resolve, hstat]

/-- Issue admits the last instruction with both operands, since no register has a producer (R102 to R108). -/
theorem issue (h : LastAlone i s) :
    ∃ r, classOf s.cfg r = some i.op.cls ∧ Counting i s r 0 (issue i (advanceCycle s)) := by
  obtain ⟨r, ha⟩ := exists_arbiter_of_free (s := advanceCycle s) h.pool (fun st hst => (h.free st hst).1) h.station
  obtain ⟨hcls, ⟨st, hst, -⟩, -⟩ := arbiter_some ha
  obtain ⟨-, hr, hlat, -⟩ := h.free st (List.mem_of_getElem? hst)
  have hn : (advanceCycle s).next < (advanceCycle s).cfg.n := h.last ▸ Nat.lt_succ_self _
  have hfill : st.fill i.op (resolve s i.rs) (resolve s i.rt) s.next = countingStation i s st.result 0 := by
    simp [h.resolve_eq, Station.fill, Station.placeJ, Station.placeK, countingStation, hr, hlat]
  rw [issue_of_arbiter hn ha]
  refine ⟨r, hcls, ⟨st.result, none, ?alone, rfl⟩, rfl, h.noFault.1⟩
  case alone =>
    have honly : OnlyBusy (admitTo i r (advanceCycle s)) r (countingStation i s st.result 0) := by
      refine ⟨⟨?_, rfl⟩, fun a sa hne hsa => ?_⟩
      · rw [stationIs, admitTo_station, hst, Option.map_some, if_pos rfl]
        exact congrArg some hfill
      · rw [stationIs, admitTo_station, Option.map_eq_some_iff] at hsa
        obtain ⟨sb, hsb, rfl⟩ := hsa
        obtain ⟨hbusy, hready, -, hj, hk⟩ := h.free sb (List.mem_of_getElem? hsb)
        rw [if_neg hne.symm]
        exact ⟨hbusy, hready, hj, hk⟩
    refine ⟨h.running, rfl, h.last, honly, rfl, rfl, rfl, List.ext_getElem? fun k => ?_⟩
    rw [admitTo_time, List.getElem?_set]
    by_cases hk : s.next = k
    · subst hk
      rw [advanceCycle_ts, h.head.2]
      simp [timeIs_lt h.head.2]
    · simp [hk]

end LastAlone

/-- At the end of the cycle in which the counter expires the result is in the station (R134), and one step later the
instruction has retired (R160 to R165). -/
theorem Counting.completes {i : Instr} {s t : State} {r lat : Nat} {v : Word} (h : Counting i s r lat t)
    (hs : LastAlone i s) (hl : lat + 1 = latency s.cfg i.op)
    (hv : fOp i.op (readReg s i.rs) (readReg s i.rt) = some v) :
    ∃ u, step (finishCycle t) = .next u ∧ u.reg = s.reg.set i.rd.toNat v ∧
      u.ts = s.ts.set s.next
        { issue := some (s.cycle + 1), ebegin := some (s.cycle + 1),
          eend := some (s.cycle + BitVec.ofNat 32 (latency s.cfg i.op)),
          wb := some (s.cycle + BitVec.ofNat 32 (latency s.cfg i.op) + 1) } ∧
      u.rstat = s.rstat ∧ u.fault = none ∧ u.cfgErr = none := by
  obtain ⟨res, b, halone, hb⟩ := h.alone
  have he := countingStation_eligible i s res lat
  have hexp : latency s.cfg (countingStation i s res lat).op ≤ (countingStation i s res lat).lat + 1 := hl.ge
  have hcycle : t.cycle = s.cycle + BitVec.ofNat 32 (latency s.cfg i.op) := hl ▸ h.cycle
  have hev : execEvent t.cfg (countingStation i s res lat) ≠ .divideByZero := by
    rw [halone.cfg, execEvent_of_result he hexp hv]
    exact nofun
  have hfault : (finishCycle t).fault = none := (halone.only.finishCycle_fault hev).trans h.noFault
  have hready := halone.finishCycle he
  rw [execStation_of_result he hexp hv, timeAfter_of_eligible he, completes_of_result he hexp hv, hb,
    hcycle] at hready
  have hlast := hready.advanceCycle
  obtain ⟨hreg, hrstat⟩ := hlast.retires hs rfl
  obtain ⟨-, -, -, herr⟩ := hlast.running
  refine ⟨_, hready.step hs rfl hfault, hreg, ?_, hrstat, ?_, ?_⟩
  · rw [drainCycle, hlast.finishCycle_ts, timeAfter_of_ready rfl, advanceCycle_cycle, finishCycle_cycle, hcycle]
    rfl
  · refine (hlast.only.finishCycle_fault ?_).trans hfault
    simp [execEvent, not_eligible_of_ready]
  · exact (finishCycle_cfgErr _).trans herr

/-- At the end of the cycle in which the counter of a DIV with divisor 0 expires, FAULT names it, and its station is as
it was (R147). -/
theorem Counting.faults {i : Instr} {s t : State} {r lat : Nat} (h : Counting i s r lat t)
    (hl : lat + 1 = latency s.cfg i.op) (hv : fOp i.op (readReg s i.rs) (readReg s i.rt) = none) :
    (finishCycle t).fault = some (.divideByZero s.next r (s.cycle + BitVec.ofNat 32 (latency s.cfg i.op))) ∧
      ∃ res, Alone i s r (countingStation i s res lat)
        { issue := some (s.cycle + 1), ebegin := some (s.cycle + 1) } (finishCycle t) := by
  obtain ⟨res, b, halone, hb⟩ := h.alone
  have he := countingStation_eligible i s res lat
  have hexp : latency s.cfg (countingStation i s res lat).op ≤ (countingStation i s res lat).lat + 1 := hl.ge
  have hcycle : t.cycle = s.cycle + BitVec.ofNat 32 (latency s.cfg i.op) := hl ▸ h.cycle
  have hev : execEvent s.cfg (countingStation i s res lat) = .divideByZero := execEvent_of_no_result he hexp hv
  have hfailed := halone.finishCycle he
  rw [execStation_of_no_result he hexp hv, timeAfter_of_eligible he, not_completes_of_divides hev, hb] at hfailed
  exact ⟨hcycle ▸ halone.only.finishCycle_fault_of_divides (halone.cfg ▸ hev) h.noFault, res, hfailed⟩

namespace LastAlone

variable {i : Instr} {s : State}

/-- From the head cycle to the one in which the counter expires. -/
theorem run_to_expiry (h : LastAlone i s) :
    ∃ r t lat, classOf s.cfg r = some i.op.cls ∧ lat + 1 = Machine.latency s.cfg i.op ∧ Counting i s r lat t ∧
      ∀ k, run (lat + k) (issueCycle i s) = run k (finishCycle t) := by
  obtain ⟨r, hcls, hcount⟩ := h.issue
  have hn : 0 + (Machine.latency s.cfg i.op - 1) + 1 = Machine.latency s.cfg i.op := by
    have hpos := h.latency
    omega
  obtain ⟨t, ht, hrun⟩ := hcount.run_to_expiry h hn
  rw [Nat.zero_add] at ht hn
  exact ⟨r, t, _, hcls, hn, ht, hrun⟩

/-- With the last instruction retired, all have. -/
theorem done_of_set (h : LastAlone i s) {u : State} {tm : TimeRec} (hts : u.ts = s.ts.set s.next tm)
    (hw : tm.wb ≠ none) : done u = true := by
  rw [done_iff, hts]
  intro a hmem
  obtain ⟨k, hk⟩ := List.mem_iff_getElem?.1 hmem
  rw [List.getElem?_set] at hk
  split at hk
  · split at hk
    · cases hk
      exact hw
    · cases hk
  · next hne =>
    have hlt : k < s.ts.length := timeIs_lt hk
    rw [h.ts, ← h.last] at hlt
    exact h.retired k a (by omega) hk

/-- The whole life of the last instruction of a program (R137, R163, R249, R250). -/
theorem completes (h : LastAlone i s) {v : Word} (hv : fOp i.op (readReg s i.rs) (readReg s i.rt) = some v) :
    ∃ t u, exec i s = .next t ∧ run (Machine.latency s.cfg i.op) t = .next u ∧
      u.reg = s.reg.set i.rd.toNat v ∧
      u.ts = s.ts.set s.next
        { issue := some (s.cycle + 1), ebegin := some (s.cycle + 1),
          eend := some (s.cycle + BitVec.ofNat 32 (Machine.latency s.cfg i.op)),
          wb := some (s.cycle + BitVec.ofNat 32 (Machine.latency s.cfg i.op) + 1) } ∧
      u.rstat = s.rstat ∧ u.fault = none ∧ runStatus u = .completed := by
  obtain ⟨r, t, lat, -, hl, hcount, hrun⟩ := h.run_to_expiry
  obtain ⟨u, hstep, hreg, hts, hrstat, hfault, herr⟩ := hcount.completes h hl hv
  have hdone : done u = true := h.done_of_set hts nofun
  refine ⟨_, u, exec_next h.wf, ?_, hreg, hts, hrstat, hfault, by simp [runStatus, herr, hfault, hdone]⟩
  rw [← hl, hrun, run, hstep]
  rfl

end LastAlone

/-- Settles O26: an ADD always has a result, the sum. -/
theorem addWritesTheSum : Obligations.AddWritesTheSum := fun _ _ _ _ h => h.completes rfl

/-- Settles O27: a SUB always has a result, the difference. -/
theorem subWritesTheDifference : Obligations.SubWritesTheDifference := fun _ _ _ _ h => h.completes rfl

/-- Settles O28: a MULT always has a result, the low half of the product. -/
theorem multWritesTheProduct : Obligations.MultWritesTheProduct := fun _ _ _ _ h => h.completes rfl

/-- Settles O29: a DIV whose divisor is not 0 has a result, the truncated quotient. -/
theorem divWritesTheQuotient : Obligations.DivWritesTheQuotient := fun _ _ _ _ h hdiv =>
  h.completes (fDiv_of_ne hdiv)

/-- Settles O30: the fault record halts the machine with the station as it was. -/
theorem divByZeroHaltsTheRun : Obligations.DivByZeroHaltsTheRun := by
  intro rd rs rt s h hdiv
  obtain ⟨r, t, lat, hcls, hl, hcount, hrun⟩ := h.run_to_expiry
  have hv : fOp .div (readReg s rs) (readReg s rt) = none :=
    (onlyDivisionByZeroHasNoResult _ _ _).2 ⟨rfl, by rw [hdiv]; rfl⟩
  obtain ⟨hfault, res, halone⟩ := hcount.faults hl hv
  have htime := halone.timeIs h
  obtain ⟨hrst, -, hreset, -⟩ := halone.running
  have hlat : s.cfg.ld - 1 = lat := Nat.sub_eq_of_eq_add hl.symm
  have hheld := heldEdgeKeepsTheState _ hrst hreset (.inr (.inr (.inl (by simp [hfault]))))
  exact ⟨_, _, r, _, _, exec_next h.wf, hlat ▸ hrun 0, hfault, hcls, halone.reg, halone.mapped h, halone.only.here,
    rfl, rfl, htime, rfl, rfl, rfl, not_done_of_timeIs htime rfl, hheld⟩

end Sys2Proof.Machine
end

section
/-! The family of 42_writeback.md: what a broadcast writes in the register file, the status table and the waiting
stations (R161, R163, R164), and the cycle in which a ready station retires (R160, R162, R165). -/

namespace Sys2Proof.Machine

/-! ### What a broadcast writes (R161 to R166) -/

/-- The bus of a station in B carries the result the station holds in S2 (R161). -/
theorem busAt_of_broadcasts {s1 s2 : State} {p : Nat} {sp : Station} (hb : broadcasts s1 p = true)
    (hsp : stationIs s2 p sp) : busAt (cdb s1 s2) (some p) = some sp.result := by
  rw [busAt_cdb, if_pos hb, hsp, Option.map_some]

/-- A register whose entry names a station in B takes its result, and the entry is cleared (R163). -/
theorem writeback_register_of_broadcasts {s1 s2 : State} {i r : Nat} {st : Station} (hi : i < s2.reg.length)
    (hm : mapped s2 i r) (hb : broadcasts s1 r = true) (hst : stationIs s2 r st) :
    (writeback s1 s2).reg[i]? = some st.result ∧ (writeback s1 s2).rstat[i]? = some none := by
  have hbus := busAt_of_broadcasts hb hst
  constructor
  · rw [writeback_reg, hm, Option.getD_some, hbus, List.getElem?_eq_getElem hi]
    rfl
  · rw [writeback_stat, hm, Option.map_some, clearTag, hbus]
    rfl

/-- A register whose entry names no station in B keeps its value and its entry (R163). -/
theorem writeback_register_of_silent {s1 s2 : State} {i : Nat} (h : ∀ r, mapped s2 i r → broadcasts s1 r = false) :
    (writeback s1 s2).reg[i]? = s2.reg[i]? ∧ (writeback s1 s2).rstat[i]? = s2.rstat[i]? := by
  rw [writeback_reg, writeback_stat]
  cases hi : s2.rstat[i]? with
  | none => simp
  | some t =>
    have hbus : busAt (cdb s1 s2) t = none := busAt_of_silent fun r hr => h r (hi.trans (congrArg some hr))
    simp [clearTag, hbus]

/-- Settles O20, by whether the register's bus carries a value; no other register is mapped to the station (INV3). -/
theorem broadcastWritesTheMappedRegister : Obligations.BroadcastWritesTheMappedRegister := by
  refine fun s1 s2 i => ⟨fun r st hi hm hb hst => ?_, writeback_register_of_silent⟩
  obtain ⟨hreg, hstat⟩ := writeback_register_of_broadcasts hi hm hb hst
  exact ⟨hreg, hstat, fun hinv j hj => hinv.inv3 j i r hj hm⟩

/-- A station outside B takes what the buses carry for its operands (R164). -/
theorem writeback_station_of_silent {s1 s2 : State} {a : Nat} {st : Station} (hst : stationIs s2 a st)
    (hb : broadcasts s1 a = false) :
    stationIs (writeback s1 s2) a ((st.forwardJ (cdb s1 s2)).forwardK (cdb s1 s2)) := by
  rw [stationIs, writeback_station, hst, Option.map_some, wbStation, hb, if_neg Bool.false_ne_true]

/-- Settles O21: an operand is rewritten exactly when its tag's bus carries a value. -/
theorem broadcastReachesEveryWaiter : Obligations.BroadcastReachesEveryWaiter := by
  intro s1 s2 a st hst hb
  refine ⟨_, writeback_station_of_silent hst hb, ?takesJ, ?takesK, ?keepsJ, ?keepsK, ?fields⟩
  case takesJ =>
    intro p sp hq hp hsp
    simp [hq, clearTag, busAt_of_broadcasts hp hsp]
  case takesK =>
    intro p sp hq hp hsp
    simp [hq, clearTag, busAt_of_broadcasts hp hsp]
  case keepsJ =>
    intro hq
    simp [clearTag, busAt_of_silent hq]
  case keepsK =>
    intro hq
    simp [clearTag, busAt_of_silent hq]
  case fields => simp

/-! ### When a station retires (R160, R162, R165) -/

/-- Issue leaves the `ready` flag of every station (R106). -/
theorem exists_stationIs_issue {s : State} {r : Nat} {st : Station} (i : Instr) (hst : stationIs s r st) :
    ∃ u, stationIs (issue i s) r u ∧ u.ready = st.ready := by
  rcases issue_cases i s with ⟨e, -⟩ | ⟨q, -, -, e⟩
  · exact ⟨st, by rwa [e], rfl⟩
  · rw [e]
    simp only [stationIs, admitTo_station, hst, Option.map_some, Option.some.injEq, exists_eq_left']
    split <;> simp

/-- A station ready at the start of a cycle is busy, so Issue leaves it as it is (INV7, R101). -/
theorem stationIs_issue_of_ready {s : State} (h : Inv s) {r : Nat} {st : Station} (i : Instr)
    (hst : stationIs s r st) (hr : st.ready = true) : stationIs (issue i s) r st := by
  obtain ⟨hbusy, -⟩ := h.inv7 r st hst hr
  exact (issue_station_of_ne (arbiter_ne_of_busy ⟨hst, hbusy⟩ _)).trans hst

/-- Settles O22: Issue neither writes a ready station nor makes one ready, and the rest of the cycle frees the former
and completes the latter. -/
theorem readyStationsRetireInTheNextCycle : Obligations.ReadyStationsRetireInTheNextCycle := by
  intro i s h
  have hinv := atHead_issue_inv h
  refine ⟨issueCycle i s, exec_next h.wf, ?ready, ?notReady⟩
  case ready =>
    intro r st hst hr
    rw [issueCycle, finishCycle_cycle]
    exact finishCycle_retires hinv (stationIs_issue_of_ready (advance_inv h.inv) i hst hr) hr
  case notReady =>
    intro r st u hst hr hu
    obtain ⟨v, hv, hvr⟩ := exists_stationIs_issue (s := advanceCycle s) i hst
    rw [issueCycle, finishCycle_cycle]
    exact (finishCycle_of_not_ready hinv hv (hvr.trans hr) hu).2

end Sys2Proof.Machine
end

section
/-! The family of 43_cycle_and_interface.md: reset edges and the release of rst (R185, R210, R240), the cycle cap
(R183), the first cycle after reset (R242), and the bound on the cycles of a run (R189). -/

namespace Sys2Proof.Machine

/-! ### An edge with rst = 1 (R240) -/

theorem loadReg_of_idle {p : Pins} (h : p.regWrite = none) (reg : List Word) : loadReg p reg = reg := by
  rw [loadReg, h]

theorem loadReg_getElem?_of_write {p : Pins} {x : RegIx} {v : Word} (h : p.regWrite = some (x, v)) (reg : List Word)
    (a : Nat) : (loadReg p reg)[a]? = if a = x.toNat ∧ a < reg.length then some v else reg[a]? := by
  rw [loadReg, h]
  by_cases ha : a = x.toNat
  · subst ha
    by_cases hlt : x.toNat < reg.length <;> simp [hlt]
  · simp [ha, List.getElem?_set_ne (Ne.symm ha)]

theorem loadProg_of_idle {p : Pins} (h : p.progWrite = none) (prog : List (Option Decoded)) :
    loadProg p prog = prog := by
  rw [loadProg, h]

theorem loadProg_getElem?_of_write {p : Pins} {x : BitVec (indexWidth p.cfg.n)} {w : InstrWord}
    (h : p.progWrite = some (x, w)) (prog : List (Option Decoded)) (k : Nat) :
    (loadProg p prog)[k]?.getD none = if k = x.toNat then some (decodeWord w) else prog[k]?.getD none := by
  rw [loadProg, h, setCell_getElem?]

/-- Settles O35: the ports are the two loads, and every other element has a constant written to it. -/
theorem resetEdgeGivesTheResetValues : Obligations.ResetEdgeGivesTheResetValues := by
  intro s hr
  refine ⟨resetEdge s, step_reset hr, rfl, rfl, by simp, ?free, rfl, rfl, rfl, rfl, rfl, ?reg, ?prog⟩
  case free =>
    intro st hst
    obtain ⟨r, -, rfl⟩ := List.mem_map.1 hst
    exact ⟨rfl, rfl, rfl, rfl, rfl⟩
  case reg =>
    intro a
    rw [resetEdge_reg]
    cases hport : s.pins.regWrite with
    | none => rw [loadReg_of_idle hport]
    | some port => exact loadReg_getElem?_of_write hport ..
  case prog =>
    intro k
    rw [resetEdge_prog]
    cases hport : s.pins.progWrite with
    | none => rw [loadProg_of_idle hport]
    | some port => exact loadProg_getElem?_of_write hport ..

/-! ### The release of rst and the cycle cap (R183, R210) -/

theorem releaseReset_of_inReset {s : State} (h : s.inReset = true) :
    releaseReset s = { s with cfgErr := admission s, inReset := false } := if_pos h

/-- Settles O52: such an edge is a held one, and it keeps what the release gives. -/
theorem releaseEdgeEvaluatesTheChecks : Obligations.ReleaseEdgeEvaluatesTheChecks := by
  intro s hr hin h
  have hheld : held s := by
    rw [held, releaseReset_of_inReset hin, halted_iff]
    tauto
  rw [step_held hr hheld, releaseReset_of_inReset hin]

theorem run_succ_of_step {s t : State} (h : step s = .next t) (n : Nat) : run (n + 1) s = run n t := by
  rw [run, h]

/-- A state that a step leaves is left by every run. -/
theorem run_of_step_self {s : State} (h : step s = .next s) (n : Nat) : run n s = .next s := by
  induction n with
  | zero => rfl
  | succ n ih => rw [run_succ_of_step h, ih]

/-- Settles O37: the release edge records the code, and from then on every edge is held by it. -/
theorem refusedConfigurationRunsNoCycle : Obligations.RefusedConfigurationRunsNoCycle := by
  intro s e hr hin ha
  have hfirst := releaseEdgeEvaluatesTheChecks s hr hin (.inl (by simp [ha]))
  rw [ha] at hfirst
  have hrest := heldEdgeKeepsTheState { s with cfgErr := some e, inReset := false } hr rfl (.inl nofun)
  exact ⟨hfirst, fun n => by rw [run_succ_of_step hfirst, run_of_step_self hrest]⟩

/-- Settles O34: no fault stands where a cycle would run, so the cap is the one recorded. -/
theorem cycleCapIsAFault : Obligations.CycleCapIsAFault := by
  intro s m hr hen he hh hm hc
  have hcap : capReached s = true := by simp [capReached, hm, hc]
  have hf : (releaseReset s).fault = none := by
    by_contra hf
    simp [halted_iff.2 (.inr (by simpa using hf))] at hh
  rw [step_cap hr (not_held_iff.2 ⟨he, hh, hen⟩) hcap, raiseFault, hf, hc]

/-! ### A machine with every station free, and a running one (R29, R182) -/

/-- At the end of the boot sequence every station is free and nothing has issued (R240). -/
theorem Booted.inv {s : State} (h : Booted s) : Inv s := by
  refine pristine_inv ⟨h.reg, ?_, h.pool, ?_, ?_, ?_, fun _ => h.cfgErr⟩ h.rstat h.free h.next h.ts
  · rw [h.rstat, List.length_replicate]
  · rw [h.ts, List.length_replicate]
  · rw [h.next]
    exact Nat.zero_le _
  · intro hin
    cases h.inReset.symm.trans hin

/-- An admitted configuration has a station for each class its program uses (R9 WF4). -/
theorem AtHead.station {i : Instr} {s : State} (h : AtHead i s) : 1 ≤ stationCount s.cfg i.op.cls := by
  obtain ⟨-, -, -, -, -, -, hchecks⟩ := lowestFailingCheckIsReported cycleWidth s.cfg (program s)
  obtain ⟨-, -, -, hwf4, -⟩ := hchecks.1 h.admitted
  exact hwf4 i (h.head ▸ List.mem_map_of_mem (List.mem_range.2 h.inProgram))

/-- With every station free no register has a producer (INV1). -/
theorem readStat_of_free {s : State} (h : Inv s) (hf : ∀ r st, ¬ occupied s r st) (x : RegIx) :
    readStat s x = none := by
  by_contra hne
  obtain ⟨p, hp⟩ := Option.ne_none_iff_exists'.1 hne
  obtain ⟨st, ho⟩ := h.inv1Rstat _ _ (mapped_of_readStat hp)
  exact hf p st ho

/-- With every station free the arbiter gives the head one (R101, R102, WF4). -/
theorem AtHead.exists_arbiter {i : Instr} {s : State} (h : AtHead i s) (hf : ∀ r st, ¬ occupied s r st) :
    ∃ r, arbiter s i.op.cls = some r := by
  refine exists_arbiter_of_free h.inv.sized.pool (fun st hmem => ?_) h.station
  obtain ⟨r, hr⟩ := List.mem_iff_getElem?.1 hmem
  by_contra hb
  exact hf r st ⟨hr, by simpa using hb⟩

/-- A state from which CORE runs until it is done: an admitted configuration without a cap, no fault, and a host that
holds rst at 0 and en at 1 (R182). -/
structure Running (s : State) : Prop where
  inv : Inv s
  admitted : admission s = none
  noFault : s.fault = none
  noCap : s.cfg.maxCycles = none
  pins : s.pins.rst = false ∧ s.pins.en = true

theorem running_of_booted {s : State} (h : Booted s) : Running s :=
  ⟨h.inv, h.admitted, h.fault, h.noCap, h.running⟩

theorem Booted.not_occupied {s : State} (h : Booted s) (r : Nat) (st : Station) : ¬ occupied s r st :=
  not_occupied_of_free (fun _ st hst => (h.free st (List.mem_of_getElem? hst)).1) r st

/-- A step of a running state that is not at DONE is a cycle, with a head or without one (R100, R182). -/
theorem Running.step_cases {s : State} (h : Running s) (hd : done s = false) :
    (∃ i, AtHead i (releaseReset s) ∧ step s = .next (issueCycle i (releaseReset s))) ∨
      Draining (releaseReset s) ∧ step s = .next (drainCycle (releaseReset s)) := by
  obtain ⟨hr, hen⟩ := h.pins
  have hadm : admission (releaseReset s) = admission s :=
    admission_congr (releaseReset_prog s) (releaseReset_cfg s)
  have herr : (releaseReset s).cfgErr = none :=
    ((release_inv h.inv).sized.checked (releaseReset_inReset s)).trans (hadm.trans h.admitted)
  have hhalt : halted s = false := by simp [halted, hd, h.noFault]
  have hheld : ¬ held s := not_held_iff.2 ⟨herr, hhalt, hen⟩
  rw [step_cycle hr hheld (by simp [capReached, h.noCap])]
  rcases atHead_or_draining h.inv hheld with ⟨i, hi⟩ | hdrain
  · exact .inl ⟨i, hi, runCycle_atHead hi⟩
  · exact .inr ⟨hdrain, runCycle_draining hdrain⟩

/-! ### The first cycle after reset (R242) -/

/-- State.reset with the word `w` loaded as its program (R241; log 8). -/
def oneWord (w : InstrWord) : State := State.reset.withFetchWord 32 w.toNat

theorem oneWord_cfg (w : InstrWord) : (oneWord w).cfg = { resetCfg with n := 1 } := rfl

theorem oneWord_progAt {w : InstrWord} {i : Instr} (h : decodeWord w = .instr i) : progAt (oneWord w) 0 = .instr i := by
  have hword : BitVec.ofNat 32 (w.toNat % 2 ^ 32) = w := by
    rw [Nat.mod_eq_of_lt w.isLt, BitVec.ofNat_toNat, BitVec.setWidth_eq]
  refine progAt_of_loaded ?_
  change some (some (decodeWord (BitVec.ofNat 32 (w.toNat % 2 ^ 32)))) = _
  rw [hword, h]

theorem oneWord_program {w : InstrWord} {i : Instr} (h : decodeWord w = .instr i) :
    program (oneWord w) = [.instr i] :=
  congrArg (fun d => [d]) (oneWord_progAt h)

/-- A legal word alone passes the checks: the configuration of State.reset has all 256 registers and every class of
station (R9; log 3). -/
theorem oneWord_admitted {w : InstrWord} {i : Instr} (h : decodeWord w = .instr i) : admission (oneWord w) = none := by
  obtain ⟨-, -, -, -, -, -, hchecks⟩ :=
    lowestFailingCheckIsReported cycleWidth { resetCfg with n := 1 } [.instr i]
  rw [admission, oneWord_cfg, oneWord_program h]
  refine hchecks.2 ⟨?registers, ?legal, by decide, ?stations, by decide, ?bound⟩
  case registers => exact fun j _ => ⟨j.rd.isLt, j.rs.isLt, j.rt.isLt⟩
  case legal => exact fun d hd => ⟨i, List.mem_singleton.1 hd⟩
  case stations =>
    intro j _
    cases j <;> exact Nat.le_of_ble_eq_true rfl
  case bound => cases i <;> exact Nat.le_of_ble_eq_true rfl

theorem oneWord_booted {w : InstrWord} {i : Instr} (h : decodeWord w = .instr i) : Booted (oneWord w) where
  inReset := rfl
  cfgErr := rfl
  admitted := oneWord_admitted h
  reg := List.length_replicate
  rstat := rfl
  pool := List.length_replicate
  free := fun st hst => by
    rw [List.eq_of_mem_replicate hst]
    exact ⟨rfl, rfl, rfl, rfl, rfl⟩
  next := rfl
  ts := rfl
  cycle := rfl
  fault := rfl
  noCap := rfl
  running := ⟨rfl, rfl⟩

/-- Settles O32: with every station free the head is admitted with both operands in the first cycle. -/
theorem loadedWordIssuesInCycleOne : Obligations.LoadedWordIssuesInCycleOne := by
  intro w i hw
  have hboot := oneWord_booted hw
  have hfree : ∀ r st, ¬ occupied (releaseReset (oneWord w)) r st := by
    simpa only [occupied, stationIs, releaseReset_stations] using hboot.not_occupied
  rcases (running_of_booted hboot).step_cases rfl with ⟨j, hj, hstep⟩ | ⟨hdrain, -⟩
  · obtain ⟨r, ha⟩ := hj.exists_arbiter hfree
    obtain ⟨t, -, tm, hexec, -, -, -, -, htime, hissue, -, hbegin, hnext, hcycle⟩ :=
      headInstructionIsAdmitted j _ r hj ha
    rw [if_pos ⟨readStat_of_free hj.inv hfree _, readStat_of_free hj.inv hfree _⟩] at hbegin
    exact ⟨t, tm, hstep.trans ((exec_next hj.wf).symm.trans hexec), hnext, hcycle, htime, hissue, hbegin⟩
  · cases hdrain.allIssued

/-! ### The bound on the cycles of a run (R189)

The oldest instruction that has not retired waits for nothing: it has a station with both operands, or it is the head
and every station is free. So each cycle brings it one cycle nearer to its retirement, and the sum of L(op) + 1 from it
on bounds the cycles that are left. -/

theorem Running.of_step {s t : State} (h : Running s) (hst : step s = .next t) (hf : t.fault = none) : Running t := by
  obtain ⟨hpins, hfixed⟩ := configurationAndProgramAreFixed s t hst
  obtain ⟨hcfg, hprog, -⟩ := hfixed h.pins.1
  exact ⟨stepKeepsTheInvariants s t h.inv hst, (admission_congr hprog hcfg).trans h.admitted, hf, hcfg ▸ h.noCap,
    hpins ▸ h.pins⟩

/-- The first k instructions have retired. -/
def RetiredBelow (s : State) (k : Nat) : Prop := ∀ j t, j < k → timeIs s j t → t.wb ≠ none

/-- Instruction k has not retired, and every earlier one has. -/
structure Oldest (s : State) (k : Nat) : Prop where
  unretired : ∃ t, timeIs s k t ∧ t.wb = none
  before : RetiredBelow s k

/-- Only the writeback timestamps count. -/
theorem Oldest.congr {s t : State} {k : Nat} (h : Oldest s k) (hwb : t.ts.map TimeRec.wb = s.ts.map TimeRec.wb) :
    Oldest t k := by
  have hcol : ∀ j, t.ts[j]?.map TimeRec.wb = s.ts[j]?.map TimeRec.wb := fun j => by
    rw [← List.getElem?_map, hwb, List.getElem?_map]
  obtain ⟨a, ha, haw⟩ := h.unretired
  constructor
  · have hk := hcol k
    rw [ha, Option.map_some, Option.map_eq_some_iff] at hk
    obtain ⟨b, hb, hbw⟩ := hk
    exact ⟨b, hb, hbw.trans haw⟩
  · intro j b hj hb
    have hk := hcol j
    rw [hb, Option.map_some, eq_comm, Option.map_eq_some_iff] at hk
    obtain ⟨c, hc, hcw⟩ := hk
    exact hcw ▸ h.before j c hj hc

theorem exists_oldest {s : State} (hd : done s = false) : ∃ k, Oldest s k := by
  have hex : ∃ k t, timeIs s k t ∧ t.wb = none := by
    by_contra hno
    refine Bool.eq_false_iff.1 hd (done_iff.2 fun t hmem hw => ?_)
    obtain ⟨k, hk⟩ := List.mem_iff_getElem?.1 hmem
    exact hno ⟨k, t, hk, hw⟩
  classical exact ⟨Nat.find hex, Nat.find_spec hex, fun j t hj ht hw => Nat.find_min hex hj ⟨t, ht, hw⟩⟩

namespace Oldest

variable {s : State} {k : Nat}

theorem done_eq_false (h : Oldest s k) : done s = false := by
  obtain ⟨t, ht, hw⟩ := h.unretired
  exact not_done_of_timeIs ht hw

theorem lt (h : Oldest s k) (hinv : Inv s) : k < s.cfg.n := by
  obtain ⟨t, ht, -⟩ := h.unretired
  exact hinv.sized.ts ▸ timeIs_lt ht

/-- The instruction of a busy station is not older (INV5). -/
theorem le_inst (h : Oldest s k) (hinv : Inv s) {r : Nat} {st : Station} (ho : occupied s r st) : k ≤ st.inst := by
  by_contra hlt
  obtain ⟨t, ht, -, hw⟩ := hinv.inv5Time r st ho
  exact h.before _ t (not_le.1 hlt) ht hw

/-- It has both its operands: a producer would be older (INV1, INV6). -/
theorem operands (h : Oldest s k) (hinv : Inv s) {r : Nat} {st : Station} (ho : occupied s r st)
    (hk : st.inst = k) : st.qj = none ∧ st.qk = none := by
  constructor <;> by_contra hne <;> obtain ⟨p, hp⟩ := Option.ne_none_iff_exists'.1 hne
  · obtain ⟨sp, hsp⟩ := hinv.inv1Qj r st p ho.1 hp
    exact (h.le_inst hinv hsp).not_gt (hk ▸ hinv.inv6Qj r st p sp ho hp hsp.1)
  · obtain ⟨sp, hsp⟩ := hinv.inv1Qk r st p ho.1 hp
    exact (h.le_inst hinv hsp).not_gt (hk ▸ hinv.inv6Qk r st p sp ho hp hsp.1)

/-- It has issued or is the next to issue (INV10). -/
theorem le_next (h : Oldest s k) (hinv : Inv s) : k ≤ s.next := by
  by_contra hlt
  have hlt := not_le.1 hlt
  obtain ⟨t, ht⟩ := exists_timeIs hinv.sized (hlt.trans (h.lt hinv))
  exact h.before _ t hlt ht (by rw [hinv.inv10After _ t le_rfl ht])

/-- When it is the next to issue, every station is free (INV5). -/
theorem not_occupied (h : Oldest s k) (hinv : Inv s) (hk : s.next = k) (r : Nat) (st : Station) : ¬ occupied s r st :=
  fun ho => (h.le_inst hinv ho).not_gt (hk ▸ hinv.inv5Next r st ho)

end Oldest

/-- The cycles until the instruction in a station has retired, once it has its operands: one to broadcast, and before a
result one for each count that is left (R132, R134, R160). -/
def Station.remaining (c : Cfg) (st : Station) : Nat :=
  if st.ready then 1 else latency c st.op + 1 - st.lat

theorem remaining_of_ready {c : Cfg} {st : Station} (h : st.ready = true) : st.remaining c = 1 := if_pos h

theorem remaining_of_not_ready {c : Cfg} {st : Station} (h : st.ready = false) :
    st.remaining c = latency c st.op + 1 - st.lat := by
  rw [Station.remaining, h, if_neg Bool.false_ne_true]

theorem remaining_pos {s : State} (h : Inv s) {r : Nat} {st : Station} (ho : occupied s r st) :
    0 < st.remaining s.cfg := by
  have hlat := h.inv9 r st ho
  rw [Station.remaining]
  split <;> omega

/-- Instruction k, when it is the oldest, retires within w cycles: from its station, or as the next to issue (R249). -/
inductive RetiresWithin (s : State) (k w : Nat) : Prop
  | inStation (r : Nat) (st : Station) (ho : occupied s r st) (hinst : st.inst = k) (hle : st.remaining s.cfg ≤ w)
  | atHead (i : Instr) (hnext : s.next = k) (hprog : progAt s k = .instr i) (hle : latency s.cfg i.op + 1 ≤ w)

theorem RetiresWithin.pos {s : State} {k w : Nat} (h : RetiresWithin s k w) (hinv : Inv s) : 0 < w := by
  cases h with
  | inStation r st ho _ hle => exact (remaining_pos hinv ho).trans_le hle
  | atHead i _ _ hle => exact (Nat.succ_pos _).trans_le hle

/-- The oldest instruction is in a station (R28) or the head, and takes at most L(op) + 1 cycles. -/
theorem Oldest.retiresWithin {s : State} {k : Nat} (h : Oldest s k) (hs : Running s) :
    ∃ i, progAt s k = .instr i ∧ RetiresWithin s k (latency s.cfg i.op + 1) := by
  rcases (h.le_next hs.inv).lt_or_eq with hlt | rfl
  · obtain ⟨t, ht, hw⟩ := h.unretired
    obtain ⟨r, st, ho, rfl⟩ := hs.inv.inFlight k t hlt ht hw
    obtain ⟨i, hi, hop, -⟩ := hs.inv.inv5Op r st ho
    refine ⟨i, hi, .inStation r st ho rfl ?_⟩
    rw [Station.remaining, hop]
    split <;> omega
  · obtain ⟨i, hi, -⟩ := head_of_admitted hs.admitted (h.lt hs.inv)
    exact ⟨i, hi, .atHead i rfl hi le_rfl⟩

theorem RetiresWithin.releaseReset {s : State} {k w : Nat} (h : RetiresWithin s k w) :
    RetiresWithin (releaseReset s) k w := by
  cases h with
  | inStation r st ho hinst hle =>
    exact .inStation r st (by simpa [occupied, stationIs] using ho) hinst (by simpa using hle)
  | atHead i hnext hprog hle =>
    exact .atHead i (by simpa using hnext) ((progAt_congr (releaseReset_prog s) k).trans hprog) (by simpa using hle)

/-- Issue leaves the oldest instruction in a station: its own, or the one the arbiter gives (R102, R106). -/
theorem RetiresWithin.issue {s : State} {i : Instr} {k w : Nat} (hw : RetiresWithin s k w) (h : AtHead i s)
    (hk : Oldest s k) : ∃ r st, occupied (issue i (advanceCycle s)) r st ∧ st.inst = k ∧ st.remaining s.cfg ≤ w := by
  cases hw with
  | inStation r st ho hinst hle =>
    have hstay := issue_station_of_ne (s := advanceCycle s) (arbiter_ne_of_busy ho i.op.cls)
    exact ⟨r, st, ⟨hstay.trans ho.1, ho.2⟩, hinst, hle⟩
  | atHead j hnext hprog hle =>
    obtain ⟨r, ha⟩ := h.exists_arbiter (hk.not_occupied h.inv hnext)
    obtain ⟨st, ho, hop, hinst, hlat, hready, -⟩ := admitted_station h ha
    have hij : i = j := Decoded.instr.inj (h.head.symm.trans (hnext ▸ hprog))
    refine ⟨r, st, ho, hinst.trans hnext, ?_⟩
    rwa [remaining_of_not_ready hready, hop, hlat, hij, Nat.sub_zero]

/-- Without a head the whole program has issued, so the oldest instruction is in a station (R100). -/
theorem RetiresWithin.drain {s : State} {k w : Nat} (hw : RetiresWithin s k w) (h : Draining s)
    (hk : Oldest s k) : ∃ r st, occupied s r st ∧ st.inst = k ∧ st.remaining s.cfg ≤ w := by
  cases hw with
  | inStation r st ho hinst hle => exact ⟨r, st, ho, hinst, hle⟩
  | atHead j hnext hprog hle => exact absurd (hnext.symm.trans h.allIssued) (hk.lt h.inv).ne

/-- FAULT after a cycle: a DivideByZero record, or none (R147, R212). -/
theorem finishCycle_fault_cases {s : State} (hf : s.fault = none) :
    (finishCycle s).fault = none ∨ dividedByZero (finishCycle s) := by
  have hfault : (finishCycle s).fault = divFault s.cfg s.stations s.cycle := by simp [finishCycle, hf]
  cases hdiv : divFault s.cfg s.stations s.cycle with
  | none => exact .inl (hfault.trans hdiv)
  | some f =>
    obtain ⟨r, st, -, -, rfl⟩ := divides_of_divFault hdiv
    exact .inr ⟨_, _, _, hfault.trans hdiv⟩

/-- The rest of a cycle that records no fault retires the instruction of a busy station with its operands, or brings its
retirement nearer by a count or by its result (R132, R134, R147, R162). -/
theorem finishCycle_progress {s : State} (h : Inv s) (hf : (finishCycle s).fault = none) {r : Nat} {st : Station}
    (ho : occupied s r st) (hj : st.qj = none) (hk : st.qk = none) :
    (∃ tm, timeIs (finishCycle s) st.inst tm ∧ tm.wb ≠ none) ∨
      ∃ u, occupied (finishCycle s) r u ∧ u.inst = st.inst ∧ u.remaining s.cfg < st.remaining s.cfg := by
  by_cases hr : st.ready = true
  · obtain ⟨-, tm, htm, hw⟩ := finishCycle_retires h ho.1 hr
    exact .inl ⟨tm, htm, by simp [hw]⟩
  have hr : st.ready = false := by simpa using hr
  have he : st.eligible = true := eligible_iff.2 ⟨ho.2, hj, hk, hr⟩
  have hst := finishCycle_station_of_not_ready ho.1 hr
  rw [Station.forwardJ, execStation_qj, hj, busAt_none, Station.forwardK, execStation_qk, hk, busAt_none] at hst
  refine .inr ⟨_, ⟨hst, by simpa using ho.2⟩, by simp, ?_⟩
  have hlat := h.inv9 r st ho
  rw [remaining_of_not_ready hr]
  rcases execStation_cases s.cfg st with ⟨hidle, -⟩ | ⟨-, -, -, e⟩ | ⟨v, -, -, -, -, e⟩ | ⟨-, -, -, hev, -⟩
  · cases he.symm.trans hidle
  · rw [e, remaining_of_not_ready (st := { st with lat := st.lat + 1 }) hr]
    dsimp only
    omega
  · rw [e, remaining_of_ready rfl]
    omega
  · have hnone : divFault s.cfg s.stations s.cycle = none := by
      rw [finishCycle, writeback_fault, execute_fault, Option.or_eq_none_iff] at hf
      exact hf.2
    exact absurd hev (divFault_eq_none_iff.1 hnone r st ho.1)

/-- Issue records no writeback (R108). -/
theorem issue_wb (i : Instr) (s : State) : (issue i s).ts.map TimeRec.wb = s.ts.map TimeRec.wb := by
  rcases issue_cases i s with ⟨e, -⟩ | ⟨r, -, -, e⟩
  · rw [e]
  · refine List.ext_getElem? fun k => ?_
    rw [e, List.getElem?_map, admitTo_time, List.getElem?_map, Option.map_map]
    congr 1
    funext t
    dsimp only [Function.comp]
    split <;> rfl

/-- A retired instruction stays so (R32). -/
theorem finishCycle_retired {s : State} (h : Inv s) {j : Nat} {b : TimeRec} (hb : timeIs (finishCycle s) j b)
    (hret : ∀ a, timeIs s j a → a.wb ≠ none) : b.wb ≠ none := by
  rcases time_of_finishCycle h hb with hold | ⟨-, -, a, -, -, ha, -⟩
  · exact hret b hold
  · rcases (finishCycle_time h ha hb).wb with hkeep | ⟨hnone, -⟩
    · exact hkeep ▸ hret a ha
    · exact absurd hnone (hret a ha)

/-- The rest of a cycle retires the oldest instruction, which Issue left in a station, or brings its retirement
nearer. -/
theorem Oldest.finishCycle {s : State} {k w r : Nat} {st : Station} (h : Oldest s k) (hinv : Inv s)
    (hinv' : Inv (finishCycle s)) (hf : (finishCycle s).fault = none) (ho : occupied s r st) (hinst : st.inst = k)
    (hle : st.remaining s.cfg ≤ w) :
    RetiredBelow (finishCycle s) (k + 1) ∨
      ∃ v, v < w ∧ Oldest (finishCycle s) k ∧ RetiresWithin (finishCycle s) k v := by
  subst hinst
  obtain ⟨hqj, hqk⟩ := h.operands hinv ho rfl
  have hbefore : RetiredBelow (Machine.finishCycle s) st.inst := fun j t hj ht =>
    finishCycle_retired hinv ht fun a => h.before j a hj
  rcases finishCycle_progress hinv hf ho hqj hqk with ⟨tm, htm, hret⟩ | ⟨u, hu, huinst, hlt⟩
  · refine .inl fun j t hj ht => ?_
    rcases Nat.lt_succ_iff_lt_or_eq.1 hj with hj | rfl
    · exact hbefore j t hj ht
    · exact timeIs_unique htm ht ▸ hret
  · obtain ⟨tm, htm, -, hw⟩ := hinv'.inv5Time r u hu
    obtain ⟨hcfg, -⟩ := finishCycle_fixed s
    exact .inr ⟨_, hlt.trans_le hle, ⟨⟨tm, huinst ▸ htm, hw⟩, hbefore⟩, .inStation r u hu huinst (by rw [hcfg])⟩

/-- A step of a running state is Issue, which leaves the oldest instruction in a station, and the rest of a cycle. -/
theorem Running.exists_issued {s : State} {k w : Nat} (hs : Running s) (hk : Oldest s k) (hw : RetiresWithin s k w) :
    ∃ s1 r st, step s = .next (finishCycle s1) ∧ Inv s1 ∧ s1.fault = none ∧ Oldest s1 k ∧ occupied s1 r st ∧
      st.inst = k ∧ st.remaining s1.cfg ≤ w := by
  have hk' : Oldest (releaseReset s) k := hk.congr (by rw [releaseReset_ts])
  have hw' := hw.releaseReset
  rcases hs.step_cases hk.done_eq_false with ⟨i, hi, hstep⟩ | ⟨hd, hstep⟩
  · obtain ⟨r, st, ho, hinst, hle⟩ := hw'.issue hi hk'
    obtain ⟨hcfg, -⟩ := issue_fixed i (advanceCycle (releaseReset s))
    exact ⟨_, r, st, hstep, atHead_issue_inv hi, (issue_fault ..).trans hi.noFault, hk'.congr (issue_wb ..), ho, hinst,
      hcfg ▸ hle⟩
  · obtain ⟨r, st, ho, hinst, hle⟩ := hw'.drain hd hk'
    exact ⟨_, r, st, hstep, advance_inv hd.inv, hd.noFault, hk'.congr rfl, ho, hinst, hle⟩

/-- A step of a running state retires the oldest instruction or brings its retirement nearer, unless a DIV divides by
zero in it. -/
theorem Running.step_oldest {s : State} {k w : Nat} (hs : Running s) (hk : Oldest s k) (hw : RetiresWithin s k w) :
    ∃ t, step s = .next t ∧ (dividedByZero t ∨
      Running t ∧ (RetiredBelow t (k + 1) ∨ ∃ v, v < w ∧ Oldest t k ∧ RetiresWithin t k v)) := by
  obtain ⟨s1, r, st, hstep, hinv, hf, hk1, ho, hinst, hle⟩ := hs.exists_issued hk hw
  refine ⟨_, hstep, ?_⟩
  rcases finishCycle_fault_cases hf with hnone | hdz
  · have hrun := hs.of_step hstep hnone
    exact .inr ⟨hrun, hk1.finishCycle hinv hrun.inv hnone ho hinst hle⟩
  · exact .inl hdz

/-- The oldest unretired instruction and the whole program after it take at most n cycles (R189). -/
def EndsWithin (s : State) (n : Nat) : Prop :=
  ∃ k w, Oldest s k ∧ RetiresWithin s k w ∧ w + cycleBound s.cfg ((program s).drop (k + 1)) ≤ n

theorem cycleBound_cons_instr (c : Cfg) (i : Instr) (p : List Decoded) :
    cycleBound c (.instr i :: p) = latency c i.op + 1 + cycleBound c p := rfl

theorem cycleBound_drop_le (c : Cfg) (p : List Decoded) {j k : Nat} (h : j ≤ k) :
    cycleBound c (p.drop k) ≤ cycleBound c (p.drop j) :=
  ((List.drop_sublist_drop_left p h).map _).sum_le_sum (fun _ _ => Nat.zero_le _)

theorem drop_program {s : State} {k : Nat} (h : k < s.cfg.n) :
    (program s).drop k = progAt s k :: (program s).drop (k + 1) := by
  have hlen : k < (program s).length := by simpa [program] using h
  rw [List.drop_eq_getElem_cons hlen]
  simp [program]

/-- Once the first k instructions have retired, the rest of the program is what is left. -/
theorem Running.endsWithin {s : State} (hs : Running s) (hd : done s = false) {k : Nat}
    (hret : RetiredBelow s k) : EndsWithin s (cycleBound s.cfg ((program s).drop k)) := by
  obtain ⟨m, hm⟩ := exists_oldest hd
  obtain ⟨i, hi, hw⟩ := hm.retiresWithin hs
  have hkm : k ≤ m := by
    obtain ⟨t, ht, hnone⟩ := hm.unretired
    exact not_lt.1 fun hlt => hret m t hlt ht hnone
  refine ⟨m, _, hm, hw, ?_⟩
  calc latency s.cfg i.op + 1 + cycleBound s.cfg ((program s).drop (m + 1))
      = cycleBound s.cfg ((program s).drop m) := by rw [drop_program (hm.lt hs.inv), hi, cycleBound_cons_instr]
    _ ≤ cycleBound s.cfg ((program s).drop k) := cycleBound_drop_le _ _ hkm

/-- Each step ends the run, or leaves at least one cycle less of it (R189). -/
theorem EndsWithin.step {s : State} {n : Nat} (h : EndsWithin s n) (hs : Running s) :
    ∃ m t, n = m + 1 ∧ step s = .next t ∧
      ((done t = true ∨ dividedByZero t) ∨ Running t ∧ EndsWithin t m) := by
  obtain ⟨k, w, hk, hw, hn⟩ := h
  have hpos := hw.pos hs.inv
  obtain ⟨t, hstep, hdz | ⟨hrun, hnext⟩⟩ := hs.step_oldest hk hw
  · exact ⟨n - 1, t, by omega, hstep, .inl (.inr hdz)⟩
  obtain ⟨hcfg, hprog, -⟩ := (configurationAndProgramAreFixed s t hstep).2 hs.pins.1
  rw [← hcfg, ← program_congr hprog hcfg] at hn
  rcases hnext with hret | ⟨v, hlt, hk', hw'⟩
  · cases hd : done t with
    | true => exact ⟨n - 1, t, by omega, hstep, .inl (.inl hd)⟩
    | false =>
      obtain ⟨j, v, hj, hv, hle⟩ := hrun.endsWithin hd hret
      exact ⟨n - 1, t, by omega, hstep, .inr ⟨hrun, j, v, hj, hv, by omega⟩⟩
  · exact ⟨n - 1, t, by omega, hstep, .inr ⟨hrun, k, v, hk', hw', by omega⟩⟩

theorem EndsWithin.run {s : State} {n : Nat} (h : EndsWithin s n) (hs : Running s) :
    ∃ m t, m ≤ n ∧ run m s = .next t ∧ (done t = true ∨ dividedByZero t) := by
  induction n generalizing s with
  | zero =>
    obtain ⟨m, -, hm, -⟩ := h.step hs
    cases hm
  | succ n ih =>
    obtain ⟨m, t, hm, hstep, hend | ⟨ht, hn⟩⟩ := h.step hs
    · exact ⟨1, t, by omega, run_succ_of_step hstep 0, hend⟩
    · cases hm
      obtain ⟨l, u, hl, hrun, hend⟩ := ih hn ht
      exact ⟨l + 1, u, by omega, (run_succ_of_step hstep l).trans hrun, hend⟩

/-- Settles O49: at first every instruction of the program is left. -/
theorem runEndsWithinTheCycleBound : Obligations.RunEndsWithinTheCycleBound := by
  intro s hs
  have hrun := running_of_booted hs
  cases hd : done s with
  | true => exact ⟨0, s, Nat.zero_le _, rfl, .inl hd⟩
  | false => exact (hrun.endsWithin hd (k := 0) fun j t hj => absurd hj (Nat.not_lt_zero j)).run hrun

end Sys2Proof.Machine
end

section
/-! The family of 70_reset_and_hazards.md: each stage of a cycle keeps the simulation of the sequential reading (R244 to
R246), so a completed run ends with REG as the reading leaves it (R248). -/

namespace Sys2Proof.Machine

/-! ### The sequential reading (R248) -/

@[simp] theorem length_seqInstr (reg : List Word) (i : Instr) : (seqInstr reg i).length = reg.length := by
  unfold seqInstr
  split <;> simp

@[simp] theorem length_seqRun (reg : List Word) (p : List Decoded) : (seqRun reg p).length = reg.length := by
  induction p generalizing reg with
  | nil => rfl
  | cons d p ih =>
    rw [seqRun, List.foldl_cons, ← seqRun, ih]
    cases d <;> simp

@[simp] theorem length_seqUpTo (reg0 : List Word) (s : State) (k : Nat) :
    (seqUpTo reg0 s k).length = reg0.length := length_seqRun ..

/-- An instruction leaves every register but its destination (R248). -/
theorem seqInstr_getElem?_of_ne (reg : List Word) {i : Instr} {x : Nat} (h : x ≠ i.rd.toNat) :
    (seqInstr reg i)[x]? = reg[x]? := by
  unfold seqInstr
  split
  · exact List.getElem?_set_ne h.symm
  · rfl

/-- An instruction writes its destination with what f_op gives for its operands (R248). -/
theorem seqInstr_getElem?_rd {reg : List Word} {i : Instr} {a b v : Word} (hlen : i.rd.toNat < reg.length)
    (ha : reg[i.rs.toNat]? = some a) (hb : reg[i.rt.toNat]? = some b) (hv : fOp i.op a b = some v) :
    (seqInstr reg i)[i.rd.toNat]? = some v := by
  simp [seqInstr, ha, hb, hv, hlen]

theorem take_program_succ {s : State} {k : Nat} (h : k < s.cfg.n) :
    (program s).take (k + 1) = (program s).take k ++ [progAt s k] := by
  simp [List.take_add_one, program, h]

theorem seqUpTo_succ (reg0 : List Word) {s : State} {k : Nat} {i : Instr} (h : k < s.cfg.n)
    (hi : progAt s k = .instr i) : seqUpTo reg0 s (k + 1) = seqInstr (seqUpTo reg0 s k) i := by
  simp [seqUpTo, take_program_succ h, hi, seqRun]

theorem seqUpTo_congr (reg0 : List Word) {s t : State} (hprog : t.prog = s.prog) (hcfg : t.cfg = s.cfg) (k : Nat) :
    seqUpTo reg0 t k = seqUpTo reg0 s k := by
  rw [seqUpTo, program_congr hprog hcfg, seqUpTo]

/-! Execute and Writeback leave the program, so they leave the reading. -/

@[simp] theorem progAt_execute (s : State) (k : Nat) : progAt (execute s) k = progAt s k :=
  progAt_congr (execute_prog s) k

@[simp] theorem seqUpTo_execute (reg0 : List Word) (s : State) (k : Nat) :
    seqUpTo reg0 (execute s) k = seqUpTo reg0 s k := seqUpTo_congr reg0 (execute_prog s) (execute_cfg s) k

@[simp] theorem progAt_writeback (s1 s2 : State) (k : Nat) : progAt (writeback s1 s2) k = progAt s2 k := rfl

@[simp] theorem seqUpTo_writeback (reg0 : List Word) (s1 s2 : State) (k : Nat) :
    seqUpTo reg0 (writeback s1 s2) k = seqUpTo reg0 s2 k := rfl

/-! ### Operands -/

/-- An operand slot with tag `q` and value `v` stands for register `x` before instruction `n`: it holds the value of the
reading there, or waits for the instruction that leaves it (R244). -/
structure OperandReads (reg0 : List Word) (s : State) (n : Nat) (x : RegIx) (q : Tag) (v : Word) : Prop where
  value : q = none → (seqUpTo reg0 s n)[x.toNat]? = some v
  wait : ∀ p sp, q = some p → stationIs s p sp →
    (∃ j, progAt s sp.inst = .instr j ∧ j.rd = x) ∧
      (seqUpTo reg0 s (sp.inst + 1))[x.toNat]? = (seqUpTo reg0 s n)[x.toNat]?

/-- A slot stands for the same register in another state of the program, if its producer holds the same instruction. -/
theorem OperandReads.congr {reg0 : List Word} {s t : State} {n : Nat} {x : RegIx} {q : Tag} {v : Word}
    (h : OperandReads reg0 s n x q v) (hprog : t.prog = s.prog) (hcfg : t.cfg = s.cfg)
    (hst : ∀ p sp, q = some p → stationIs t p sp → ∃ sq, stationIs s p sq ∧ sq.inst = sp.inst) :
    OperandReads reg0 t n x q v where
  value := by
    rw [seqUpTo_congr reg0 hprog hcfg]
    exact h.value
  wait := by
    intro p sp hq hsp
    obtain ⟨sq, hsq, hinst⟩ := hst p sp hq hsp
    rw [seqUpTo_congr reg0 hprog hcfg, seqUpTo_congr reg0 hprog hcfg, progAt_congr hprog, ← hinst]
    exact h.wait p sq hq hsq

/-- Both operand slots of every busy station stand for the source registers of its instruction. -/
def OperandsRead (reg0 : List Word) (s : State) : Prop :=
  ∀ a st i, occupied s a st → progAt s st.inst = .instr i →
    OperandReads reg0 s st.inst i.rs st.qj st.vj ∧ OperandReads reg0 s st.inst i.rt st.qk st.vk

namespace Simulates

variable {reg0 : List Word} {s : State}

theorem operandsRead (h : Simulates reg0 s) : OperandsRead reg0 s := fun a st i ho hi =>
  ⟨⟨h.valueJ a st i ho hi, fun p sp => h.waitJ a st i p sp ho hi⟩,
    ⟨h.valueK a st i ho hi, fun p sp => h.waitK a st i p sp ho hi⟩⟩

/-- The simulation, with its four clauses on operands as one. -/
theorem of_operandsRead (size : reg0.length = 256)
    (settled : ∀ i, (∀ r, ¬ mapped s i r) → s.reg[i]? = (seqUpTo reg0 s s.next)[i]?)
    (pending : ∀ i r st, mapped s i r → stationIs s r st →
      (seqUpTo reg0 s (st.inst + 1))[i]? = (seqUpTo reg0 s s.next)[i]?)
    (operands : OperandsRead reg0 s)
    (result : ∀ r st i, stationIs s r st → st.ready = true → progAt s st.inst = .instr i →
      (seqUpTo reg0 s (st.inst + 1))[i.rd.toNat]? = some st.result) : Simulates reg0 s where
  size := size
  settled := settled
  pending := pending
  valueJ := fun a st i ho hi => (operands a st i ho hi).1.value
  valueK := fun a st i ho hi => (operands a st i ho hi).2.value
  waitJ := fun a st i p sp ho hi => (operands a st i ho hi).1.wait p sp
  waitK := fun a st i p sp ho hi => (operands a st i ho hi).2.wait p sp
  result := result

/-! ### The clock, the release of rst and a fault record -/

theorem advanceCycle (h : Simulates reg0 s) : Simulates reg0 (advanceCycle s) := { h with }

theorem releaseReset (h : Simulates reg0 s) : Simulates reg0 (releaseReset s) := by
  unfold Machine.releaseReset
  split
  · exact { h with }
  · exact h

theorem raiseFault (h : Simulates reg0 s) (f : FaultRecord) : Simulates reg0 (raiseFault f s) := by
  unfold Machine.raiseFault
  split
  · exact { h with }
  · exact h

/-! ### Issue (R104 to R109, R245, R246) -/

/-- What Issue resolves a source register to stands for it before the head (R104). -/
theorem operandReads_resolve (h : Simulates reg0 s) (hinv : Inv s) (x : RegIx) {v : Word}
    (hv : readStat s x = none → v = readReg s x) : OperandReads reg0 s s.next x (readStat s x) v where
  value := by
    intro hq
    have hfree : ∀ r, ¬ mapped s x.toNat r := fun r hm => by simp [readStat, hm] at hq
    have hlen : x.toNat < s.reg.length := hinv.sized.reg ▸ x.isLt
    rw [← h.settled _ hfree, hv hq, readReg, List.getElem?_eq_getElem hlen, Option.getD_some]
  wait := by
    intro p sp hq hsp
    have hm := mapped_of_readStat hq
    obtain ⟨j, hj, hrd⟩ := hinv.inv2 _ _ _ hm hsp
    exact ⟨⟨j, hj, BitVec.eq_of_toNat_eq hrd⟩, h.pending _ _ _ hm hsp⟩

end Simulates

theorem fill_vj_resolve (op : Op) {s : State} {x : RegIx} (h : readStat s x = none) (ok : Operand) (n : Nat)
    (st : Station) : (Station.fill op (resolve s x) ok n st).vj = readReg s x := by
  rw [resolve, h]
  exact (fill_valJ ..).1

theorem fill_vk_resolve (op : Op) {s : State} {x : RegIx} (h : readStat s x = none) (oj : Operand) (n : Nat)
    (st : Station) : (Station.fill op oj (resolve s x) n st).vk = readReg s x := by
  rw [resolve, h]
  exact (fill_valK ..).1

/-- A station after admission: the admitted one, filled, or as it was (R106). -/
theorem stationIs_admitTo_cases {i : Instr} {r a : Nat} {s : State} {st : Station}
    (h : stationIs (admitTo i r s) a st) :
    a ≠ r ∧ stationIs s a st ∨
      a = r ∧ ∃ st0, stationIs s r st0 ∧ st = st0.fill i.op (resolve s i.rs) (resolve s i.rt) s.next := by
  rw [stationIs, admitTo_station, Option.map_eq_some_iff] at h
  obtain ⟨st0, hst0, rfl⟩ := h
  by_cases hr : r = a
  · subst hr
    exact .inr ⟨rfl, st0, hst0, if_pos rfl⟩
  · rw [if_neg hr]
    exact .inl ⟨Ne.symm hr, hst0⟩

/-- Admission takes a free station, so a slot that waits for a busy one stands for the same register after it. -/
theorem OperandReads.admitTo {reg0 : List Word} {s : State} {n : Nat} {x : RegIx} {q : Tag} {v : Word}
    (hread : OperandReads reg0 s n x q v) {i : Instr} {r : Nat} (ha : arbiter s i.op.cls = some r)
    (hex : ∀ p, q = some p → ∃ sp, occupied s p sp) : OperandReads reg0 (admitTo i r s) n x q v := by
  refine hread.congr rfl rfl fun p sp hq hsp => ?_
  obtain ⟨sq, hsq⟩ := hex p hq
  obtain ⟨-, hsp⟩ | ⟨rfl, -⟩ := stationIs_admitTo_cases hsp
  · exact ⟨sp, hsp, rfl⟩
  · exact absurd ha (arbiter_ne_of_busy hsq _)

/-- A status entry after admission: the destination names the admitted station, any other entry is as it was (R107). -/
theorem mapped_admitTo_iff {i : Instr} {r j p : Nat} {s : State} (hd : i.rd.toNat < s.rstat.length) :
    mapped (admitTo i r s) j p ↔ if j = i.rd.toNat then p = r else mapped s j p := by
  rw [mapped, admitTo_rstat]
  split
  · next hj => rw [hj, List.getElem?_set_self hd, Option.some_inj, Option.some_inj, eq_comm]
  · next hj => rw [List.getElem?_set_ne (Ne.symm hj)]

namespace Simulates

variable {reg0 : List Word} {s : State}

/-- Admission keeps the simulation: the renamed register waits for the head, and the head changes no other (R246). -/
theorem admitTo (h : Simulates reg0 s) (hinv : Inv s) {i : Instr} {r : Nat} (hn : s.next < s.cfg.n)
    (hi : progAt s s.next = .instr i) (hd : i.rd.toNat < s.rstat.length) (ha : arbiter s i.op.cls = some r) :
    Simulates reg0 (admitTo i r s) := by
  obtain ⟨-, ⟨st0, hst0, hfree⟩, -⟩ := arbiter_some ha
  have hother : ∀ {j : Nat}, j ≠ i.rd.toNat → (seqUpTo reg0 s (s.next + 1))[j]? = (seqUpTo reg0 s s.next)[j]? :=
    fun hj => by rw [seqUpTo_succ reg0 hn hi, seqInstr_getElem?_of_ne _ hj]
  refine of_operandsRead h.size ?settled ?pending ?operands ?result
  case settled =>
    intro j hj
    simp only [mapped_admitTo_iff hd] at hj
    have hne : j ≠ i.rd.toNat := fun he => hj r (by simp [he])
    rw [admitTo_reg, h.settled j fun p hm => hj p (by simpa [hne] using hm)]
    exact (hother hne).symm
  case pending =>
    intro j p st hm hst
    rw [mapped_admitTo_iff hd] at hm
    split at hm
    · obtain ⟨hne, -⟩ | ⟨-, st1, -, rfl⟩ := stationIs_admitTo_cases hst
      · exact absurd hm hne
      · rfl
    · next hne =>
      obtain ⟨sp, hsp⟩ := hinv.inv1Rstat _ _ hm
      obtain ⟨-, hst⟩ | ⟨rfl, -⟩ := stationIs_admitTo_cases hst
      · exact (h.pending j p st hm hst).trans (hother hne).symm
      · exact absurd ha (arbiter_ne_of_busy hsp _)
  case operands =>
    rintro a st j ⟨hst, hb⟩ hj
    obtain ⟨-, hst⟩ | ⟨-, st1, -, rfl⟩ := stationIs_admitTo_cases hst
    · obtain ⟨hJ, hK⟩ := h.operandsRead a st j ⟨hst, hb⟩ hj
      exact ⟨hJ.admitTo ha fun p => hinv.inv1Qj a st p hst, hK.admitTo ha fun p => hinv.inv1Qk a st p hst⟩
    · obtain rfl : i = j := Decoded.instr.inj (hi.symm.trans hj)
      have hsource : ∀ (x : RegIx) v, (readStat s x = none → v = readReg s x) →
          OperandReads reg0 (Machine.admitTo i r s) s.next x (readStat s x) v := fun x v hv =>
        (h.operandReads_resolve hinv x hv).admitTo ha fun p hp => hinv.inv1Rstat _ p (mapped_of_readStat hp)
      rw [fill_qj_resolve, fill_qk_resolve, fill_inst]
      exact ⟨hsource i.rs _ fun hx => fill_vj_resolve _ hx .., hsource i.rt _ fun hx => fill_vk_resolve _ hx ..⟩
  case result =>
    intro p st j hst hr hj
    obtain ⟨-, hst⟩ | ⟨-, st1, hst1, rfl⟩ := stationIs_admitTo_cases hst
    · exact h.result p st j hst hr hj
    · rw [fill_ready] at hr
      obtain ⟨hbusy1, -⟩ := hinv.inv7 r st1 hst1 hr
      cases hbusy1.symm.trans (stationIs_unique hst1 hst0 ▸ hfree)

/-- Issue keeps the simulation. -/
theorem issue (h : Simulates reg0 s) (hinv : Inv s) {i : Instr} (hi : progAt s s.next = .instr i)
    (hd : i.rd.toNat < s.rstat.length) : Simulates reg0 (issue i s) := by
  obtain ⟨e, -⟩ | ⟨r, hn, ha, e⟩ := issue_cases i s
  · rwa [e]
  · rw [e]
    exact h.admitTo hinv hn hi hd ha

/-! ### Execute (R134, R137, R248) -/

/-- The result of f_op on a station's operands is what its instruction leaves in its destination. -/
theorem result_of_fOp (h : Simulates reg0 s) (hinv : Inv s) {r : Nat} {st : Station} {i : Instr} {v : Word}
    (ho : occupied s r st) (hi : progAt s st.inst = .instr i) (hj : st.qj = none) (hk : st.qk = none)
    (hv : fOp st.op st.vj st.vk = some v) : (seqUpTo reg0 s (st.inst + 1))[i.rd.toNat]? = some v := by
  obtain ⟨ins, hins, hop, -⟩ := hinv.inv5Op r st ho
  obtain rfl : ins = i := Decoded.instr.inj (hins.symm.trans hi)
  rw [seqUpTo_succ reg0 ((hinv.inv5Next r st ho).trans_le hinv.sized.next) hi]
  refine seqInstr_getElem?_rd ?_ (h.valueJ r st ins ho hi hj) (h.valueK r st ins ho hi hk) (hop ▸ hv)
  rw [length_seqUpTo, h.size]
  exact ins.rd.isLt

/-- What a station holds after Execute, if it is ready, is what its instruction leaves. -/
theorem result_execStation (h : Simulates reg0 s) (hinv : Inv s) {r : Nat} {st : Station} {i : Instr}
    (hst : stationIs s r st) (hr : (execStation s.cfg st).ready = true) (hi : progAt s st.inst = .instr i) :
    (seqUpTo reg0 s (st.inst + 1))[i.rd.toNat]? = some (execStation s.cfg st).result := by
  obtain ⟨-, -, e⟩ | ⟨-, -, -, e⟩ | ⟨v, he, -, hv, -, e⟩ | ⟨-, -, -, -, e⟩ := execStation_cases s.cfg st
  · rw [e] at hr ⊢
    exact h.result r st i hst hr hi
  · rw [e] at hr ⊢
    exact h.result r st i hst hr hi
  · obtain ⟨hb, hj, hk, -⟩ := eligible_iff.1 he
    rw [e]
    exact h.result_of_fOp hinv ⟨hst, hb⟩ hi hj hk hv
  · rw [e] at hr ⊢
    exact h.result r st i hst hr hi

end Simulates

theorem exists_stationIs_of_execute {s : State} {a : Nat} {st : Station} (hst : stationIs (execute s) a st) :
    ∃ st0, stationIs s a st0 ∧ execStation s.cfg st0 = st := by
  rwa [stationIs, execute_station, Option.map_eq_some_iff] at hst

/-- Execute moves no instruction, so a slot stands for the same register after it. -/
theorem OperandReads.execute {reg0 : List Word} {s : State} {n : Nat} {x : RegIx} {q : Tag} {v : Word}
    (hread : OperandReads reg0 s n x q v) : OperandReads reg0 (execute s) n x q v := by
  refine hread.congr (execute_prog s) (execute_cfg s) fun p sp _ hsp => ?_
  obtain ⟨sq, hsq, rfl⟩ := exists_stationIs_of_execute hsp
  exact ⟨sq, hsq, (execStation_inst ..).symm⟩

/-- Execute keeps the simulation: it changes no operand, and a result it writes is the instruction's. -/
theorem Simulates.execute {reg0 : List Word} {s : State} (h : Simulates reg0 s) (hinv : Inv s) :
    Simulates reg0 (execute s) := by
  refine of_operandsRead h.size ?settled ?pending ?operands ?result
  case settled => simpa [mapped] using h.settled
  case pending =>
    intro j p st hm hst
    obtain ⟨st0, hst0, rfl⟩ := exists_stationIs_of_execute hst
    simpa using h.pending j p st0 (by simpa [mapped] using hm) hst0
  case operands =>
    rintro a st i ⟨hst, hb⟩ hi
    obtain ⟨st0, hst0, rfl⟩ := exists_stationIs_of_execute hst
    simp only [execStation_busy, execStation_inst, progAt_execute] at hb hi
    obtain ⟨hJ, hK⟩ := h.operandsRead a st0 i ⟨hst0, hb⟩ hi
    simpa using ⟨hJ.execute, hK.execute⟩
  case result =>
    intro r st i hst hr hi
    obtain ⟨st0, hst0, rfl⟩ := exists_stationIs_of_execute hst
    simpa using h.result_execStation hinv hst0 hr (by simpa using hi)

/-! ### Writeback (R161 to R166, R244) -/

/-- What a station of B broadcasts is what its instruction leaves in its destination. -/
theorem Simulates.result_of_broadcasts {reg0 : List Word} {s1 s2 : State} (h : Simulates reg0 s2) (w : WB s1 s2)
    {p : Nat} {sp : Station} {j : Instr} (hb : broadcasts s1 p = true) (hsp : stationIs s2 p sp)
    (hj : progAt s2 sp.inst = .instr j) : (seqUpTo reg0 s2 (sp.inst + 1))[j.rd.toNat]? = some sp.result := by
  obtain ⟨st, ⟨hst, -⟩, hr, -⟩ := w.b p hb
  exact h.result p sp j hsp (stationIs_unique hst hsp ▸ hr) hj

/-- A register mapped after Writeback was mapped to the same station, which did not broadcast (R163). -/
theorem mapped_of_writeback {s1 s2 : State} (hinv : Inv s2) {j p : Nat} (hm : mapped (writeback s1 s2) j p) :
    mapped s2 j p ∧ broadcasts s1 p = false := by
  rw [mapped, writeback_stat, Option.map_eq_some_iff] at hm
  obtain ⟨t, ht, hclear⟩ := hm
  obtain ⟨rfl, hbus⟩ := clearTag_some.1 hclear
  exact ⟨ht, (bus_none (hinv.inv1Rstat j p ht)).1 hbus⟩

/-- A station outside B holds its instruction after Writeback as before (R164). -/
theorem exists_stationIs_of_writeback {s1 s2 : State} {a : Nat} {st : Station}
    (hst : stationIs (writeback s1 s2) a st) (hb : broadcasts s1 a = false) :
    ∃ st0, stationIs s2 a st0 ∧ st = (st0.forwardJ (cdb s1 s2)).forwardK (cdb s1 s2) := by
  rw [stationIs, writeback_station, Option.map_eq_some_iff] at hst
  obtain ⟨st0, hst0, rfl⟩ := hst
  exact ⟨st0, hst0, by rw [wbStation, hb, if_neg Bool.false_ne_true]⟩

/-- A station of B is free after Writeback (R165). -/
theorem not_broadcasts_of_writeback {s1 s2 : State} {a : Nat} {st : Station} (hst : stationIs (writeback s1 s2) a st)
    (h : st.busy = true ∨ st.ready = true) : broadcasts s1 a = false := by
  rw [stationIs, writeback_station, Option.map_eq_some_iff] at hst
  obtain ⟨st0, -, rfl⟩ := hst
  by_contra hb
  rw [Bool.not_eq_false] at hb
  simp [wbStation, hb, Station.release, Station.unspecified] at h

/-- Forwarding keeps what an operand slot stands for: a producer broadcasts the value the slot waits for (R164). -/
theorem OperandReads.writeback {reg0 : List Word} {s1 s2 : State} {n : Nat} {x : RegIx} {q : Tag} {v : Word}
    (hread : OperandReads reg0 s2 n x q v) (h : Simulates reg0 s2) (w : WB s1 s2)
    (hex : ∀ p, q = some p → ∃ sp, occupied s2 p sp) :
    OperandReads reg0 (writeback s1 s2) n x (clearTag (cdb s1 s2) q) ((busAt (cdb s1 s2) q).getD v) := by
  cases q with
  | none => exact hread.congr rfl rfl nofun
  | some p =>
    obtain ⟨sp, hsp⟩ := hex p rfl
    cases hb : broadcasts s1 p with
    | true =>
      obtain ⟨⟨j, hj, rfl⟩, hseq⟩ := hread.wait p sp rfl hsp.1
      simp only [clearTag, busAt_of_broadcasts hb hsp.1, Option.isSome_some, if_true, Option.getD_some]
      exact ⟨fun _ => hseq.symm.trans (h.result_of_broadcasts w hb hsp.1 hj), nofun⟩
    | false =>
      rw [clearTag_some.2 ⟨rfl, (bus_none ⟨sp, hsp⟩).2 hb⟩, (bus_none ⟨sp, hsp⟩).2 hb]
      refine hread.congr rfl rfl fun p' sq hq hsq => ?_
      cases hq
      obtain ⟨st0, hst0, rfl⟩ := exists_stationIs_of_writeback hsq hb
      exact ⟨st0, hst0, by simp⟩

/-- Writeback keeps the simulation: what is broadcast is what the waiting slots and registers wait for (R163, R164). -/
theorem Simulates.writeback {reg0 : List Word} {s1 s2 : State} (h : Simulates reg0 s2) (w : WB s1 s2) :
    Simulates reg0 (writeback s1 s2) := by
  have hinv := w.inv
  refine of_operandsRead h.size ?settled ?pending ?operands ?result
  case settled =>
    intro j hj
    by_cases hm : ∃ p, mapped s2 j p ∧ broadcasts s1 p = true
    · obtain ⟨p, hm, hb⟩ := hm
      obtain ⟨sp, ⟨hsp, -⟩, -⟩ := w.b p hb
      obtain ⟨ins, hins, rfl⟩ := hinv.inv2 j p sp hm hsp
      have hlen : ins.rd.toNat < s2.reg.length := hinv.sized.reg ▸ ins.rd.isLt
      rw [(writeback_register_of_broadcasts hlen hm hb hsp).1, ← h.result_of_broadcasts w hb hsp hins]
      exact h.pending _ p sp hm hsp
    · obtain ⟨hreg, hstat⟩ := writeback_register_of_silent (i := j) fun p hp => by
        by_contra hb
        exact hm ⟨p, hp, by simpa using hb⟩
      rw [hreg]
      exact h.settled j fun p hp => hj p (hstat.trans hp)
  case pending =>
    intro j p st hm hst
    obtain ⟨hm, hb⟩ := mapped_of_writeback hinv hm
    obtain ⟨st0, hst0, rfl⟩ := exists_stationIs_of_writeback hst hb
    simpa using h.pending j p st0 hm hst0
  case operands =>
    rintro a st i ⟨hst, hb⟩ hi
    obtain ⟨st0, hst0, rfl⟩ := exists_stationIs_of_writeback hst (not_broadcasts_of_writeback hst (.inl hb))
    obtain ⟨hJ, hK⟩ := h.operandsRead a st0 i ⟨hst0, by simpa using hb⟩ (by simpa using hi)
    simpa using
      ⟨hJ.writeback h w fun p => hinv.inv1Qj a st0 p hst0, hK.writeback h w fun p => hinv.inv1Qk a st0 p hst0⟩
  case result =>
    intro r st i hst hr hi
    obtain ⟨st0, hst0, rfl⟩ := exists_stationIs_of_writeback hst (not_broadcasts_of_writeback hst (.inr hr))
    simpa using h.result r st0 i hst0 (by simpa using hr) (by simpa using hi)

/-! ### The step (R180, R182) -/

/-- Execute and Writeback together keep the simulation. -/
theorem Simulates.finishCycle {reg0 : List Word} {s : State} (h : Simulates reg0 s) (hinv : Inv s)
    (w : WB s (Machine.execute s)) : Simulates reg0 (finishCycle s) :=
  (h.execute hinv).writeback w

/-- A cycle with a head keeps the simulation. -/
theorem Simulates.issueCycle {reg0 : List Word} {s : State} {i : Instr} (h : Simulates reg0 s) (hi : AtHead i s) :
    Simulates reg0 (issueCycle i s) := by
  obtain ⟨hrd, -⟩ := inRange_iff.1 hi.wf
  refine (h.advanceCycle.issue (advance_inv hi.inv) hi.head ?_).finishCycle (atHead_issue_inv hi) (atHead_wb hi)
  rw [advanceCycle_rstat, hi.inv.sized.rstat]
  exact hrd

/-- Settles O56, by the kinds of edges; in a cycle each stage keeps the simulation. -/
theorem stepKeepsTheSimulation : Obligations.StepKeepsTheSimulation := by
  intro reg0 s t hinv h hr hst
  have h' := h.releaseReset
  rcases step_of_inv hinv hr hst with rfl | rfl | ⟨i, hi, rfl⟩ | ⟨hd, rfl⟩
  · exact h'
  · exact h'.raiseFault _
  · exact h'.issueCycle hi
  · exact h'.advanceCycle.finishCycle (advance_inv hd.inv) (draining_wb hd)

/-! ### Completed runs (R188, R248) -/

/-- What every state of a run of the program `p` on the registers `reg0` satisfies while the host holds rst at 0. -/
structure Follows (reg0 : List Word) (p : List Decoded) (s : State) : Prop where
  inv : Inv s
  simulates : Simulates reg0 s
  rst : s.pins.rst = false
  program : program s = p

theorem Follows.step {reg0 : List Word} {p : List Decoded} {s t : State} (h : Follows reg0 p s)
    (hst : step s = .next t) : Follows reg0 p t := by
  obtain ⟨hpins, hfixed⟩ := configurationAndProgramAreFixed s t hst
  obtain ⟨hcfg, hprog, -⟩ := hfixed h.rst
  exact
    { inv := stepKeepsTheInvariants s t h.inv hst
      simulates := stepKeepsTheSimulation reg0 s t h.inv h.simulates h.rst hst
      rst := hpins ▸ h.rst
      program := (program_congr hprog hcfg).trans h.program }

/-- What every step keeps holds at the end of a run. -/
theorem run_keeps {P : State → Prop} (hstep : ∀ s t, P s → step s = .next t → P t) {n : Nat} {s t : State} (h : P s)
    (hrun : run n s = .next t) : P t := by
  induction n generalizing s with
  | zero => exact Host.Outcome.next.inj hrun ▸ h
  | succ n ih =>
    rw [run] at hrun
    split at hrun
    · next u hu => exact ih (hstep s u h hu) hrun
    · cases hrun
    · cases hrun

theorem done_of_completed {s : State} (h : runStatus s = .completed) : done s = true := by
  unfold runStatus at h
  split at h
  · cases h
  split at h
  · cases h
  split at h
  · assumption
  · cases h

/-- Settles O48: the simulation holds at the end of the run, where DONE holds. -/
theorem completedRunIsTheSequentialReading : Obligations.CompletedRunIsTheSequentialReading := by
  intro s t n hs hrun hend
  have hboot : Follows s.reg (program s) s := ⟨hs.inv, hs.simulates, hs.running.1, rfl⟩
  have hfinal := run_keeps (fun _ _ h => h.step) hboot hrun
  rw [reg_of_done hfinal.inv hfinal.simulates (done_of_completed hend), hfinal.program]

end Sys2Proof.Machine
end
